-- ==== Sys2Proof/Word.lean ====
section
/-!
DEFINITION. The widths of HUFFCORE's data (00_scope.md R6 to R9): a unit is one byte, an opcode four bits, a node handle ten.
-/

namespace Sys2Proof

/-- An input unit, `UNIT_BITS = 8` (00_scope.md R6). -/
abbrev Byte := BitVec 8

/-- The command word, format `C`: 4 bits (30_encoding.md R90). -/
abbrev Opcode := BitVec 4

/-- A node handle, `HW = 10` bits (00_scope.md R9). -/
abbrev Handle := BitVec 10

/-- An occurrence count, `CW = 32` bits (00_scope.md R8). -/
abbrev Count := BitVec 32

end Sys2Proof
end

