-- ==== Sys2Proof/Syntax.lean ====
section
/-!
DEFINITION. The commands of HUFFCORE: one constructor per row of spec/opcode_table.json. A command has no operands (30_encoding.md R90, R93).
-/

namespace Sys2Proof

/-- A command (30_encoding.md R91) or a reserved opcode (R92). -/
inductive Instr where
  | freq
  | build
  | codes
  | serial
  | parse
  | encode
  | decode
  | compress
  | decompress
  | rewind
  | release
  | reserved0
  | reservedC
  | reservedD
  | reservedE
  | reservedF
  deriving DecidableEq, Repr

/-- Every row of the table, in the order of 30_encoding.md R91. -/
def Instr.all : List Instr :=
  [.freq, .build, .codes, .serial, .parse, .encode, .decode, .compress, .decompress, .rewind, .release,
    .reserved0, .reservedC, .reservedD, .reservedE, .reservedF]

/-- The reserved opcodes select no command (30_encoding.md R92). -/
def Instr.reserved : Instr → Bool
  | .freq => false
  | .build => false
  | .codes => false
  | .serial => false
  | .parse => false
  | .encode => false
  | .decode => false
  | .compress => false
  | .decompress => false
  | .rewind => false
  | .release => false
  | .reserved0 => true
  | .reservedC => true
  | .reservedD => true
  | .reservedE => true
  | .reservedF => true

end Sys2Proof
end

