-- ==== Sys2Proof/WellFormed.lean ====
section
/-!
DEFINITION. Well-formedness of what a program is written from. A command carries no field that could be ill-formed
(30_encoding.md R90), so every term of `Instr` is well-formed; what can be ill-formed is the byte a command word is
carried in and the words of a program (R115).
-/

namespace Sys2Proof

/-- A command has no register number, immediate or modifier to check (30_encoding.md R90). -/
def Instr.wf : Instr → Bool
  | .freq => true
  | .build => true
  | .codes => true
  | .serial => true
  | .parse => true
  | .encode => true
  | .decode => true
  | .compress => true
  | .decompress => true
  | .rewind => true
  | .release => true
  | .reserved0 => true
  | .reservedC => true
  | .reservedD => true
  | .reservedE => true
  | .reservedF => true

/-- A byte carries a command word when its upper four bits, which the 4-bit word does not have, are 0
(DESIGN CHOICE, notes/assumptions/9.md). -/
def commandByteWf (b : Byte) : Bool := b.extractLsb' 4 4 == 0#4

/-- A program names commands only: a reserved opcode has no mnemonic of 30_encoding.md R91 to be written with (R115). -/
def programWf (p : List Instr) : Bool := p.all fun i => !i.reserved

end Sys2Proof
end

