-- ==== Sys2Proof/Decode.lean ====
section
/-!
DEFINITION. Decoding a command word (30_encoding.md R90 to R92), then the encoder written from the same table.
-/

namespace Sys2Proof

/-- Why a list of bytes is no command. -/
inductive DecodeError where
  /-- There is no byte to decode. Raised by `decode`; safe, nothing runs. -/
  | noWord
  /-- The byte has a bit above the 4-bit command word set. Raised by `decode`; safe, nothing runs. -/
  | upperBitsSet (b : Byte)
  deriving DecidableEq, Repr

/-- The command a 4-bit word selects, by the binary column of 30_encoding.md R91, most significant bit first.
"The decoder is total on all 16 values" (R92). -/
def decodeWord (w : Opcode) : Instr :=
  match w.getLsbD 3, w.getLsbD 2, w.getLsbD 1, w.getLsbD 0 with
  | false, false, false, false => .reserved0
  | false, false, false, true => .freq
  | false, false, true, false => .build
  | false, false, true, true => .codes
  | false, true, false, false => .serial
  | false, true, false, true => .parse
  | false, true, true, false => .encode
  | false, true, true, true => .decode
  | true, false, false, false => .compress
  | true, false, false, true => .decompress
  | true, false, true, false => .rewind
  | true, false, true, true => .release
  | true, true, false, false => .reservedC
  | true, true, false, true => .reservedD
  | true, true, true, false => .reservedE
  | true, true, true, true => .reservedF

/-- Decoding bytes: a command word stands in bits 3:0 of one byte (DESIGN CHOICE, notes/assumptions/9.md); answers the
command and the bytes after it. -/
def decode : List Byte → Except DecodeError (Instr × List Byte)
  | [] => .error .noWord
  | b :: rest => if commandByteWf b then .ok (decodeWord (b.setWidth 4), rest) else .error (.upperBitsSet b)

/-- The opcode of a command: the opcode column of 30_encoding.md R91. -/
def encode : Instr → Opcode
  | .freq => 0x1#4
  | .build => 0x2#4
  | .codes => 0x3#4
  | .serial => 0x4#4
  | .parse => 0x5#4
  | .encode => 0x6#4
  | .decode => 0x7#4
  | .compress => 0x8#4
  | .decompress => 0x9#4
  | .rewind => 0xA#4
  | .release => 0xB#4
  | .reserved0 => 0x0#4
  | .reservedC => 0xC#4
  | .reservedD => 0xD#4
  | .reservedE => 0xE#4
  | .reservedF => 0xF#4

/-- The byte that carries a command word. -/
def encodeByte (i : Instr) : Byte := (encode i).setWidth 8

/-- "The encoding of a program is the sequence of its opcodes, one 4-bit word per command" (30_encoding.md R115). -/
def encodeProgram (p : List Instr) : List Opcode := p.map encode

/-- The bytes that hold the `nbits` bits of `w`, bit 0 in the first byte. -/
def layOut (nbits w : Nat) : List Byte :=
  (List.range ((nbits + 7) / 8)).map fun k => BitVec.ofNat 8 (w / 2 ^ (8 * k))

/-- The command `decode` reads from an opcode-table row's word. -/
def decodeTableWord (nbits w : Nat) : Option Instr :=
  match decode (layOut nbits w) with
  | .ok (i, _) => some i
  | .error _ => none

end Sys2Proof
end

