-- ==== Sys2Proof/Config.lean ====
section
/-!
DEFINITION. What the implementation fixes (00_scope.md R6 to R9) and the one value the spec leaves open.
-/

namespace Sys2Proof.Config

/-- `NSYM`: symbols proper are 0 to 256 (00_scope.md R7). -/
def nsym : Nat := 257

/-- `SENTINEL`, the end-of-stream symbol (00_scope.md R7). -/
def sentinel : Nat := 256

/-- `NO_SYMBOL`, what the `sym` field of an internal node holds (00_scope.md R7). -/
def noSymbol : Nat := 257

/-- `CMAX`, the greatest occurrence count, 2^32 - 1 (00_scope.md R8). -/
def cmax : Nat := 4294967295

/-- `NN`, the number of node slots (00_scope.md R9). -/
def nodeSlots : Nat := 513

/-- `MAXLEN`, the greatest codeword length (00_scope.md R9). -/
def maxLen : Nat := 256

/-- `NIL`, the handle that names no node: all ones in 10 bits (00_scope.md R9). -/
def nil : Handle := 1023#10

/-- FREE VALUE. How many of its bytes the abandoned command had already appended to `OUT` when the reset came
(70_reset_and_hazards.md R260: "bytes already appended to `OUT` stay"), for the draw numbered by the argument.
The spec does not say how far a command has come at that moment; nothing constrains this value
(notes/assumptions/5.md). -/
opaque abandonedBytes : Nat → Nat

end Sys2Proof.Config
end

