-- ==== Sys2Proof/Machine/State.lean ====
section
/-!
DEFINITION. The state of HUFFCORE (10_state.md), the reasons a step can stop, and the state after reset.
-/

namespace Sys2Proof.Machine

/-- One node record, 71 bits (10_state.md R28, layout in 30_encoding.md R110). -/
structure Node where
  /-- 1: leaf; 0: internal node. -/
  leaf : Bool
  /-- A leaf's symbol, 0 to 256; `NO_SYMBOL` in an internal node. -/
  sym : BitVec 9
  /-- A leaf's count; the sum of the children's `freq` in an internal node. -/
  freq : BitVec 41
  /-- The 0-branch child, `NIL` in a leaf. -/
  c0 : Handle
  /-- The 1-branch child, `NIL` in a leaf and in the degenerate root. -/
  c1 : Handle
  deriving DecidableEq, Repr

/-- The result of a command, written to `STATUS.err` at completion (60_exceptions.md R230). -/
inductive ResultCode where
  | ok
  | emptyAlphabet
  | malformedHeader
  | corruptStream
  | countOverflow
  | unknownSymbol
  | noTree
  | illegalCommand
  deriving DecidableEq, Repr

/-- One thing the host does (20_memory.md R69, 10_state.md R37, 70_reset_and_hazards.md R260, R265). -/
inductive HostEvent where
  /-- ATTACH_IN(bytes). -/
  | attachIn (bytes : List Byte)
  /-- ATTACH_OUT. -/
  | attachOut
  /-- A write of an opcode to `CMD`. -/
  | writeCmd (op : Opcode)
  /-- Polling `STATUS` until `busy` reads 0. -/
  | waitIdle
  /-- One read of `STATUS`. -/
  | readStatus
  /-- Reading `OUT`. -/
  | readOut
  /-- Reading the debug view. -/
  | readDebug
  /-- Reset. -/
  | reset
  deriving DecidableEq, Repr

/-- The machine: 10_state.md, the two streams of 20_memory.md, and what the host does next. -/
structure State where
  /-- The frequency table as a mapping (10_state.md R26): symbol `s` is listed exactly when `ft_present[s] = 1`, with
  `ft_count[s]`; symbols strictly rising. -/
  ft : List (Nat × Count)
  /-- The node memory: exactly the `n_nodes` slots in use (10_state.md R23, R28). -/
  nodes : List Node
  /-- `root` (10_state.md R22). -/
  root : Handle
  /-- The code table as a mapping (10_state.md R30): symbol `s` is listed exactly when `code_len[s] ≠ 0`, with its
  codeword, bit 0 first; symbols strictly rising. -/
  codes : List (Nat × List Bool)
  /-- `IN` (20_memory.md R60). -/
  input : List Byte
  /-- `in_pos` (10_state.md R24). -/
  inPos : Nat
  /-- `in_bit` (10_state.md R24). -/
  inBit : BitVec 3
  /-- `OUT` (20_memory.md R63). -/
  out : List Byte
  /-- `out_acc` (10_state.md R25). -/
  outAcc : Byte
  /-- `out_n` (10_state.md R25). -/
  outN : BitVec 3
  /-- The opcode sampled when a write to `CMD` was accepted, while its command executes (20_memory.md R79); `none` when
  the block is idle. `STATUS.busy` is whether there is one (notes/assumptions/3.md). -/
  issued : Option Opcode
  /-- `STATUS.err` (10_state.md R33). -/
  err : ResultCode
  /-- The model's own: what the host does next, in order (notes/assumptions/2.md). -/
  host : List HostEvent
  /-- The model's own: how many free values have been drawn (notes/assumptions/5.md). -/
  draws : Nat
  deriving DecidableEq, Repr

/-- Why the block itself stops. No state that a run reaches raises one (notes/assumptions/6.md). -/
inductive Fault where
  /-- Raised by CODES, DECODE and the composites when a walk reaches a handle at or above `n_nodes`: that slot holds
  nothing and its contents are not architectural (10_state.md R23, 93_implementation_defined.md U1). Safe. -/
  | unusedNode (h : Handle)
  /-- Raised by CODES and COMPRESS when a walk goes deeper than `MAXLEN` levels, so that the codeword has no place in the
  256 bits of an entry; no tree of BUILD is that deep (41_tree_builder.md R146). Safe. -/
  | codewordTooLong
  deriving DecidableEq, Repr

/-- What the model gives no meaning. -/
inductive Refusal where
  /-- Raised by `exec` for a command that has no meaning yet. Safe. -/
  | notModelled (mnemonic : String)
  /-- Raised by a step in which the host attaches an input while a command executes (70_reset_and_hazards.md R264,
  93_implementation_defined.md U3). Safe. -/
  | inputAttachedWhileBusy
  /-- Raised by a step in which the host attaches an output while a command executes (20_memory.md R69: "only then").
  Safe. -/
  | outputAttachedWhileBusy
  /-- Raised by a step in which the host reads `OUT` or the debug view while a command executes
  (70_reset_and_hazards.md R266, 93_implementation_defined.md U7). Safe. -/
  | readWhileBusy
  deriving DecidableEq, Repr

/-- How the body of a command ends: with a result code, before `STATUS.err` is written (00_scope.md R14), or with a
fault of the model. -/
inductive Stage where
  | done (s : State) (r : ResultCode)
  | stop (f : Fault)
  deriving DecidableEq, Repr

/-- The state right after reset, with nothing attached (10_state.md R38, 20_memory.md R69). -/
def State.reset : State where
  ft := []
  nodes := []
  root := Config.nil
  codes := []
  input := []
  inPos := 0
  inBit := 0#3
  out := []
  outAcc := 0#8
  outN := 0#3
  issued := none
  err := .ok
  host := []
  draws := 0

end Sys2Proof.Machine
end

