-- ==== Sys2Proof/Machine/Ops.lean ====
section
/-!
DEFINITION. The named operations over tables, streams and registers: the stream primitives of 20_memory.md, `Release()`,
and the completion of a command with its result code (60_exceptions.md R241), which is all the block does on an error.
-/

namespace Sys2Proof.Machine

/-! ### Tables: index and entry pairs, indexes strictly rising -/

/-- The entry at an index, `none` where the table lists none. -/
def Table.get {α : Type} : List (Nat × α) → Nat → Option α
  | [], _ => none
  | (k, v) :: t, s => if s = k then some v else Table.get t s

/-- The table with an entry written; the indexes stay strictly rising. -/
def Table.set {α : Type} : List (Nat × α) → Nat → α → List (Nat × α)
  | [], s, v => [(s, v)]
  | (k, w) :: t, s, v =>
    if s < k then (s, v) :: (k, w) :: t
    else if s = k then (s, v) :: t
    else (k, w) :: Table.set t s v

/-- The table with an entry taken out. -/
def Table.erase {α : Type} (t : List (Nat × α)) (s : Nat) : List (Nat × α) := t.filter fun e => e.1 != s

/-- The canonical form of a table: indexes strictly rising, each a symbol proper. -/
def Table.wf {α : Type} : List (Nat × α) → Bool
  | [] => true
  | [(k, _)] => k < Config.nsym
  | (k, _) :: (k', v') :: t => k < k' && Table.wf ((k', v') :: t)

/-- `ft_present[s]` (10_state.md R26). -/
def ftPresent (s : State) (sym : Nat) : Bool := (Table.get s.ft sym).isSome

/-- `ft_count[s]`: 0 where there is no entry (10_state.md R26). -/
def ftCount (s : State) (sym : Nat) : Count := (Table.get s.ft sym).getD 0#32

/-- `ft_present[s] <- 1; ft_count[s] <- c`. -/
def ftStore (s : State) (sym : Nat) (c : Count) : State := { s with ft := Table.set s.ft sym c }

/-- The entries of the frequency table for the symbols 0 to 256, ascending. -/
def ftEntries (ft : List (Nat × Count)) : List (Nat × Count) :=
  (List.range Config.nsym).filterMap fun s => (Table.get ft s).map fun c => (s, c)

/-- The codeword of a symbol; empty where `code_len` is 0 (10_state.md R30). -/
def codeword (s : State) (sym : Nat) : List Bool := (Table.get s.codes sym).getD []

/-- `code_len[s]` (10_state.md R30). -/
def codeLen (s : State) (sym : Nat) : Nat := (codeword s sym).length

/-- A bit string as a bit field: element `i` is bit `i` (30_encoding.md R112). -/
def bitField (w : Nat) (bits : List Bool) : BitVec w := BitVec.ofNat w (bits.foldr (fun b n => 2 * n + b.toNat) 0)

/-- `code_bits[s]`, 256 bits; those at index `code_len[s]` and above are 0 (10_state.md R30). -/
def codeBits (s : State) (sym : Nat) : BitVec 256 := bitField 256 (codeword s sym)

/-- The code table with the codeword of a symbol written: a codeword of length 0 is "no codeword" (10_state.md R30). -/
def codeStore (codes : List (Nat × List Bool)) (sym : Nat) (bits : List Bool) : List (Nat × List Bool) :=
  if bits.isEmpty then Table.erase codes sym else Table.set codes sym bits

/-- `n_nodes` (10_state.md R23). -/
def nNodes (s : State) : Nat := s.nodes.length

/-- The canonical form of the machine's indexed memories. -/
def Memory.wf (s : State) : Bool :=
  Table.wf s.ft && Table.wf s.codes && s.codes.all (fun e => !e.2.isEmpty && e.2.length ≤ Config.maxLen)
    && s.nodes.length ≤ Config.nodeSlots

/-! ### The input stream (20_memory.md section 2) -/

/-- `InByte()` (20_memory.md R61): the next unit, `none` when the input is exhausted. -/
def inByte (s : State) : Option Byte × State :=
  match s.input[s.inPos]? with
  | none => (none, s)
  | some b => (some b, { s with inPos := s.inPos + 1 })

/-- The cursor after one more bit of the byte under it (20_memory.md R62). -/
def advanceBit (s : State) : State :=
  if s.inBit.toNat + 1 = 8 then { s with inPos := s.inPos + 1, inBit := 0#3 }
  else { s with inBit := BitVec.ofNat 3 (s.inBit.toNat + 1) }

/-- `InBit()` (20_memory.md R62): the next bit, most significant first, `none` when the input is exhausted. -/
def inBitOp (s : State) : Option Bool × State :=
  match s.input[s.inPos]? with
  | none => (none, s)
  | some b => (some (b.getLsbD (7 - s.inBit.toNat)), advanceBit s)

/-- `InAlign()` (20_memory.md R68). -/
def inAlign (s : State) : State :=
  if s.inBit = 0#3 then s else { s with inPos := s.inPos + 1, inBit := 0#3 }

/-- `in_pos <- 0; in_bit <- 0` (20_memory.md R60). -/
def rewindCursor (s : State) : State := { s with inPos := 0, inBit := 0#3 }

/-- How many bytes `InByte()` has still to return. -/
def bytesLeft (s : State) : Nat := s.input.length - s.inPos

/-- How many bits `InBit()` has still to return. -/
def bitsLeft (s : State) : Nat := 8 * (s.input.length - s.inPos) - s.inBit.toNat

/-! ### The output stream (20_memory.md section 3) -/

/-- `OutFlush()` (20_memory.md R67). -/
def outFlush (s : State) : State :=
  if s.outN = 0#3 then s else { s with out := s.out ++ [s.outAcc], outAcc := 0#8, outN := 0#3 }

/-- `OutByte(b)` (20_memory.md R64): flushes first should bits be pending. -/
def outByte (s : State) (b : Byte) : State :=
  let s := outFlush s
  { s with out := s.out ++ [b] }

/-- `OutByte` for each byte of a sequence, in order. -/
def outBytes (s : State) (bs : List Byte) : State := bs.foldl outByte s

/-- `v[i] <- b` in a byte. -/
def writeBit (v : Byte) (i : Nat) (b : Bool) : Byte :=
  if b then v ||| (1#8 <<< i) else v &&& ~~~(1#8 <<< i)

/-- `OutBit(b)` (20_memory.md R65). -/
def outBit (s : State) (b : Bool) : State :=
  let acc := writeBit s.outAcc (7 - s.outN.toNat) b
  if s.outN.toNat + 1 = 8 then { s with out := s.out ++ [acc], outAcc := 0#8, outN := 0#3 }
  else { s with outAcc := acc, outN := BitVec.ofNat 3 (s.outN.toNat + 1) }

/-- `OutBit` for each bit of a string, first bit first. -/
def outBits (s : State) (bits : List Bool) : State := bits.foldl outBit s

/-! ### Release, and the end of a command -/

/-- `Release()` (45_composite_and_control.md R218): the three tables cleared, nothing else touched. -/
def release (s : State) : State := { s with ft := [], nodes := [], root := Config.nil, codes := [] }

/-- The end of a command with its result (60_exceptions.md R230, R241): `STATUS.err` is written, `STATUS.busy` falls.
This is all that happens on an error too: "nothing is saved and control goes nowhere". -/
def complete (s : State) (r : ResultCode) : State := { s with err := r, issued := none }

/-- The outcome of a command from the end of its body. -/
def finish : Stage → Host.Outcome State Fault Refusal
  | .done s r => .next (complete s r)
  | .stop f => .fault f

/-- The end of a body that only ends with a result. -/
def Stage.ofResult (x : State × ResultCode) : Stage := .done x.1 x.2

/-- The next stage of a composite runs when the one before it raised nothing (45_composite_and_control.md R210, R213). -/
def Stage.andThen (x : Stage) (next : State → Stage) : Stage :=
  match x with
  | .done s r => if r = .ok then next s else .done s r
  | .stop f => .stop f

/-- The last stage of a composite: `Release()` on every path (45_composite_and_control.md R210, R213). -/
def Stage.releasing (x : Stage) : Stage :=
  match x with
  | .done s r => .done (release s) r
  | .stop f => .stop f

/-! ### Reset -/

/-- Reset (70_reset_and_hazards.md R260): every piece of state at its value of 10_state.md R38; the attached input stays
attached and is rewound, `OUT` stays as it is. -/
def resetBlock (s : State) : State :=
  { State.reset with input := s.input, out := s.out, host := s.host, draws := s.draws }

end Sys2Proof.Machine
end

