-- ==== Sys2Proof/Machine/Codec.lean ====
section
/-!
DEFINITION. The bit stream codec: ENCODE and DECODE (44_bitstream_codec.md).
-/

namespace Sys2Proof.Machine

/-- `Emit(s)` (44_bitstream_codec.md R190): the symbol's codeword, bit 0 first; `none` where it has none (R192). -/
def emit (s : State) (sym : Nat) : Option State :=
  if codeLen s sym = 0 then none else some (outBits s (codeword s sym))

/-- What ENCODE does for a symbol without a codeword (44_bitstream_codec.md R192). -/
def encodeUnknown (s : State) : State × ResultCode := (outFlush s, .unknownSymbol)

/-- The end of the payload: the sentinel's codeword, then the padding (44_bitstream_codec.md R190, R191). -/
def encodeEnd (s : State) : State × ResultCode :=
  match emit s Config.sentinel with
  | none => encodeUnknown s
  | some s => (outFlush s, .ok)

/-- ENCODE's loop (44_bitstream_codec.md R190); the first argument is how many bytes are left. -/
def encodeLoop : Nat → State → State × ResultCode
  | 0, s => encodeEnd s
  | n + 1, s =>
    match inByte s with
    | (none, s) => encodeEnd s
    | (some b, s) =>
      match emit s b.toNat with
      | none => encodeUnknown s
      | some s => encodeLoop n s

/-- The body of ENCODE (44_bitstream_codec.md R190): it starts again at the beginning of the input. -/
def encodeBody (s : State) : Stage := .ofResult (encodeLoop s.input.length (rewindCursor s))

/-- ENCODE (44_bitstream_codec.md R190). -/
def execEncode (s : State) : Host.Outcome State Fault Refusal := finish (encodeBody s)

/-- `InAlign(); raise CorruptStream` (44_bitstream_codec.md R196). -/
def decodeCorrupt (s : State) : Stage := .done (inAlign s) .corruptStream

/-- DECODE's loop (44_bitstream_codec.md R194); the first argument is how many bits are left, `cur` the walk's position. -/
def decodeLoop : Nat → Handle → State → Stage
  | 0, _, s => decodeCorrupt s
  | n + 1, cur, s =>
    match inBitOp s with
    | (none, s) => decodeCorrupt s
    | (some bit, s) =>
      match s.nodes[cur.toNat]? with
      | none => .stop (.unusedNode cur)
      | some node =>
        let nxt := if bit then node.c1 else node.c0
        if nxt = Config.nil then decodeCorrupt s
        else
          match s.nodes[nxt.toNat]? with
          | none => .stop (.unusedNode nxt)
          | some child =>
            if child.leaf then
              if child.sym.toNat = Config.sentinel then .done (inAlign s) .ok
              else decodeLoop n s.root (outByte s (child.sym.setWidth 8))
            else decodeLoop n nxt s

/-- The body of DECODE (44_bitstream_codec.md R194, R202). -/
def decodeBody (s : State) : Stage :=
  if s.root = Config.nil then .done s .noTree else decodeLoop (bitsLeft s) s.root s

/-- DECODE (44_bitstream_codec.md R194). -/
def execDecode (s : State) : Host.Outcome State Fault Refusal := finish (decodeBody s)

end Sys2Proof.Machine
end

