-- ==== Sys2Proof/Machine/Codes.lean ====
section
/-!
DEFINITION. The code table deriver: CODES (42_code_deriver.md).
-/

namespace Sys2Proof.Machine

/-- `Walk(h, path)` (42_code_deriver.md R160), writing codewords into `codes`; the first argument is how many levels are
left below 257 (45_composite_and_control.md R219 (d)). -/
def walk (nodes : List Node) : Nat → Handle → List Bool → List (Nat × List Bool) → Except Fault (List (Nat × List Bool))
  | 0, h, _, codes => if h = Config.nil then .ok codes else .error .codewordTooLong
  | k + 1, h, path, codes =>
    if h = Config.nil then .ok codes
    else
      match nodes[h.toNat]? with
      | none => .error (.unusedNode h)
      | some n =>
        if n.leaf then .ok (codeStore codes n.sym.toNat path)
        else
          match walk nodes k n.c0 (path ++ [false]) codes with
          | .error f => .error f
          | .ok codes => walk nodes k n.c1 (path ++ [true]) codes

/-- The code table of a tree (42_code_deriver.md R160, R161). -/
def deriveCodes (nodes : List Node) (root : Handle) : Except Fault (List (Nat × List Bool)) :=
  walk nodes (Config.maxLen + 1) root [] []

/-- The body of CODES (42_code_deriver.md R160); without a tree the code table is left cleared (R164). -/
def codesBody (s : State) : Stage :=
  let s := { s with codes := [] }
  if s.root = Config.nil then .done s .noTree
  else
    match deriveCodes s.nodes s.root with
    | .error f => .stop f
    | .ok codes => .done { s with codes := codes } .ok

/-- CODES (42_code_deriver.md R160). -/
def execCodes (s : State) : Host.Outcome State Fault Refusal := finish (codesBody s)

end Sys2Proof.Machine
end

