-- ==== Sys2Proof/Machine/Frequency.lean ====
section
/-!
DEFINITION. The symbol-frequency accumulator: FREQ (40_frequency_accumulator.md).
-/

namespace Sys2Proof.Machine

/-- The sentinel's entry, written once when the input is exhausted (40_frequency_accumulator.md R132). -/
def sentinelEntry (s : State) : State := ftStore s Config.sentinel 1#32

/-- FREQ's loop (40_frequency_accumulator.md R130); the first argument is how many bytes are left, so at 0 `InByte` would
answer that the input is exhausted. The count is checked before it is raised (R131, R133). -/
def freqLoop : Nat → State → State × ResultCode
  | 0, s => (sentinelEntry s, .ok)
  | n + 1, s =>
    match inByte s with
    | (none, s) => (sentinelEntry s, .ok)
    | (some b, s) =>
      if (ftCount s b.toNat).toNat = Config.cmax then (release s, .countOverflow)
      else freqLoop n (ftStore s b.toNat (ftCount s b.toNat + 1#32))

/-- The body of FREQ (40_frequency_accumulator.md R130). -/
def freqBody (s : State) : Stage := .ofResult (freqLoop (bytesLeft s) (release s))

/-- FREQ (40_frequency_accumulator.md R130). -/
def execFreq (s : State) : Host.Outcome State Fault Refusal := finish (freqBody s)

end Sys2Proof.Machine
end

