-- ==== Sys2Proof/Machine/Operands.lean ====
section
/-!
DEFINITION. Operand forms. Commands have none (30_encoding.md R93); the numbers HUFFCORE assembles are the decimal
integers of the header (R96, R97), and the records it shows are those of R110 to R112.
-/

namespace Sys2Proof.Machine

/-! ### The header's characters (30_encoding.md R96) -/

/-- The opening brace. -/
def chOpen : Byte := 0x7B#8
/-- The closing brace. -/
def chClose : Byte := 0x7D#8
/-- The comma. -/
def chComma : Byte := 0x2C#8
/-- The colon. -/
def chColon : Byte := 0x3A#8

/-- Digit `d` is `0x30 + d`. -/
def digitByte (d : Nat) : Byte := BitVec.ofNat 8 (0x30 + d)

/-- `digit(b)` and its value `d` (43_header_serializer_parser.md R175). -/
def digitOf (b : Byte) : Option Nat :=
  if 0x30 ≤ b.toNat ∧ b.toNat ≤ 0x39 then some (b.toNat - 0x30) else none

/-- `Dec` with a bound on the number of divisions. -/
def decFuel : Nat → Nat → List Byte
  | 0, v => [digitByte v]
  | f + 1, v => if v < 10 then [digitByte v] else decFuel f (v / 10) ++ [digitByte (v % 10)]

/-- `Dec(v)`, the shortest decimal numeral (43_header_serializer_parser.md R171); dividing `v` times is enough. -/
def dec (v : Nat) : List Byte := decFuel v v

/-- `v <- 10*v + d`, on natural numbers (30_encoding.md R97, 43_header_serializer_parser.md R176). -/
def pushDigit (v d : Nat) : Nat := 10 * v + d

/-! ### Records -/

/-- A leaf record (30_encoding.md R110). -/
def leafNode (sym : Nat) (c : Count) : Node where
  leaf := true
  sym := BitVec.ofNat 9 sym
  freq := c.setWidth 41
  c0 := Config.nil
  c1 := Config.nil

/-- An internal record (30_encoding.md R110). -/
def internalNode (freq : Nat) (a b : Handle) : Node where
  leaf := false
  sym := BitVec.ofNat 9 Config.noSymbol
  freq := BitVec.ofNat 41 freq
  c0 := a
  c1 := b

/-- The handle of a slot. -/
def handleOf (n : Nat) : Handle := BitVec.ofNat 10 n

/-- A node as its 71 bits (30_encoding.md R110). -/
def Node.pack (n : Node) : BitVec 71 := BitVec.ofBool n.leaf ++ n.sym ++ n.freq ++ n.c0 ++ n.c1

/-- The node of 71 bits (30_encoding.md R110). -/
def Node.unpack (w : BitVec 71) : Node where
  leaf := w.getLsbD 70
  sym := w.extractLsb' 61 9
  freq := w.extractLsb' 20 41
  c0 := w.extractLsb' 10 10
  c1 := w.extractLsb' 0 10

/-- A frequency-table entry as its 33 bits (30_encoding.md R111). -/
def packCount (e : Option Count) : BitVec 33 := BitVec.ofBool e.isSome ++ e.getD 0#32

end Sys2Proof.Machine
end

