-- ==== Sys2Proof/Machine/Header.lean ====
section
/-!
DEFINITION. The frequency-table serializer and parser: SERIAL and PARSE (43_header_serializer_parser.md).
-/

namespace Sys2Proof.Machine

/-- One entry of the header: `Dec(s)`, a colon, `Dec(ft_count[s])` (43_header_serializer_parser.md R170). -/
def entryText (e : Nat × Count) : List Byte := dec e.1 ++ chColon :: dec e.2.toNat

/-- The entries, a comma before each but the first (43_header_serializer_parser.md R170). -/
def entriesText : List (Nat × Count) → List Byte
  | [] => []
  | [e] => entryText e
  | e :: e' :: es => entryText e ++ chComma :: entriesText (e' :: es)

/-- The header of a table: entries in ascending symbol order between braces (43_header_serializer_parser.md R170, R172). -/
def headerText (ft : List (Nat × Count)) : List Byte := chOpen :: entriesText (ftEntries ft) ++ [chClose]

/-- The body of SERIAL (43_header_serializer_parser.md R170). -/
def serialBody (s : State) : Stage := .done (outBytes s (headerText s.ft)) .ok

/-- SERIAL (43_header_serializer_parser.md R170). -/
def execSerial (s : State) : Host.Outcome State Fault Refusal := finish (serialBody s)

/-- The parser's states with the temporaries each carries (43_header_serializer_parser.md R175): `v` the integer being
assembled, `sym` the entry's symbol. -/
inductive ParseState where
  | opening
  | first
  | sym (v : Nat)
  | count0 (sym : Nat)
  | count (sym v : Nat)
  | next
  | done
  deriving DecidableEq, Repr

/-- `Commit(s, v)` (43_header_serializer_parser.md R177): `none` is `Fail()`, the symbol is named twice. -/
def commit (ft : List (Nat × Count)) (sym v : Nat) : Option (List (Nat × Count)) :=
  if (Table.get ft sym).isSome then none else some (Table.set ft sym (BitVec.ofNat 32 v))

/-- A digit's move: the state with the digit taken in, if the value stays within its bound
(43_header_serializer_parser.md R176). -/
def takeDigit (bound v d : Nat) (nextState : Nat → ParseState) (ft : List (Nat × Count)) :
    Option (ParseState × List (Nat × Count)) :=
  if pushDigit v d ≤ bound then some (nextState (pushDigit v d), ft) else none

/-- `Step(b)` (43_header_serializer_parser.md R175): `none` is `Fail()`. -/
def parseStep (st : ParseState) (b : Byte) (ft : List (Nat × Count)) : Option (ParseState × List (Nat × Count)) :=
  match st with
  | .opening => if b = chOpen then some (.first, ft) else none
  | .first =>
    if b = chClose then some (.done, ft)
    else match digitOf b with
      | some d => some (.sym d, ft)
      | none => none
  | .sym v =>
    match digitOf b with
    | some d => takeDigit Config.sentinel v d .sym ft
    | none => if b = chColon then some (.count0 v, ft) else none
  | .count0 sym =>
    match digitOf b with
    | some d => some (.count sym d, ft)
    | none => none
  | .count sym v =>
    match digitOf b with
    | some d => takeDigit Config.cmax v d (.count sym) ft
    | none =>
      if b = chComma then (commit ft sym v).map fun ft => (.next, ft)
      else if b = chClose then (commit ft sym v).map fun ft => (.done, ft)
      else none
  | .next =>
    match digitOf b with
    | some d => some (.sym d, ft)
    | none => none
  | .done => none

/-- `Fail()` (43_header_serializer_parser.md R174, R179). -/
def parseFail (s : State) : State × ResultCode := (release s, .malformedHeader)

/-- PARSE's loop (43_header_serializer_parser.md R174); the first argument is how many bytes are left, so at 0 the input
ended inside the header. -/
def parseLoop : Nat → ParseState → State → State × ResultCode
  | 0, _, s => parseFail s
  | n + 1, st, s =>
    match inByte s with
    | (none, s) => parseFail s
    | (some b, s) =>
      match parseStep st b s.ft with
      | none => parseFail s
      | some (st', ft) =>
        if st' = .done then ({ s with ft := ft }, .ok) else parseLoop n st' { s with ft := ft }

/-- The body of PARSE (43_header_serializer_parser.md R174). -/
def parseBody (s : State) : Stage := .ofResult (parseLoop (bytesLeft s) .opening (release s))

/-- PARSE (43_header_serializer_parser.md R174). -/
def execParse (s : State) : Host.Outcome State Fault Refusal := finish (parseBody s)

end Sys2Proof.Machine
end

