-- ==== Sys2Proof/Machine/Tree.lean ====
section
/-!
DEFINITION. The Huffman tree builder: BUILD (41_tree_builder.md).
-/

namespace Sys2Proof.Machine

/-- The leaves, one per entry in ascending symbol order, in slots 0, 1, ... (41_tree_builder.md R141). -/
def leaves (entries : List (Nat × Count)) : List Node := entries.map fun e => leafNode e.1 e.2

/-- The pairs `(node[h].freq, h)` of the leaves: the priority collection before the first merge (R141, R142). -/
def leafQueue (entries : List (Nat × Count)) : List (Nat × Nat) := entries.mapIdx fun h e => (e.2.toNat, h)

/-- The lexicographic order of 00_scope.md R13 on `(freq, handle)` pairs. -/
def keyLt (a b : Nat × Nat) : Bool := a.1 < b.1 || (a.1 == b.1 && a.2 < b.2)

/-- The least pair of a collection and a candidate. -/
def leastKey (m : Nat × Nat) (q : List (Nat × Nat)) : Nat × Nat := q.foldl (fun m e => if keyLt e m then e else m) m

/-- `ExtractMin()`: the least pair, and the collection without it (41_tree_builder.md R142). -/
def extractMin : List (Nat × Nat) → Option ((Nat × Nat) × List (Nat × Nat))
  | [] => none
  | e :: q => let m := leastKey e q; some (m, (e :: q).erase m)

/-- The merge loop (41_tree_builder.md R143): `while |pq| > 1`, with `|pq|` as its measure. -/
def mergeLoop : Nat → List Node → List (Nat × Nat) → List Node
  | 0, nodes, _ => nodes
  | k + 1, nodes, pq =>
    match extractMin pq with
    | none => nodes
    | some (a, pq') =>
      match extractMin pq' with
      | none => nodes
      | some (b, pq'') =>
        mergeLoop k (nodes ++ [internalNode (a.1 + b.1) (handleOf a.2) (handleOf b.2)])
          ((a.1 + b.1, nodes.length) :: pq'')

/-- The tree of a table's entries: the nodes and the root's handle, which is the last node's (41_tree_builder.md R144);
the degenerate tree for one entry (R145); none for no entry (R147). -/
def buildTree (entries : List (Nat × Count)) : Option (List Node × Handle) :=
  match entries with
  | [] => none
  | [e] => some ([leafNode e.1 e.2, internalNode e.2.toNat (handleOf 0) Config.nil], handleOf 1)
  | e :: e' :: es =>
    let nodes := mergeLoop (e :: e' :: es).length (leaves (e :: e' :: es)) (leafQueue (e :: e' :: es))
    some (nodes, handleOf (nodes.length - 1))

/-- The body of BUILD (41_tree_builder.md R140): the old tree and code table are gone on every path. -/
def buildBody (s : State) : Stage :=
  let s := { s with nodes := [], root := Config.nil, codes := [] }
  match buildTree (ftEntries s.ft) with
  | none => .done s .emptyAlphabet
  | some (nodes, root) => .done { s with nodes := nodes, root := root } .ok

/-- BUILD (41_tree_builder.md R140). -/
def execBuild (s : State) : Host.Outcome State Fault Refusal := finish (buildBody s)

end Sys2Proof.Machine
end

