-- ==== Sys2Proof/Machine/Composite.lean ====
section
/-!
DEFINITION. The composite and housekeeping commands: COMPRESS, DECOMPRESS, REWIND, RELEASE (45_composite_and_control.md),
and the reserved opcodes (30_encoding.md R92).
-/

namespace Sys2Proof.Machine

/-- The body of REWIND (45_composite_and_control.md R216). -/
def rewindBody (s : State) : Stage := .done (rewindCursor s) .ok

/-- REWIND (45_composite_and_control.md R216). -/
def execRewind (s : State) : Host.Outcome State Fault Refusal := finish (rewindBody s)

/-- The body of RELEASE (45_composite_and_control.md R217). -/
def releaseBody (s : State) : Stage := .done (release s) .ok

/-- RELEASE (45_composite_and_control.md R217). -/
def execRelease (s : State) : Host.Outcome State Fault Refusal := finish (releaseBody s)

/-- The stages of COMPRESS before its `Release()` (45_composite_and_control.md R210). -/
def compressStages (s : State) : Stage :=
  (((((rewindBody s).andThen freqBody).andThen buildBody).andThen codesBody).andThen serialBody).andThen encodeBody

/-- COMPRESS (45_composite_and_control.md R210): `STATUS.err` is written once, at the end. -/
def execCompress (s : State) : Host.Outcome State Fault Refusal := finish (compressStages s).releasing

/-- The stages of DECOMPRESS before its `Release()` (45_composite_and_control.md R213). -/
def decompressStages (s : State) : Stage := ((parseBody s).andThen buildBody).andThen decodeBody

/-- DECOMPRESS (45_composite_and_control.md R213). -/
def execDecompress (s : State) : Host.Outcome State Fault Refusal := finish (decompressStages s).releasing

/-- What a reserved opcode does: `IllegalCommand`, and nothing else (30_encoding.md R92, 60_exceptions.md R237). -/
def illegalBody (s : State) : Stage := .done s .illegalCommand

/-- Reserved opcode 0x0 (30_encoding.md R92). -/
def execReserved0 (s : State) : Host.Outcome State Fault Refusal := finish (illegalBody s)

/-- Reserved opcode 0xC (30_encoding.md R92). -/
def execReservedC (s : State) : Host.Outcome State Fault Refusal := finish (illegalBody s)

/-- Reserved opcode 0xD (30_encoding.md R92). -/
def execReservedD (s : State) : Host.Outcome State Fault Refusal := finish (illegalBody s)

/-- Reserved opcode 0xE (30_encoding.md R92). -/
def execReservedE (s : State) : Host.Outcome State Fault Refusal := finish (illegalBody s)

/-- Reserved opcode 0xF (30_encoding.md R92). -/
def execReservedF (s : State) : Host.Outcome State Fault Refusal := finish (illegalBody s)

end Sys2Proof.Machine
end

