-- ==== Sys2Proof/Machine/Flags.lean ====
section
/-!
DEFINITION. The flag-like state (10_state.md R34): `STATUS` and its fields (R33), and what the host reads (R37).
-/

namespace Sys2Proof.Machine

/-- The code of a result (60_exceptions.md R230). -/
def ResultCode.code : ResultCode → BitVec 3
  | .ok => 0#3
  | .emptyAlphabet => 1#3
  | .malformedHeader => 2#3
  | .corruptStream => 3#3
  | .countOverflow => 4#3
  | .unknownSymbol => 5#3
  | .noTree => 6#3
  | .illegalCommand => 7#3

/-- `STATUS.busy`: 1 while a command is executing (10_state.md R33). -/
def busy (s : State) : Bool := s.issued.isSome

/-- `STATUS.eof`: 1 exactly when `in_pos = IN_LEN` (10_state.md R33). DESIGN CHOICE (notes/assumptions/17.md): while a
command executes, the cursor is the one at its issue, since a command is one step; which cursor the host sees in the middle
of a command the rules leave open. -/
def eof (s : State) : Bool := s.inPos == s.input.length

/-- `STATUS`, 5 bits: `eof` in bit 4, `err` in bits 3:1, `busy` in bit 0 (10_state.md R33); `eof` while busy is
the model's choice (notes/assumptions/17.md). -/
def statusWord (s : State) : BitVec 5 := BitVec.ofBool (eof s) ++ s.err.code ++ BitVec.ofBool (busy s)

/-- What the debug view shows (10_state.md R37), in the layouts of 30_encoding.md R110 to R112. -/
structure DebugView where
  ftEntry : List (BitVec 33)
  node : List (BitVec 71)
  nNodes : Nat
  root : Handle
  codeEntry : List (BitVec 265)
  inPos : Nat
  inBit : BitVec 3
  outAcc : Byte
  outN : BitVec 3
  deriving DecidableEq, Repr

/-- A code-table entry as its 265 bits: `code_len` in bits 264:256, `code_bits` below (30_encoding.md R112). -/
def packCode (bits : List Bool) : BitVec 265 := BitVec.ofNat 9 bits.length ++ bitField 256 bits

/-- What a read of `OUT` gives; defined only while `busy = 0` (70_reset_and_hazards.md R266). -/
def readOut (s : State) : Option (List Byte) := if busy s then none else some s.out

/-- What a read of the debug view gives; defined only while `busy = 0` (10_state.md R37, 70_reset_and_hazards.md R266). -/
def readDebug (s : State) : Option DebugView :=
  if busy s then none
  else some
    { ftEntry := (List.range Config.nsym).map fun sym => packCount (Table.get s.ft sym)
      node := s.nodes.map Node.pack
      nNodes := nNodes s
      root := s.root
      codeEntry := (List.range Config.nsym).map fun sym => packCode (codeword s sym)
      inPos := s.inPos
      inBit := s.inBit
      outAcc := s.outAcc
      outN := s.outN }

end Sys2Proof.Machine
end

