-- ==== Sys2Proof/Machine/HostActions.lean ====
section
/-!
DEFINITION. What the host does to the block (20_memory.md R69, 10_state.md R32 and R37, 70_reset_and_hazards.md R260 to
R266), and running the command that was issued.
-/

namespace Sys2Proof.Machine

/-- ATTACH_IN(bytes) (20_memory.md R69 (a)). -/
def attachIn (s : State) (bytes : List Byte) : State := { s with input := bytes, inPos := 0, inBit := 0#3 }

/-- ATTACH_OUT (20_memory.md R69 (b)). -/
def attachOut (s : State) : State := { s with out := [] }

/-- A write of an opcode to `CMD` while idle: the opcode is sampled and `STATUS.busy` rises (10_state.md R32,
20_memory.md R79). -/
def issue (s : State) (op : Opcode) : State := { s with issued := some op }

/-- The command of the sampled opcode, executed to completion: one atomic transition (00_scope.md R15). -/
def runIssued (op : Opcode) (s : State) : Host.Outcome State Fault Refusal := exec (decodeWord op) s

/-- `OUT` at the moment a command is abandoned: what it was at issue, then the first of the bytes the command appends.
How many is the free value (70_reset_and_hazards.md R260, notes/assumptions/5.md). -/
def outWhenAbandoned (s done : State) : List Byte :=
  s.out ++ (done.out.drop s.out.length).take (Config.abandonedBytes s.draws)

/-- Reset in the middle of a command (70_reset_and_hazards.md R260): the command is abandoned, bits in `out_acc` are
dropped, bytes already appended stay. -/
def abandonCommand (op : Opcode) (s : State) : Host.Outcome State Fault Refusal :=
  match runIssued op s with
  | .next t => .next (resetBlock { s with out := outWhenAbandoned s t, draws := s.draws + 1 })
  | .fault f => .fault f
  | .refused r => .refused r

/-- What the host's action does while the block is idle. -/
def hostWhenIdle (e : HostEvent) (s : State) : State :=
  match e with
  | .attachIn bytes => attachIn s bytes
  | .attachOut => attachOut s
  | .writeCmd op => issue s op
  | .waitIdle => s
  | .readStatus => s
  | .readOut => s
  | .readDebug => s
  | .reset => resetBlock s

/-- What the host's action does while the command `op` executes: a write to `CMD` is ignored (70_reset_and_hazards.md
R265); attaching a stream (20_memory.md R69, 70_reset_and_hazards.md R264) and reading `OUT` or the debug view
(70_reset_and_hazards.md R266) have no meaning; waiting for `busy = 0` lets the command run. A read of `STATUS` shows `busy` 1, the result of the
command before, and `eof` of the cursor at issue (DESIGN CHOICE, notes/assumptions/17.md). -/
def hostWhileBusy (e : HostEvent) (op : Opcode) (s : State) : Host.Outcome State Fault Refusal :=
  match e with
  | .attachIn _ => .refused .inputAttachedWhileBusy
  | .attachOut => .refused .outputAttachedWhileBusy
  | .writeCmd _ => .next s
  | .waitIdle => runIssued op s
  | .readStatus => .next s
  | .readOut => .refused .readWhileBusy
  | .readDebug => .refused .readWhileBusy
  | .reset => abandonCommand op s

/-- A step of the busy block: the command runs to completion, unless the host acts before it has. -/
def busyStep (op : Opcode) (s : State) : Host.Outcome State Fault Refusal :=
  match s.host with
  | [] => runIssued op s
  | e :: rest => hostWhileBusy e op (if e = .waitIdle then s else { s with host := rest })

/-- A step of the idle block: the host's next action; with none, the block "waits for a write to `CMD`"
(70_reset_and_hazards.md R261). -/
def idleStep (s : State) : State :=
  match s.host with
  | [] => s
  | e :: rest => hostWhenIdle e { s with host := rest }

/-- The block with a command issued that the host waits for: the next step runs it. -/
def issueAndWait (s : State) (op : Opcode) : State := { s with issued := some op, host := .waitIdle :: s.host }

end Sys2Proof.Machine
end

