-- ==== Sys2Proof/Machine/Step.lean ====
section
/-!
DEFINITION. One step of the machine, and placing the next command.
-/

namespace Sys2Proof.Machine

/-- One step: the command that was issued, or the host's next action (00_scope.md R15, 10_state.md R21). -/
def step (s : State) : Host.Outcome State Fault Refusal :=
  match s.issued with
  | some op => busyStep op s
  | none => .next (idleStep s)

/-- The state with a command word accepted by `CMD`, so that the next step runs it. `CMD` has 4 bits. -/
def State.withFetchWord (s : State) (_nbits w : Nat) : State := issueAndWait s (BitVec.ofNat 4 w)

end Sys2Proof.Machine
end

