-- ==== Sys2Proof/Machine/Program.lean ====
section
/-!
DEFINITION. The program notation of 30_encoding.md R115 (with R11 for byte sequences): a line is a mnemonic, a host
action, or nothing, and `;` starts a comment. A program is what the host does, so it assembles to host events.
-/

namespace Sys2Proof.Machine

/-- One line of a program (30_encoding.md R115). -/
inductive ProgramLine where
  | command (i : Instr)
  | attachIn (bytes : List Byte)
  | attachOut
  | blank
  deriving DecidableEq, Repr

/-- The upper-case mnemonics of 30_encoding.md R91 and the source's lower-case synonyms of R115. -/
def mnemonics : List (List Char × Instr) :=
  [("FREQ".toList, .freq), ("BUILD".toList, .build), ("CODES".toList, .codes), ("SERIAL".toList, .serial),
    ("PARSE".toList, .parse), ("ENCODE".toList, .encode), ("DECODE".toList, .decode), ("COMPRESS".toList, .compress),
    ("DECOMPRESS".toList, .decompress), ("REWIND".toList, .rewind), ("RELEASE".toList, .release)] ++
  [("build_frequency_table".toList, .freq), ("build_tree".toList, .build), ("derive_codes".toList, .codes),
    ("serialize".toList, .serial), ("parse".toList, .parse), ("encode".toList, .encode), ("decode".toList, .decode),
    ("compress".toList, .compress), ("decompress".toList, .decompress)]

/-- The double quote. -/
def quoteChar : Char := Char.ofNat 34

/-- A line without its comment; a `;` inside a quoted text starts none. The flag says whether a quote is open. -/
def stripComment : Bool → List Char → List Char
  | _, [] => []
  | quoted, c :: cs =>
    if c = ';' && !quoted then [] else c :: stripComment (if c = quoteChar then !quoted else quoted) cs

/-- Text without the blanks at its ends. -/
def trimBlanks (cs : List Char) : List Char := ((cs.dropWhile (· = ' ')).reverse.dropWhile (· = ' ')).reverse

/-- A hexadecimal digit. -/
def hexDigit (c : Char) : Option Nat :=
  if 48 ≤ c.toNat ∧ c.toNat ≤ 57 then some (c.toNat - 48)
  else if 65 ≤ c.toNat ∧ c.toNat ≤ 70 then some (c.toNat - 55)
  else if 97 ≤ c.toNat ∧ c.toNat ≤ 102 then some (c.toNat - 87)
  else none

/-- A byte sequence (00_scope.md R11): hexadecimal bytes separated by spaces, or printable ASCII text in double quotes.
DESIGN CHOICE (notes/assumptions/15.md): bytes with no space between them are read too, two digits each (`7B36` as
`7B 36`), and bytes and quoted texts may be mixed; R11 is silent on both. The flag says whether a quote is open. -/
def parseBytes : Bool → List Char → Option (List Byte)
  | false, [] => some []
  | true, [] => none
  | true, c :: cs =>
    if c = quoteChar then parseBytes false cs
    else if 32 ≤ c.toNat ∧ c.toNat ≤ 126 then (parseBytes true cs).map fun bs => BitVec.ofNat 8 c.toNat :: bs
    else none
  | false, [c] => if c = ' ' then some [] else none
  | false, c :: d :: cs =>
    if c = ' ' then parseBytes false (d :: cs)
    else if c = quoteChar then parseBytes true (d :: cs)
    else
      match hexDigit c, hexDigit d with
      | some h, some l => (parseBytes false cs).map fun bs => BitVec.ofNat 8 (16 * h + l) :: bs
      | _, _ => none

/-- One line (30_encoding.md R115); `none` where it is none of the forms. -/
def parseLine (line : List Char) : Option ProgramLine :=
  let text := trimBlanks (stripComment false line)
  if text = [] then some .blank
  else if text = "ATTACH_OUT".toList then some .attachOut
  else if text.take 9 = "ATTACH_IN".toList ∧ text.length ≤ 9 then some (.attachIn [])
  else if text.take 10 = "ATTACH_IN ".toList then (parseBytes false (text.drop 10)).map .attachIn
  else (mnemonics.lookup text).map .command

/-- What the host does for a line: it issues a command and waits until `busy` reads 0 (70_reset_and_hazards.md R265). -/
def ProgramLine.events : ProgramLine → List HostEvent
  | .command i => [.writeCmd (encode i), .waitIdle]
  | .attachIn bytes => [.attachIn bytes]
  | .attachOut => [.attachOut]
  | .blank => []

/-- The commands of a program, in order (30_encoding.md R115). -/
def programCommands (p : List ProgramLine) : List Instr :=
  p.filterMap fun l =>
    match l with
    | .command i => some i
    | .attachIn _ => none
    | .attachOut => none
    | .blank => none

/-- A program read from its lines. -/
def parseProgram (lines : List (List Char)) : Option (List ProgramLine) := lines.mapM parseLine

/-- What the host does for a program. -/
def programEvents (p : List ProgramLine) : List HostEvent := p.flatMap ProgramLine.events

/-- The block before a program: reset state, with the program as what the host does next. -/
def State.load (p : List ProgramLine) : State := { State.reset with host := programEvents p }

end Sys2Proof.Machine
end

