-- ==== Sys2Proof/Safety.lean ====
section
/-!
DEFINITION. What counts as a safe state and a safe run, and the vocabulary claims are stated in: the wire format, the
header's grammar, paths in a tree, the greedy merge. None of it is used by the machine.
-/

namespace Sys2Proof.Machine

/-! ### The safe state -/

/-- What holds of every state a run reaches, between steps: the cursor and the accumulator as 10_state.md R24 and R25 say
they are between commands, the tables in canonical form, and no stale tree or code table (R36). -/
structure State.Inv (s : State) : Prop where
  cursor : s.inPos ≤ s.input.length
  aligned : s.inBit = 0#3
  accumulator : s.outAcc = 0#8
  flushed : s.outN = 0#3
  table : Table.wf s.ft = true
  tree : (s.root = Config.nil ∧ s.nodes = []) ∨ buildTree (ftEntries s.ft) = some (s.nodes, s.root)
  code : s.codes = [] ∨ (s.root ≠ Config.nil ∧ deriveCodes s.nodes s.root = .ok s.codes)

/-- A safe run of `k` steps meets no fault of the block; a refusal is the host's doing (93_implementation_defined.md U3,
U7). -/
def safeRun : Nat → State → Prop
  | 0, _ => True
  | k + 1, s =>
    match step s with
    | .next t => safeRun k t
    | .fault _ => False
    | .refused _ => True

/-! ### Running commands one after another -/

/-- The state after a list of commands issued one at a time, if each completes with `OK`. -/
def runClean : List Instr → State → Option State
  | [], s => some s
  | i :: is, s =>
    match exec i s with
    | .next t => if t.err = .ok then runClean is t else none
    | .fault _ => none
    | .refused _ => none

/-! ### Streams of bits -/

/-- The bits of a byte in stream order, bit 7 first (20_memory.md R66). -/
def byteBits (b : Byte) : List Bool := (List.range 8).map fun k => b.getLsbD (7 - k)

/-- The bits of a byte sequence in stream order. -/
def streamBits (bs : List Byte) : List Bool := bs.flatMap byteBits

/-- The bytes the input has still to give. -/
def unread (s : State) : List Byte := s.input.drop s.inPos

/-- The bits the input has still to give. -/
def unreadBits (s : State) : List Bool := (streamBits (unread s)).drop s.inBit.toNat

/-- `X` is the bit string `P` packed and padded (30_encoding.md R99, R100): bit `k` of `P` in byte `k div 8` at position
`7 - (k mod 8)`, the unused low bits of the last byte 0, `ceil(|P| / 8)` bytes. -/
def Packs (P : List Bool) (X : List Byte) : Prop :=
  X.length = (P.length + 7) / 8 ∧
    ∀ k < 8 * X.length, (X.getD (k / 8) 0#8).getLsbD (7 - k % 8) = P.getD k false

/-! ### The header -/

/-- `Dec(v)` from the positional digits of `v` (43_header_serializer_parser.md R171). -/
def decimal (v : Nat) : List Byte :=
  if v = 0 then [0x30#8] else ((Nat.digits 10 v).reverse).map fun d => BitVec.ofNat 8 (0x30 + d)

/-- The canonical header of a table (30_encoding.md R98): entries in ascending order of symbol. -/
def canonicalHeader (ft : List (Nat × Count)) : List Byte :=
  [0x7B#8] ++
    List.intercalate [0x2C#8]
      (((List.range 257).filter fun sym => (Table.get ft sym).isSome).map fun sym =>
        decimal sym ++ [0x3A#8] ++ decimal ((Table.get ft sym).getD 0#32).toNat) ++
    [0x7D#8]

/-- The value of a digit string, most significant digit first (30_encoding.md R97). -/
def numeralValue (ds : List Nat) : Nat := ds.foldl (fun v d => 10 * v + d) 0

/-- The bytes of a digit string. -/
def numeralText (ds : List Nat) : List Byte := ds.map fun d => BitVec.ofNat 8 (0x30 + d)

/-- The text of a header whose entries are spelled by the given digit strings, symbol and count (30_encoding.md R95). -/
def headerSpelling (es : List (List Nat × List Nat)) : List Byte :=
  [0x7B#8] ++ List.intercalate [0x2C#8] (es.map fun e => numeralText e.1 ++ [0x3A#8] ++ numeralText e.2) ++ [0x7D#8]

/-- One or more decimal digits (30_encoding.md R95). -/
def isNumeral (ds : List Nat) : Prop := ds ≠ [] ∧ ∀ d ∈ ds, d < 10

/-- What PARSE accepts (30_encoding.md R98): numerals, symbols at most 256 and all distinct, counts at most `CMAX`. -/
def headerAccepted (es : List (List Nat × List Nat)) : Prop :=
  (∀ e ∈ es, isNumeral e.1 ∧ isNumeral e.2 ∧ numeralValue e.1 ≤ 256 ∧ numeralValue e.2 ≤ 4294967295) ∧
    (es.map fun e => numeralValue e.1).Nodup

/-- The bytes begin a header and do not end it: they are a proper beginning of a spelled header whose last entry, the one
still open, is not compared with the others, since a repeated symbol shows only at the byte after its count
(43_header_serializer_parser.md R175, R177). -/
def headerBegun (text : List Byte) : Prop :=
  ∃ es e tail, headerAccepted es ∧ headerAccepted [e] ∧ tail ≠ [] ∧ text ++ tail = headerSpelling (es ++ [e])

/-- The table has exactly the entries of the header, each with the header's count
(43_header_serializer_parser.md R178). -/
def tableOfHeader (es : List (List Nat × List Nat)) (ft : List (Nat × Count)) : Prop :=
  Table.wf ft = true ∧
    ∀ sym c, Table.get ft sym = some c ↔
      ∃ e ∈ es, numeralValue e.1 = sym ∧ BitVec.ofNat 32 (numeralValue e.2) = c

/-! ### Counting -/

/-- The table FREQ makes of a byte sequence (40_frequency_accumulator.md R131, R132): an entry for each byte value that
occurs, with its true number of occurrences, and the sentinel's with count 1. -/
def tableOfBytes (bs : List Byte) (ft : List (Nat × Count)) : Prop :=
  Table.wf ft = true ∧ Table.get ft 256 = some 1#32 ∧
    ∀ b : Byte, Table.get ft b.toNat = if bs.count b = 0 then none else some (BitVec.ofNat 32 (bs.count b))

/-- No byte value occurs more than `CMAX` times. -/
def countsFit (bs : List Byte) : Prop := ∀ b : Byte, bs.count b ≤ 4294967295

/-! ### Paths in a tree -/

/-- The handle reached from `h` by taking the 0-branch or the 1-branch for each bit; `none` where a leaf, an empty branch
or an unused slot is in the way (42_code_deriver.md R161). -/
def follow (nodes : List Node) : Handle → List Bool → Option Handle
  | h, [] => some h
  | h, b :: bs =>
    match nodes[h.toNat]? with
    | none => none
    | some n =>
      if n.leaf then none
      else if (if b then n.c1 else n.c0) = Config.nil then none
      else follow nodes (if b then n.c1 else n.c0) bs

/-- The bits lead from the root to the leaf of a symbol. -/
def leafPath (s : State) (bits : List Bool) (sym : Nat) : Prop :=
  ∃ h n, follow s.nodes s.root bits = some h ∧ s.nodes[h.toNat]? = some n ∧ n.leaf = true ∧ n.sym.toNat = sym

/-- The bits lead from the root to an internal node. -/
def internalPath (s : State) (bits : List Bool) : Prop :=
  ∃ h n, follow s.nodes s.root bits = some h ∧ s.nodes[h.toNat]? = some n ∧ n.leaf = false

/-! ### The greedy merge -/

/-- The key `(node[h].freq, h)` of a slot (41_tree_builder.md R142). -/
def nodeKey (nodes : List Node) (h : Nat) : Nat × Nat := (((nodes[h]?).map fun n => n.freq.toNat).getD 0, h)

/-- Lowest frequency first, then lowest handle (41_tree_builder.md R142, 00_scope.md R13). -/
def keyBefore (a b : Nat × Nat) : Prop := a.1 < b.1 ∨ (a.1 = b.1 ∧ a.2 < b.2)

/-- Slot `x` is in the priority collection when slot `h` is about to be made: it is made, and no internal node made so
far has taken it (41_tree_builder.md R143). -/
def inCollection (nodes : List Node) (h x : Nat) : Prop :=
  x < h ∧ ∀ g n, g < h → nodes[g]? = some n → n.leaf = false → n.c0.toNat ≠ x ∧ n.c1.toNat ≠ x

/-- Slot `h` is the merge of the two least of the collection, the 0-branch the first of them
(41_tree_builder.md R143). -/
def mergesTwoLeast (nodes : List Node) (h : Nat) : Prop :=
  ∃ n, nodes[h]? = some n ∧ n.leaf = false ∧ n.sym = 257#9 ∧
    inCollection nodes h n.c0.toNat ∧ inCollection nodes h n.c1.toNat ∧ n.c0 ≠ n.c1 ∧
    (∀ x, inCollection nodes h x → x ≠ n.c0.toNat → keyBefore (nodeKey nodes n.c0.toNat) (nodeKey nodes x)) ∧
    (∀ x, inCollection nodes h x → x ≠ n.c0.toNat → x ≠ n.c1.toNat →
      keyBefore (nodeKey nodes n.c1.toNat) (nodeKey nodes x)) ∧
    n.freq.toNat = (nodeKey nodes n.c0.toNat).1 + (nodeKey nodes n.c1.toNat).1

/-! ### Errors -/

/-- The results a command may complete with (60_exceptions.md R230). -/
def mayEndWith (i : Instr) (r : ResultCode) : Bool :=
  match i with
  | .freq => r == .ok || r == .countOverflow
  | .build => r == .ok || r == .emptyAlphabet
  | .codes => r == .ok || r == .noTree
  | .serial => r == .ok
  | .parse => r == .ok || r == .malformedHeader
  | .encode => r == .ok || r == .unknownSymbol
  | .decode => r == .ok || r == .corruptStream || r == .noTree
  | .compress => r == .ok || r == .countOverflow
  | .decompress => r == .ok || r == .emptyAlphabet || r == .malformedHeader || r == .corruptStream
  | .rewind => r == .ok
  | .release => r == .ok
  | .reserved0 => r == .illegalCommand
  | .reservedC => r == .illegalCommand
  | .reservedD => r == .illegalCommand
  | .reservedE => r == .illegalCommand
  | .reservedF => r == .illegalCommand

end Sys2Proof.Machine
end

