-- ==== Sys2Proof/Certificates/Slice0/Obligations.lean ====
section
/-!
DEFINITION. The statements for the provers. Titles, rules and quotes stand in OBLIGATIONS.json under the same names.
-/

open Sys2Proof Sys2Proof.Machine

/-! ### Encoding -/

/-- 30_encoding.md R91 and R92: the opcode map, all sixteen words. -/
def Obligations.OpcodeMapDecodes : Prop :=
  decodeWord 0x1#4 = .freq ∧ decodeWord 0x2#4 = .build ∧ decodeWord 0x3#4 = .codes ∧ decodeWord 0x4#4 = .serial ∧
  decodeWord 0x5#4 = .parse ∧ decodeWord 0x6#4 = .encode ∧ decodeWord 0x7#4 = .decode ∧ decodeWord 0x8#4 = .compress ∧
  decodeWord 0x9#4 = .decompress ∧ decodeWord 0xA#4 = .rewind ∧ decodeWord 0xB#4 = .release ∧
  decodeWord 0x0#4 = .reserved0 ∧ decodeWord 0xC#4 = .reservedC ∧ decodeWord 0xD#4 = .reservedD ∧
  decodeWord 0xE#4 = .reservedE ∧ decodeWord 0xF#4 = .reservedF

/-- 30_encoding.md R90, R92, R115: a word is re-encoded as it was, a command decodes from its word and from the byte that
carries it. That a byte with an upper bit set is refused is the model's choice (notes/assumptions/9.md). -/
def Obligations.DecodeEncodeAgree : Prop :=
  (∀ w : Opcode, encode (decodeWord w) = w) ∧
  (∀ (i : Instr) (rest : List Byte), i.wf = true → decode (encodeByte i :: rest) = .ok (i, rest)) ∧
  (∀ (b : Byte) (rest : List Byte), 16 ≤ b.toNat → decode (b :: rest) = .error (.upperBitsSet b))

/-- 30_encoding.md R110: the node record's layout, and that no bit of it is lost. -/
def Obligations.NodeRecordLayout : Prop :=
  (∀ n : Node, Node.unpack (Node.pack n) = n) ∧ (∀ w : BitVec 71, Node.pack (Node.unpack w) = w) ∧
  ∀ n : Node, (Node.pack n).getLsbD 70 = n.leaf ∧ (Node.pack n).extractLsb' 61 9 = n.sym ∧
    (Node.pack n).extractLsb' 20 41 = n.freq ∧ (Node.pack n).extractLsb' 10 10 = n.c0 ∧
    (Node.pack n).extractLsb' 0 10 = n.c1

/-- 10_state.md R30, 30_encoding.md R112: the 256-bit view of a codeword. -/
def Obligations.CodeEntryLayout : Prop :=
  ∀ (s : State) (sym : Nat), codeLen s sym ≤ 256 →
    (∀ i, (codeBits s sym).getLsbD i = (codeword s sym).getD i false) ∧
    (packCode (codeword s sym)).extractLsb' 256 9 = BitVec.ofNat 9 (codeLen s sym) ∧
    (packCode (codeword s sym)).extractLsb' 0 256 = codeBits s sym

/-- 10_state.md R33: the fields of `STATUS`. That `eof` stands at its value at issue while a command executes is the model's
choice (notes/assumptions/17.md). -/
def Obligations.StatusWordFields : Prop :=
  ∀ s : State,
    ((statusWord s).getLsbD 0 = s.issued.isSome) ∧ ((statusWord s).extractLsb' 1 3 = s.err.code) ∧
    ((statusWord s).getLsbD 4 = decide (s.inPos = s.input.length)) ∧
    ResultCode.code .ok = 0#3 ∧ ResultCode.code .emptyAlphabet = 1#3 ∧ ResultCode.code .malformedHeader = 2#3 ∧
    ResultCode.code .corruptStream = 3#3 ∧ ResultCode.code .countOverflow = 4#3 ∧ ResultCode.code .unknownSymbol = 5#3 ∧
    ResultCode.code .noTree = 6#3 ∧ ResultCode.code .illegalCommand = 7#3

/-! ### The step, the host, reset -/

/-- 00_scope.md R15, 10_state.md R21: the step of a busy block runs the command of the sampled opcode, when the host waits
or does nothing more. The host's list is the model's choice (notes/assumptions/2.md). -/
def Obligations.StepRunsIssuedCommand : Prop :=
  ∀ (s : State) (op : Opcode), s.issued = some op → (s.host = [] ∨ s.host.head? = some .waitIdle) →
    step s = exec (decodeWord op) s

/-- 10_state.md R32, 70_reset_and_hazards.md R265: a write to `CMD` issues the command when idle and is ignored when
busy. -/
def Obligations.CommandWriteIssuesOrIsIgnored : Prop :=
  ∀ (s : State) (op : Opcode) (rest : List HostEvent), s.host = .writeCmd op :: rest →
    (s.issued = none → step s = .next { s with issued := some op, host := rest }) ∧
    (s.issued ≠ none → step s = .next { s with host := rest })

/-- 20_memory.md R69: attaching streams while idle. Refusing them while busy is the model's reading of
70_reset_and_hazards.md R264 (notes/assumptions/7.md). -/
def Obligations.AttachOnlyWhileIdle : Prop :=
  ∀ (s : State) (bytes : List Byte) (rest : List HostEvent),
    (s.issued = none → s.host = .attachIn bytes :: rest →
      step s = .next { s with input := bytes, inPos := 0, inBit := 0#3, host := rest }) ∧
    (s.issued = none → s.host = .attachOut :: rest → step s = .next { s with out := [], host := rest }) ∧
    (s.issued ≠ none → s.host = .attachIn bytes :: rest → step s = .refused .inputAttachedWhileBusy) ∧
    (s.issued ≠ none → s.host = .attachOut :: rest → step s = .refused .outputAttachedWhileBusy)

/-- 10_state.md R38: the value of every piece of state after reset, whatever the state before; and after power-on. -/
def Obligations.ResetValues : Prop :=
  (∀ s t : State, t = resetBlock s ∨ t = State.reset →
    (∀ sym, ftPresent t sym = false ∧ ftCount t sym = 0#32 ∧ codeLen t sym = 0 ∧ codeBits t sym = 0#256) ∧
    nNodes t = 0 ∧ t.root = 1023#10 ∧ t.inPos = 0 ∧ t.inBit = 0#3 ∧ t.outAcc = 0#8 ∧ t.outN = 0#3 ∧ busy t = false ∧
    t.err = .ok ∧ (eof t = true ↔ t.input = [])) ∧
  (∀ s : State, (resetBlock s).input = s.input ∧ (resetBlock s).out = s.out) ∧
  State.reset.input = [] ∧ State.reset.out = []

/-- 70_reset_and_hazards.md R260: the host resets an idle block. The host's list is the model's choice
(notes/assumptions/2.md). -/
def Obligations.ResetWhileIdle : Prop :=
  ∀ (s : State) (rest : List HostEvent), s.issued = none → s.host = .reset :: rest →
    step s = .next { State.reset with input := s.input, out := s.out, host := rest, draws := s.draws }

/-- 70_reset_and_hazards.md R260: a reset while a command executes abandons it. `OUT` keeps what it had and then holds
some of the bytes the command would have appended, first ones first, however many (notes/assumptions/5.md). -/
def Obligations.ResetAbandonsCommand : Prop :=
  ∀ (s t : State) (op : Opcode) (rest : List HostEvent), s.issued = some op → s.host = .reset :: rest →
    exec (decodeWord op) { s with host := rest } = .next t →
    ∃ X, X <+: t.out.drop s.out.length ∧
      step s = .next { State.reset with input := s.input, out := s.out ++ X, host := rest, draws := s.draws + 1 }

/-! ### FREQ -/

/-- 40_frequency_accumulator.md R131, R132, R134: FREQ counts the bytes from the cursor to the end. -/
def Obligations.FreqCountsUnreadBytes : Prop :=
  ∀ s : State, s.inPos ≤ s.input.length → countsFit (unread s) →
    ∃ ft, tableOfBytes (unread s) ft ∧ 1 ≤ ft.length ∧ ft.length ≤ 257 ∧
      exec .freq s = .next { s with ft := ft, nodes := [], root := 1023#10, codes := [], inPos := s.input.length,
                                    err := .ok, issued := none }

/-- 40_frequency_accumulator.md R133: the occurrence numbered `CMAX + 1` of one byte value. -/
def Obligations.FreqCountOverflow : Prop :=
  ∀ s : State, (∃ b : Byte, 4294967295 < (unread s).count b) →
    ∃ (k : Nat) (b : Byte), (unread s)[k]? = some b ∧ ((unread s).take k).count b = 4294967295 ∧
      countsFit ((unread s).take k) ∧
      exec .freq s = .next { s with ft := [], nodes := [], root := 1023#10, codes := [], inPos := s.inPos + k + 1,
                                    err := .countOverflow, issued := none }

/-- 40_frequency_accumulator.md R135: the table depends only on the multiset of bytes read. -/
def Obligations.FreqDependsOnMultiset : Prop :=
  ∀ s s' t t' : State, (unread s).Perm (unread s') → exec .freq s = .next t → exec .freq s' = .next t' →
    t.ft = t'.ft ∧ t.err = t'.err

/-! ### BUILD -/

/-- 41_tree_builder.md R147: `EmptyAlphabet`, and where it is reached: after RELEASE or reset, and by PARSE of the header
of no entry, also inside DECOMPRESS. -/
def Obligations.BuildEmptyAlphabet : Prop :=
  (∀ s : State, (∀ sym < 257, ftPresent s sym = false) →
    exec .build s = .next { s with nodes := [], root := 1023#10, codes := [], err := .emptyAlphabet, issued := none }) ∧
  (∀ s t : State, t = resetBlock s ∨ exec .release s = .next t → ∃ u, exec .build t = .next u ∧ u.err = .emptyAlphabet) ∧
  (∀ (s : State) (rest : List Byte), unread s = [0x7B#8, 0x7D#8] ++ rest →
    ∃ t u v, exec .parse s = .next t ∧ t.err = .ok ∧ exec .build t = .next u ∧ u.err = .emptyAlphabet ∧
      exec .decompress s = .next v ∧ v.err = .emptyAlphabet)

/-- 41_tree_builder.md R145: the degenerate tree of a single entry, the codeword CODES gives its symbol, and what DECODE
says of a 1 at its root. -/
def Obligations.BuildDegenerateTree : Prop :=
  ∀ (s : State) (sym : Nat) (c : Count), sym < 257 → Table.get s.ft sym = some c →
    (∀ sym' < 257, sym' ≠ sym → ftPresent s sym' = false) →
    ∃ t, exec .build s = .next t ∧
      t = { s with
            nodes := [⟨true, BitVec.ofNat 9 sym, c.setWidth 41, 1023#10, 1023#10⟩,
                      ⟨false, 257#9, c.setWidth 41, 0#10, 1023#10⟩],
            root := 1#10, codes := [], err := .ok, issued := none } ∧
      exec .codes t = .next { t with codes := [(sym, [false])] } ∧
      (∀ (b : Byte) (rest : List Byte), b.getLsbD 7 = true → unread s = b :: rest → s.inBit = 0#3 →
        exec .decode t = .next { t with inPos := s.inPos + 1, err := .corruptStream })

/-- 41_tree_builder.md R141, R142, R143, R144: for two entries or more, leaves in ascending symbol order, then merges of
the two least, the last of them the root. -/
def Obligations.BuildMergesGreedily : Prop :=
  ∀ s : State, 2 ≤ (ftEntries s.ft).length →
    ∃ nodes, exec .build s = .next { s with nodes := nodes, root := BitVec.ofNat 10 (2 * (ftEntries s.ft).length - 2),
                                            codes := [], err := .ok, issued := none } ∧
      nodes.length = 2 * (ftEntries s.ft).length - 1 ∧
      (∀ (h sym : Nat) (c : Count), (ftEntries s.ft)[h]? = some (sym, c) →
        nodes[h]? = some ⟨true, BitVec.ofNat 9 sym, c.setWidth 41, 1023#10, 1023#10⟩) ∧
      ∀ h, (ftEntries s.ft).length ≤ h → h < 2 * (ftEntries s.ft).length - 1 → mergesTwoLeast nodes h

/-- 41_tree_builder.md R148: the tree is a function of the frequency table alone. -/
def Obligations.BuildDependsOnTableAlone : Prop :=
  ∀ s s' t t' : State, (∀ sym < 257, Table.get s.ft sym = Table.get s'.ft sym) → exec .build s = .next t →
    exec .build s' = .next t' → t.nodes = t'.nodes ∧ t.root = t'.root ∧ t.codes = t'.codes ∧ t.err = t'.err

/-- 10_state.md R22, R29: what holds of every tree. -/
def Obligations.TreeStructure : Prop :=
  ∀ s : State, s.Inv → s.root ≠ 1023#10 →
    s.root.toNat + 1 = s.nodes.length ∧ s.nodes.length ≤ 513 ∧
    (∀ (h : Nat) (n : Node), s.nodes[h]? = some n → (n.leaf = true ↔ h < (ftEntries s.ft).length)) ∧
    (∀ (h : Nat) (n : Node), s.nodes[h]? = some n → n.leaf = false →
      n.c0.toNat < h ∧ n.c0 ≠ n.c1 ∧ (n.c1 = 1023#10 ∨ n.c1.toNat < h) ∧
      (n.c1 = 1023#10 ↔ (ftEntries s.ft).length = 1)) ∧
    (∀ x, x < s.root.toNat → ∃ (g : Nat) (n : Node), s.nodes[g]? = some n ∧ n.leaf = false ∧
      (n.c0.toNat = x ∨ n.c1.toNat = x) ∧
      ∀ (g' : Nat) (n' : Node), s.nodes[g']? = some n' → n'.leaf = false → (n'.c0.toNat = x ∨ n'.c1.toNat = x) →
        g' = g) ∧
    (nodeKey s.nodes s.root.toNat).1 = ((ftEntries s.ft).map fun e => e.2.toNat).sum

/-! ### CODES -/

/-- 42_code_deriver.md R161: the codeword of a symbol is the path from the root to its leaf. -/
def Obligations.CodesRecordsPaths : Prop :=
  ∀ s : State, s.Inv → s.root ≠ 1023#10 →
    ∃ cs, exec .codes s = .next { s with codes := cs, err := .ok, issued := none } ∧ Table.wf cs = true ∧
      ∀ (sym : Nat) (bits : List Bool), Table.get cs sym = some bits ↔ leafPath s bits sym

/-- 42_code_deriver.md R164: CODES without a tree. -/
def Obligations.CodesNoTree : Prop :=
  ∀ s : State, s.root = 1023#10 → exec .codes s = .next { s with codes := [], err := .noTree, issued := none }

/-- 10_state.md R31, 42_code_deriver.md R163: every entry has one codeword, of 1 to 256 bits, and none is a prefix of
another. -/
def Obligations.CodewordsArePrefixFree : Prop :=
  ∀ s : State, s.Inv → s.codes ≠ [] →
    (∀ sym < 257, ftPresent s sym = true ↔ 1 ≤ codeLen s sym) ∧ (∀ sym, codeLen s sym ≤ 256) ∧
    ∀ sym sym', sym ≠ sym' → 1 ≤ codeLen s sym → 1 ≤ codeLen s sym' → ¬ codeword s sym <+: codeword s sym'

/-! ### SERIAL and PARSE -/

/-- 43_header_serializer_parser.md R170, R171: SERIAL appends the canonical header; bits pending in `out_acc`, which a run
never has here, would be flushed first (20_memory.md R64). -/
def Obligations.SerialAppendsHeader : Prop :=
  ∀ s : State,
    (s.outN = 0#3 → exec .serial s = .next { s with out := s.out ++ canonicalHeader s.ft, err := .ok, issued := none }) ∧
    (s.outN ≠ 0#3 → exec .serial s = .next { s with out := s.out ++ [s.outAcc] ++ canonicalHeader s.ft, outAcc := 0#8,
                                                    outN := 0#3, err := .ok, issued := none })

/-- 43_header_serializer_parser.md R172: the header's length. -/
def Obligations.SerialHeaderLength : Prop :=
  ∀ s t : State, s.outN = 0#3 → exec .serial s = .next t →
    s.out.length + 2 ≤ t.out.length ∧ t.out.length ≤ s.out.length + 3856 ∧
    (s.ft = [] → t.out = s.out ++ [0x7B#8, 0x7D#8])

/-- 30_encoding.md R95, R97, R98, 43_header_serializer_parser.md R178: PARSE accepts every header of the grammar, leaves
exactly its entries, and stops just after the closing brace. -/
def Obligations.ParseAcceptsHeader : Prop :=
  ∀ (s : State) (es : List (List Nat × List Nat)) (rest : List Byte), headerAccepted es →
    unread s = headerSpelling es ++ rest →
    ∃ ft, tableOfHeader es ft ∧
      exec .parse s = .next { s with ft := ft, nodes := [], root := 1023#10, codes := [],
                                     inPos := s.inPos + (headerSpelling es).length, err := .ok, issued := none }

/-- 43_header_serializer_parser.md R175: the machine accepts exactly the grammar of 30_encoding.md R95 with the bounds and
the distinctness. -/
def Obligations.ParseAcceptsExactlyTheGrammar : Prop :=
  ∀ s : State, (∃ t, exec .parse s = .next t ∧ t.err = .ok) ↔
    ∃ es rest, headerAccepted es ∧ unread s = headerSpelling es ++ rest

/-- 43_header_serializer_parser.md R179: where no header stands at the cursor, PARSE ends in `MalformedHeader` with
everything cleared and the cursor just past the first byte that no header can have there, or at the end of the input. -/
def Obligations.ParseMalformedHeader : Prop :=
  ∀ s : State, (¬ ∃ es rest, headerAccepted es ∧ unread s = headerSpelling es ++ rest) →
    ∃ k, k ≤ (unread s).length ∧ (∀ j < k, headerBegun ((unread s).take j)) ∧
      (k = (unread s).length ∨ ¬ headerBegun ((unread s).take k)) ∧
      exec .parse s = .next { s with ft := [], nodes := [], root := 1023#10, codes := [], inPos := s.inPos + k,
                                     err := .malformedHeader, issued := none }

/-- 43_header_serializer_parser.md R180: `parse(serialize(t)) == t`, whatever follows the header. -/
def Obligations.ParseOfSerialIsIdentity : Prop :=
  ∀ (s t : State) (rest : List Byte), Table.wf s.ft = true → s.outN = 0#3 → exec .serial s = .next t →
    exec .parse (attachIn t (t.out.drop s.out.length ++ rest)) =
      .next { attachIn t (t.out.drop s.out.length ++ rest) with
              ft := s.ft, nodes := [], root := 1023#10, codes := [], inPos := t.out.length - s.out.length,
              err := .ok, issued := none }

/-! ### ENCODE and DECODE -/

/-- 20_memory.md R62, R65, R66, R67: bits go out and come in most significant first. -/
def Obligations.BitOrderMostSignificantFirst : Prop :=
  (∀ (s : State) (P : List Bool), s.outN = 0#3 → s.outAcc = 0#8 →
    ∃ X, Packs P X ∧ outFlush (outBits s P) = { s with out := s.out ++ X }) ∧
  (∀ s : State, s.inPos ≤ s.input.length → (s.inBit ≠ 0#3 → s.inPos < s.input.length) →
    (inBitOp s).1 = (unreadBits s).head? ∧ unreadBits (inBitOp s).2 = (unreadBits s).tail)

/-- 44_bitstream_codec.md R193: what ENCODE appends when every needed codeword is present. -/
def Obligations.EncodeAppendsPayload : Prop :=
  ∀ s : State, s.outN = 0#3 → s.outAcc = 0#8 → (∀ b ∈ s.input, codeLen s b.toNat ≠ 0) → codeLen s 256 ≠ 0 →
    ∃ X, Packs (s.input.flatMap (fun b => codeword s b.toNat) ++ codeword s 256) X ∧
      exec .encode s = .next { s with inPos := s.input.length, inBit := 0#3, out := s.out ++ X, err := .ok,
                                      issued := none }

/-- 44_bitstream_codec.md R192: ENCODE at the first byte without a codeword, or at the sentinel. -/
def Obligations.EncodeUnknownSymbol : Prop :=
  ∀ s : State, s.outN = 0#3 → s.outAcc = 0#8 →
    (∀ (k : Nat) (b : Byte), s.input[k]? = some b → codeLen s b.toNat = 0 →
      (∀ b' ∈ s.input.take k, codeLen s b'.toNat ≠ 0) →
      ∃ X, Packs ((s.input.take k).flatMap fun b => codeword s b.toNat) X ∧
        exec .encode s = .next { s with inPos := k + 1, inBit := 0#3, out := s.out ++ X, err := .unknownSymbol,
                                        issued := none }) ∧
    ((∀ b ∈ s.input, codeLen s b.toNat ≠ 0) → codeLen s 256 = 0 →
      ∃ X, Packs (s.input.flatMap fun b => codeword s b.toNat) X ∧
        exec .encode s = .next { s with inPos := s.input.length, inBit := 0#3, out := s.out ++ X, err := .unknownSymbol,
                                        issued := none })

/-- 44_bitstream_codec.md R194, R195, R197: bits that are codewords and then the sentinel's decode to the bytes, and the
cursor goes to the next byte boundary, whatever the bits after the sentinel's are. -/
def Obligations.DecodeFollowsCodewords : Prop :=
  ∀ (s : State) (ws : List (List Bool × Byte)) (w rest : List Bool), s.Inv → s.root ≠ 1023#10 →
    (∀ e ∈ ws, leafPath s e.1 e.2.toNat) → leafPath s w 256 →
    unreadBits s = ws.flatMap (fun e => e.1) ++ w ++ rest →
    exec .decode s = .next { s with inPos := s.inPos + ((ws.flatMap (fun e => e.1) ++ w).length + 7) / 8,
                                    out := s.out ++ ws.map (fun e => e.2), err := .ok, issued := none }

/-- 44_bitstream_codec.md R196, R198: DECODE ends either with OK at a sentinel's codeword, as `DecodeFollowsCodewords`
says, or in `CorruptStream`, and then for one of the two causes: the bits ran out with the walk at an internal node, or a 1
was read at the degenerate root. -/
def Obligations.DecodeCorruptStream : Prop :=
  ∀ s : State, s.Inv → s.root ≠ 1023#10 →
    ∃ t, exec .decode s = .next t ∧
      ((∃ (ws : List (List Bool × Byte)) (w rest : List Bool), (∀ e ∈ ws, leafPath s e.1 e.2.toNat) ∧ leafPath s w 256 ∧
          unreadBits s = ws.flatMap (fun e => e.1) ++ w ++ rest ∧
          t = { s with inPos := s.inPos + ((ws.flatMap (fun e => e.1) ++ w).length + 7) / 8,
                       out := s.out ++ ws.map (fun e => e.2), err := .ok, issued := none }) ∨
        (∃ (ws : List (List Bool × Byte)) (tail : List Bool), (∀ e ∈ ws, leafPath s e.1 e.2.toNat) ∧
          ((unreadBits s = ws.flatMap (fun e => e.1) ++ tail ∧ internalPath s tail ∧
              t = { s with inPos := s.input.length, out := s.out ++ ws.map (fun e => e.2), err := .corruptStream,
                           issued := none }) ∨
           (unreadBits s = ws.flatMap (fun e => e.1) ++ true :: tail ∧ s.nodes.length = 2 ∧
              t = { s with inPos := s.inPos + ((ws.flatMap (fun e => e.1)).length + 8) / 8,
                           out := s.out ++ ws.map (fun e => e.2), err := .corruptStream, issued := none }))))

/-- 44_bitstream_codec.md R202: DECODE without a tree. -/
def Obligations.DecodeNoTree : Prop :=
  ∀ s : State, s.root = 1023#10 → exec .decode s = .next { s with err := .noTree, issued := none }

/-- 44_bitstream_codec.md R199: without a sentinel entry DECODE cannot succeed. -/
def Obligations.DecodeWithoutSentinelFails : Prop :=
  ∀ s : State, s.Inv → s.root ≠ 1023#10 → ftPresent s 256 = false →
    ∃ t, exec .decode s = .next t ∧ t.err = .corruptStream

/-- 44_bitstream_codec.md R200: a truncated payload is detected, and what was emitted is a prefix of the input. -/
def Obligations.TruncatedPayloadIsDetected : Prop :=
  ∀ (s t : State) (X : List Byte) (k : Nat), s.Inv → s.codes ≠ [] → exec .encode s = .next t → t.err = .ok →
    t.out = s.out ++ X → k < X.length →
    ∃ v n, exec .decode (attachIn t (X.take k)) = .next v ∧ v.err = .corruptStream ∧ v.out = t.out ++ s.input.take n

/-- 44_bitstream_codec.md R201: the round trip of ENCODE and DECODE. -/
def Obligations.DecodeOfEncodeIsIdentity : Prop :=
  ∀ (s t : State) (X Z : List Byte), s.Inv → s.codes ≠ [] → exec .encode s = .next t → t.err = .ok →
    t.out = s.out ++ X →
    exec .decode (attachIn t (X ++ Z)) =
      .next { attachIn t (X ++ Z) with inPos := X.length, out := t.out ++ s.input, err := .ok, issued := none }

/-! ### COMPRESS, DECOMPRESS, REWIND, RELEASE, the reserved opcodes -/

/-- 30_encoding.md R116, 45_composite_and_control.md R210, R213: the composites equal their primitive sequences when no
stage fails; a failing stage ends the composite after a RELEASE. -/
def Obligations.CompositesEqualPrimitives : Prop :=
  ∀ (i : Instr) (stages : List Instr),
    (i = .compress ∧ stages = [.rewind, .freq, .build, .codes, .serial, .encode, .release]) ∨
      (i = .decompress ∧ stages = [.parse, .build, .decode, .release]) →
    (∀ s t : State, runClean stages s = some t → exec i s = .next t) ∧
    (∀ (done left : List Instr) (j : Instr) (s t u : State), stages = done ++ j :: left → runClean done s = some t →
      exec j t = .next u → u.err ≠ .ok →
      exec i s = .next { u with ft := [], nodes := [], root := 1023#10, codes := [] })

/-- 45_composite_and_control.md R210: COMPRESS appends the header of the input's table and the packed codewords. -/
def Obligations.CompressAppendsStream : Prop :=
  ∀ s : State, s.outN = 0#3 → s.outAcc = 0#8 → countsFit s.input →
    ∃ ft nodes root cs X, tableOfBytes s.input ft ∧ buildTree (ftEntries ft) = some (nodes, root) ∧
      deriveCodes nodes root = .ok cs ∧
      Packs (s.input.flatMap (fun b => (Table.get cs b.toNat).getD []) ++ (Table.get cs 256).getD []) X ∧
      exec .compress s = .next { s with ft := [], nodes := [], root := 1023#10, codes := [], inPos := s.input.length,
                                        inBit := 0#3, out := s.out ++ canonicalHeader ft ++ X, err := .ok,
                                        issued := none }

/-- 45_composite_and_control.md R211, with 40_frequency_accumulator.md R133 and 60_exceptions.md R241: the one error of
COMPRESS, with nothing emitted and the cursor just past the offending byte. -/
def Obligations.CompressCountOverflow : Prop :=
  ∀ s : State, (∃ b : Byte, 4294967295 < s.input.count b) →
    ∃ (k : Nat) (b : Byte), s.input[k]? = some b ∧ (s.input.take k).count b = 4294967295 ∧ countsFit (s.input.take k) ∧
      exec .compress s = .next { s with ft := [], nodes := [], root := 1023#10, codes := [], inPos := k + 1, inBit := 0#3,
                                        err := .countOverflow, issued := none }

/-- 45_composite_and_control.md R212: the bytes appended depend only on the input. -/
def Obligations.CompressDependsOnInputAlone : Prop :=
  ∀ s s' t t' : State, s.input = s'.input → s.outN = 0#3 → s.outAcc = 0#8 → s'.outN = 0#3 → s'.outAcc = 0#8 →
    exec .compress s = .next t → exec .compress s' = .next t' →
    t.out.drop s.out.length = t'.out.drop s'.out.length ∧ t.err = t'.err

/-- 45_composite_and_control.md R213: DECOMPRESS of a header and codewords of its tree, up to the sentinel's. -/
def Obligations.DecompressDecodesStream : Prop :=
  ∀ (s v : State) (es : List (List Nat × List Nat)) (Y : List Byte) (ft : List (Nat × Count)) (nodes : List Node)
    (root : Handle) (ws : List (List Bool × Byte)) (w rest : List Bool),
    s.inBit = 0#3 → s.outN = 0#3 → s.inPos ≤ s.input.length →
    headerAccepted es → unread s = headerSpelling es ++ Y → tableOfHeader es ft →
    buildTree (ftEntries ft) = some (nodes, root) → v = { s with nodes := nodes, root := root } →
    (∀ e ∈ ws, leafPath v e.1 e.2.toNat) → leafPath v w 256 →
    streamBits Y = ws.flatMap (fun e => e.1) ++ w ++ rest →
    exec .decompress s =
      .next { s with ft := [], nodes := [], root := 1023#10, codes := [],
                     inPos := s.inPos + (headerSpelling es).length + ((ws.flatMap (fun e => e.1) ++ w).length + 7) / 8,
                     out := s.out ++ ws.map (fun e => e.2), err := .ok, issued := none }

/-- 45_composite_and_control.md R214: DECOMPRESS completes from every safe state, with the tables released on every path. -/
def Obligations.DecompressReleasesOnEveryPath : Prop :=
  ∀ s : State, s.Inv →
    ∃ t, exec .decompress s = .next t ∧ t.ft = [] ∧ t.root = 1023#10 ∧ nNodes t = 0 ∧ t.codes = [] ∧ t.inBit = 0#3 ∧
      t.outN = 0#3 ∧ t.issued = none ∧ s.out <+: t.out ∧ s.inPos ≤ t.inPos ∧ t.inPos ≤ t.input.length ∧
      mayEndWith .decompress t.err = true

/-- 45_composite_and_control.md R215: `decompress(compress(b)) == b`, whatever follows the encoded stream. -/
def Obligations.DecompressOfCompressIsIdentity : Prop :=
  ∀ (s : State) (b Z : List Byte), s.outN = 0#3 → s.outAcc = 0#8 → countsFit b →
    ∃ t u, exec .compress (attachOut (attachIn s b)) = .next t ∧ t.err = .ok ∧
      exec .decompress (attachOut (attachIn t (t.out ++ Z))) = .next u ∧ u.err = .ok ∧ u.out = b ∧
      u.inPos = t.out.length

/-- 45_composite_and_control.md R216: REWIND. -/
def Obligations.RewindResult : Prop :=
  ∀ s : State, exec .rewind s = .next { s with inPos := 0, inBit := 0#3, err := .ok, issued := none }

/-- 45_composite_and_control.md R217, R218: RELEASE. -/
def Obligations.ReleaseResult : Prop :=
  ∀ s : State, exec .release s = .next { s with ft := [], nodes := [], root := 1023#10, codes := [], err := .ok,
                                                issued := none }

/-- 30_encoding.md R92, 60_exceptions.md R237: the reserved opcodes. -/
def Obligations.ReservedOpcodesAreIllegal : Prop :=
  ∀ (s : State) (i : Instr), i ∈ [Instr.reserved0, .reservedC, .reservedD, .reservedE, .reservedF] →
    exec i s = .next { s with err := .illegalCommand, issued := none }

/-! ### The whole machine -/

/-- 20_memory.md R60, R63: no command changes `IN` or what the host does next, and `OUT` only grows. -/
def Obligations.OutputOnlyGrows : Prop :=
  ∀ (i : Instr) (s t : State), exec i s = .next t →
    s.out <+: t.out ∧ t.input = s.input ∧ t.host = s.host ∧ t.draws = s.draws

/-- The frame of the commands that leave the streams alone: the tables change, `in_pos`, `in_bit`, `out_acc`, `out_n`, `IN`
and `OUT` do not (41_tree_builder.md R140, 42_code_deriver.md R160, 45_composite_and_control.md R217, 30_encoding.md R92). -/
def Obligations.TableCommandsLeaveStreams : Prop :=
  ∀ (i : Instr) (s t : State),
    i ∈ [Instr.build, .codes, .release, .reserved0, .reservedC, .reservedD, .reservedE, .reservedF] →
    exec i s = .next t →
    t.input = s.input ∧ t.inPos = s.inPos ∧ t.inBit = s.inBit ∧ t.out = s.out ∧ t.outAcc = s.outAcc ∧ t.outN = s.outN ∧
      (i ≠ .release → t.ft = s.ft) ∧ (i = .codes → t.nodes = s.nodes ∧ t.root = s.root)

/-- The frame of the commands that leave the three tables alone (43_header_serializer_parser.md R170, 44_bitstream_codec.md
R190, R194, 45_composite_and_control.md R216), and of those that emit nothing (40_frequency_accumulator.md R130,
43_header_serializer_parser.md R174). -/
def Obligations.StreamCommandsLeaveTables : Prop :=
  (∀ (i : Instr) (s t : State), i ∈ [Instr.serial, .encode, .decode, .rewind] → exec i s = .next t →
    t.ft = s.ft ∧ t.nodes = s.nodes ∧ t.root = s.root ∧ t.codes = s.codes ∧ t.input = s.input ∧
      (i = .serial → t.inPos = s.inPos ∧ t.inBit = s.inBit)) ∧
  (∀ (i : Instr) (s t : State), i ∈ [Instr.freq, .parse, .rewind] → exec i s = .next t →
    t.input = s.input ∧ t.out = s.out ∧ t.outAcc = s.outAcc ∧ t.outN = s.outN ∧
      (i ≠ .rewind → t.nodes = [] ∧ t.root = 1023#10 ∧ t.codes = [] ∧ t.inBit = s.inBit))

/-- 60_exceptions.md R230: which results each command may complete with, and their codes; `busy` falls with every
completion. -/
def Obligations.ResultsOfEachCommand : Prop :=
  (∀ (i : Instr) (s t : State), exec i s = .next t → mayEndWith i t.err = true ∧ t.issued = none) ∧
  [ResultCode.ok, .emptyAlphabet, .malformedHeader, .corruptStream, .countOverflow, .unknownSymbol, .noTree,
    .illegalCommand].map ResultCode.code = [0#3, 1#3, 2#3, 3#3, 4#3, 5#3, 6#3, 7#3]

/-- 60_exceptions.md R241: what a failed command leaves, row by row. -/
def Obligations.FailedCommandsLeave : Prop :=
  ∀ (i : Instr) (s t : State), s.Inv → exec i s = .next t → t.err ≠ .ok →
    t.inBit = 0#3 ∧ t.outN = 0#3 ∧ t.outAcc = 0#8 ∧
    (i ∈ [Instr.freq, .parse, .compress, .decompress] → t.ft = [] ∧ t.nodes = [] ∧ t.root = 1023#10 ∧ t.codes = []) ∧
    (i = .build → t.ft = s.ft ∧ t.nodes = [] ∧ t.root = 1023#10 ∧ t.codes = []) ∧
    (i = .codes → t.ft = s.ft ∧ t.nodes = s.nodes ∧ t.root = s.root ∧ t.codes = []) ∧
    (i ∈ [Instr.encode, .decode] → t.ft = s.ft ∧ t.nodes = s.nodes ∧ t.root = s.root ∧ t.codes = s.codes) ∧
    (i ∈ [Instr.freq, .build, .codes, .parse, .compress] → t.out = s.out) ∧
    (i ∈ [Instr.build, .codes] → t.inPos = s.inPos)

/-- 70_reset_and_hazards.md R268: every command completes, from every safe state; no fault of the model is met. -/
def Obligations.EveryCommandCompletes : Prop :=
  ∀ (i : Instr) (s : State), s.Inv → ∃ t, exec i s = .next t

/-- 10_state.md R24, R25, R36: what holds between commands is kept by every step. -/
def Obligations.StepKeepsSafeState : Prop :=
  ∀ s t : State, s.Inv → step s = .next t → t.Inv

/-- The state after reset is a safe one (10_state.md R38). -/
def Obligations.ResetIsSafeState : Prop := State.reset.Inv

/-- From a safe state no run meets a fault of the block, however the host acts. -/
def Obligations.RunsFromSafeStatesAreSafe : Prop :=
  ∀ (s : State) (k : Nat), s.Inv → safeRun k s

/-- 30_encoding.md R115: a program's encoding is the sequence of its opcodes, and the host issues them in order. -/
def Obligations.ProgramIssuesItsOpcodes : Prop :=
  ∀ p : List Instr, encodeProgram p = p.map encode ∧
    (programEvents (p.map ProgramLine.command)).filterMap
      (fun e => match e with
        | .writeCmd op => some op
        | .attachIn _ => none
        | .attachOut => none
        | .waitIdle => none
        | .readStatus => none
        | .readOut => none
        | .readDebug => none
        | .reset => none) = encodeProgram p ∧
    programCommands (p.map ProgramLine.command) = p
end

