-- ==== Sys2Proof/Laws/State.lean ====
section
/-!
SUPPORT. One lemma per field per update, so that no later proof unfolds a record update.
-/

namespace Sys2Proof.Machine

/-! ### `ftStore` -/

@[simp] theorem ftStore_ft (s : State) (sym : Nat) (c : Count) : (ftStore s sym c).ft = Table.set s.ft sym c := rfl
@[simp] theorem ftStore_nodes (s : State) (sym : Nat) (c : Count) : (ftStore s sym c).nodes = s.nodes := rfl
@[simp] theorem ftStore_root (s : State) (sym : Nat) (c : Count) : (ftStore s sym c).root = s.root := rfl
@[simp] theorem ftStore_codes (s : State) (sym : Nat) (c : Count) : (ftStore s sym c).codes = s.codes := rfl
@[simp] theorem ftStore_input (s : State) (sym : Nat) (c : Count) : (ftStore s sym c).input = s.input := rfl
@[simp] theorem ftStore_inPos (s : State) (sym : Nat) (c : Count) : (ftStore s sym c).inPos = s.inPos := rfl
@[simp] theorem ftStore_inBit (s : State) (sym : Nat) (c : Count) : (ftStore s sym c).inBit = s.inBit := rfl
@[simp] theorem ftStore_out (s : State) (sym : Nat) (c : Count) : (ftStore s sym c).out = s.out := rfl
@[simp] theorem ftStore_outAcc (s : State) (sym : Nat) (c : Count) : (ftStore s sym c).outAcc = s.outAcc := rfl
@[simp] theorem ftStore_outN (s : State) (sym : Nat) (c : Count) : (ftStore s sym c).outN = s.outN := rfl
@[simp] theorem ftStore_issued (s : State) (sym : Nat) (c : Count) : (ftStore s sym c).issued = s.issued := rfl
@[simp] theorem ftStore_err (s : State) (sym : Nat) (c : Count) : (ftStore s sym c).err = s.err := rfl
@[simp] theorem ftStore_host (s : State) (sym : Nat) (c : Count) : (ftStore s sym c).host = s.host := rfl
@[simp] theorem ftStore_draws (s : State) (sym : Nat) (c : Count) : (ftStore s sym c).draws = s.draws := rfl

/-! ### `rewindCursor` -/

@[simp] theorem rewindCursor_ft (s : State) : (rewindCursor s).ft = s.ft := rfl
@[simp] theorem rewindCursor_nodes (s : State) : (rewindCursor s).nodes = s.nodes := rfl
@[simp] theorem rewindCursor_root (s : State) : (rewindCursor s).root = s.root := rfl
@[simp] theorem rewindCursor_codes (s : State) : (rewindCursor s).codes = s.codes := rfl
@[simp] theorem rewindCursor_input (s : State) : (rewindCursor s).input = s.input := rfl
@[simp] theorem rewindCursor_inPos (s : State) : (rewindCursor s).inPos = 0 := rfl
@[simp] theorem rewindCursor_inBit (s : State) : (rewindCursor s).inBit = 0#3 := rfl
@[simp] theorem rewindCursor_out (s : State) : (rewindCursor s).out = s.out := rfl
@[simp] theorem rewindCursor_outAcc (s : State) : (rewindCursor s).outAcc = s.outAcc := rfl
@[simp] theorem rewindCursor_outN (s : State) : (rewindCursor s).outN = s.outN := rfl
@[simp] theorem rewindCursor_issued (s : State) : (rewindCursor s).issued = s.issued := rfl
@[simp] theorem rewindCursor_err (s : State) : (rewindCursor s).err = s.err := rfl
@[simp] theorem rewindCursor_host (s : State) : (rewindCursor s).host = s.host := rfl
@[simp] theorem rewindCursor_draws (s : State) : (rewindCursor s).draws = s.draws := rfl

/-! ### `release` -/

@[simp] theorem release_ft (s : State) : (release s).ft = [] := rfl
@[simp] theorem release_nodes (s : State) : (release s).nodes = [] := rfl
@[simp] theorem release_root (s : State) : (release s).root = Config.nil := rfl
@[simp] theorem release_codes (s : State) : (release s).codes = [] := rfl
@[simp] theorem release_input (s : State) : (release s).input = s.input := rfl
@[simp] theorem release_inPos (s : State) : (release s).inPos = s.inPos := rfl
@[simp] theorem release_inBit (s : State) : (release s).inBit = s.inBit := rfl
@[simp] theorem release_out (s : State) : (release s).out = s.out := rfl
@[simp] theorem release_outAcc (s : State) : (release s).outAcc = s.outAcc := rfl
@[simp] theorem release_outN (s : State) : (release s).outN = s.outN := rfl
@[simp] theorem release_issued (s : State) : (release s).issued = s.issued := rfl
@[simp] theorem release_err (s : State) : (release s).err = s.err := rfl
@[simp] theorem release_host (s : State) : (release s).host = s.host := rfl
@[simp] theorem release_draws (s : State) : (release s).draws = s.draws := rfl

/-! ### `complete` -/

@[simp] theorem complete_ft (s : State) (r : ResultCode) : (complete s r).ft = s.ft := rfl
@[simp] theorem complete_nodes (s : State) (r : ResultCode) : (complete s r).nodes = s.nodes := rfl
@[simp] theorem complete_root (s : State) (r : ResultCode) : (complete s r).root = s.root := rfl
@[simp] theorem complete_codes (s : State) (r : ResultCode) : (complete s r).codes = s.codes := rfl
@[simp] theorem complete_input (s : State) (r : ResultCode) : (complete s r).input = s.input := rfl
@[simp] theorem complete_inPos (s : State) (r : ResultCode) : (complete s r).inPos = s.inPos := rfl
@[simp] theorem complete_inBit (s : State) (r : ResultCode) : (complete s r).inBit = s.inBit := rfl
@[simp] theorem complete_out (s : State) (r : ResultCode) : (complete s r).out = s.out := rfl
@[simp] theorem complete_outAcc (s : State) (r : ResultCode) : (complete s r).outAcc = s.outAcc := rfl
@[simp] theorem complete_outN (s : State) (r : ResultCode) : (complete s r).outN = s.outN := rfl
@[simp] theorem complete_issued (s : State) (r : ResultCode) : (complete s r).issued = none := rfl
@[simp] theorem complete_err (s : State) (r : ResultCode) : (complete s r).err = r := rfl
@[simp] theorem complete_host (s : State) (r : ResultCode) : (complete s r).host = s.host := rfl
@[simp] theorem complete_draws (s : State) (r : ResultCode) : (complete s r).draws = s.draws := rfl

/-! ### `attachIn` -/

@[simp] theorem attachIn_ft (s : State) (bytes : List Byte) : (attachIn s bytes).ft = s.ft := rfl
@[simp] theorem attachIn_nodes (s : State) (bytes : List Byte) : (attachIn s bytes).nodes = s.nodes := rfl
@[simp] theorem attachIn_root (s : State) (bytes : List Byte) : (attachIn s bytes).root = s.root := rfl
@[simp] theorem attachIn_codes (s : State) (bytes : List Byte) : (attachIn s bytes).codes = s.codes := rfl
@[simp] theorem attachIn_input (s : State) (bytes : List Byte) : (attachIn s bytes).input = bytes := rfl
@[simp] theorem attachIn_inPos (s : State) (bytes : List Byte) : (attachIn s bytes).inPos = 0 := rfl
@[simp] theorem attachIn_inBit (s : State) (bytes : List Byte) : (attachIn s bytes).inBit = 0#3 := rfl
@[simp] theorem attachIn_out (s : State) (bytes : List Byte) : (attachIn s bytes).out = s.out := rfl
@[simp] theorem attachIn_outAcc (s : State) (bytes : List Byte) : (attachIn s bytes).outAcc = s.outAcc := rfl
@[simp] theorem attachIn_outN (s : State) (bytes : List Byte) : (attachIn s bytes).outN = s.outN := rfl
@[simp] theorem attachIn_issued (s : State) (bytes : List Byte) : (attachIn s bytes).issued = s.issued := rfl
@[simp] theorem attachIn_err (s : State) (bytes : List Byte) : (attachIn s bytes).err = s.err := rfl
@[simp] theorem attachIn_host (s : State) (bytes : List Byte) : (attachIn s bytes).host = s.host := rfl
@[simp] theorem attachIn_draws (s : State) (bytes : List Byte) : (attachIn s bytes).draws = s.draws := rfl

/-! ### `attachOut` -/

@[simp] theorem attachOut_ft (s : State) : (attachOut s).ft = s.ft := rfl
@[simp] theorem attachOut_nodes (s : State) : (attachOut s).nodes = s.nodes := rfl
@[simp] theorem attachOut_root (s : State) : (attachOut s).root = s.root := rfl
@[simp] theorem attachOut_codes (s : State) : (attachOut s).codes = s.codes := rfl
@[simp] theorem attachOut_input (s : State) : (attachOut s).input = s.input := rfl
@[simp] theorem attachOut_inPos (s : State) : (attachOut s).inPos = s.inPos := rfl
@[simp] theorem attachOut_inBit (s : State) : (attachOut s).inBit = s.inBit := rfl
@[simp] theorem attachOut_out (s : State) : (attachOut s).out = [] := rfl
@[simp] theorem attachOut_outAcc (s : State) : (attachOut s).outAcc = s.outAcc := rfl
@[simp] theorem attachOut_outN (s : State) : (attachOut s).outN = s.outN := rfl
@[simp] theorem attachOut_issued (s : State) : (attachOut s).issued = s.issued := rfl
@[simp] theorem attachOut_err (s : State) : (attachOut s).err = s.err := rfl
@[simp] theorem attachOut_host (s : State) : (attachOut s).host = s.host := rfl
@[simp] theorem attachOut_draws (s : State) : (attachOut s).draws = s.draws := rfl

/-! ### `issue` -/

@[simp] theorem issue_ft (s : State) (op : Opcode) : (issue s op).ft = s.ft := rfl
@[simp] theorem issue_nodes (s : State) (op : Opcode) : (issue s op).nodes = s.nodes := rfl
@[simp] theorem issue_root (s : State) (op : Opcode) : (issue s op).root = s.root := rfl
@[simp] theorem issue_codes (s : State) (op : Opcode) : (issue s op).codes = s.codes := rfl
@[simp] theorem issue_input (s : State) (op : Opcode) : (issue s op).input = s.input := rfl
@[simp] theorem issue_inPos (s : State) (op : Opcode) : (issue s op).inPos = s.inPos := rfl
@[simp] theorem issue_inBit (s : State) (op : Opcode) : (issue s op).inBit = s.inBit := rfl
@[simp] theorem issue_out (s : State) (op : Opcode) : (issue s op).out = s.out := rfl
@[simp] theorem issue_outAcc (s : State) (op : Opcode) : (issue s op).outAcc = s.outAcc := rfl
@[simp] theorem issue_outN (s : State) (op : Opcode) : (issue s op).outN = s.outN := rfl
@[simp] theorem issue_issued (s : State) (op : Opcode) : (issue s op).issued = some op := rfl
@[simp] theorem issue_err (s : State) (op : Opcode) : (issue s op).err = s.err := rfl
@[simp] theorem issue_host (s : State) (op : Opcode) : (issue s op).host = s.host := rfl
@[simp] theorem issue_draws (s : State) (op : Opcode) : (issue s op).draws = s.draws := rfl

/-! ### `resetBlock` -/

@[simp] theorem resetBlock_ft (s : State) : (resetBlock s).ft = [] := rfl
@[simp] theorem resetBlock_nodes (s : State) : (resetBlock s).nodes = [] := rfl
@[simp] theorem resetBlock_root (s : State) : (resetBlock s).root = Config.nil := rfl
@[simp] theorem resetBlock_codes (s : State) : (resetBlock s).codes = [] := rfl
@[simp] theorem resetBlock_input (s : State) : (resetBlock s).input = s.input := rfl
@[simp] theorem resetBlock_inPos (s : State) : (resetBlock s).inPos = 0 := rfl
@[simp] theorem resetBlock_inBit (s : State) : (resetBlock s).inBit = 0#3 := rfl
@[simp] theorem resetBlock_out (s : State) : (resetBlock s).out = s.out := rfl
@[simp] theorem resetBlock_outAcc (s : State) : (resetBlock s).outAcc = 0#8 := rfl
@[simp] theorem resetBlock_outN (s : State) : (resetBlock s).outN = 0#3 := rfl
@[simp] theorem resetBlock_issued (s : State) : (resetBlock s).issued = none := rfl
@[simp] theorem resetBlock_err (s : State) : (resetBlock s).err = .ok := rfl
@[simp] theorem resetBlock_host (s : State) : (resetBlock s).host = s.host := rfl
@[simp] theorem resetBlock_draws (s : State) : (resetBlock s).draws = s.draws := rfl

/-! ### `outFlush` -/

@[simp] theorem outFlush_ft (s : State) : (outFlush s).ft = s.ft := by simp only [outFlush]; split <;> rfl
@[simp] theorem outFlush_nodes (s : State) : (outFlush s).nodes = s.nodes := by simp only [outFlush]; split <;> rfl
@[simp] theorem outFlush_root (s : State) : (outFlush s).root = s.root := by simp only [outFlush]; split <;> rfl
@[simp] theorem outFlush_codes (s : State) : (outFlush s).codes = s.codes := by simp only [outFlush]; split <;> rfl
@[simp] theorem outFlush_input (s : State) : (outFlush s).input = s.input := by simp only [outFlush]; split <;> rfl
@[simp] theorem outFlush_inPos (s : State) : (outFlush s).inPos = s.inPos := by simp only [outFlush]; split <;> rfl
@[simp] theorem outFlush_inBit (s : State) : (outFlush s).inBit = s.inBit := by simp only [outFlush]; split <;> rfl
@[simp] theorem outFlush_issued (s : State) : (outFlush s).issued = s.issued := by simp only [outFlush]; split <;> rfl
@[simp] theorem outFlush_err (s : State) : (outFlush s).err = s.err := by simp only [outFlush]; split <;> rfl
@[simp] theorem outFlush_host (s : State) : (outFlush s).host = s.host := by simp only [outFlush]; split <;> rfl
@[simp] theorem outFlush_draws (s : State) : (outFlush s).draws = s.draws := by simp only [outFlush]; split <;> rfl

/-! ### `outBit` -/

@[simp] theorem outBit_ft (s : State) (b : Bool) : (outBit s b).ft = s.ft := by simp only [outBit]; split <;> rfl
@[simp] theorem outBit_nodes (s : State) (b : Bool) : (outBit s b).nodes = s.nodes := by simp only [outBit]; split <;> rfl
@[simp] theorem outBit_root (s : State) (b : Bool) : (outBit s b).root = s.root := by simp only [outBit]; split <;> rfl
@[simp] theorem outBit_codes (s : State) (b : Bool) : (outBit s b).codes = s.codes := by simp only [outBit]; split <;> rfl
@[simp] theorem outBit_input (s : State) (b : Bool) : (outBit s b).input = s.input := by simp only [outBit]; split <;> rfl
@[simp] theorem outBit_inPos (s : State) (b : Bool) : (outBit s b).inPos = s.inPos := by simp only [outBit]; split <;> rfl
@[simp] theorem outBit_inBit (s : State) (b : Bool) : (outBit s b).inBit = s.inBit := by simp only [outBit]; split <;> rfl
@[simp] theorem outBit_issued (s : State) (b : Bool) : (outBit s b).issued = s.issued := by simp only [outBit]; split <;> rfl
@[simp] theorem outBit_err (s : State) (b : Bool) : (outBit s b).err = s.err := by simp only [outBit]; split <;> rfl
@[simp] theorem outBit_host (s : State) (b : Bool) : (outBit s b).host = s.host := by simp only [outBit]; split <;> rfl
@[simp] theorem outBit_draws (s : State) (b : Bool) : (outBit s b).draws = s.draws := by simp only [outBit]; split <;> rfl

/-! ### `inAlign` -/

@[simp] theorem inAlign_ft (s : State) : (inAlign s).ft = s.ft := by simp only [inAlign]; split <;> rfl
@[simp] theorem inAlign_nodes (s : State) : (inAlign s).nodes = s.nodes := by simp only [inAlign]; split <;> rfl
@[simp] theorem inAlign_root (s : State) : (inAlign s).root = s.root := by simp only [inAlign]; split <;> rfl
@[simp] theorem inAlign_codes (s : State) : (inAlign s).codes = s.codes := by simp only [inAlign]; split <;> rfl
@[simp] theorem inAlign_input (s : State) : (inAlign s).input = s.input := by simp only [inAlign]; split <;> rfl
@[simp] theorem inAlign_out (s : State) : (inAlign s).out = s.out := by simp only [inAlign]; split <;> rfl
@[simp] theorem inAlign_outAcc (s : State) : (inAlign s).outAcc = s.outAcc := by simp only [inAlign]; split <;> rfl
@[simp] theorem inAlign_outN (s : State) : (inAlign s).outN = s.outN := by simp only [inAlign]; split <;> rfl
@[simp] theorem inAlign_issued (s : State) : (inAlign s).issued = s.issued := by simp only [inAlign]; split <;> rfl
@[simp] theorem inAlign_err (s : State) : (inAlign s).err = s.err := by simp only [inAlign]; split <;> rfl
@[simp] theorem inAlign_host (s : State) : (inAlign s).host = s.host := by simp only [inAlign]; split <;> rfl
@[simp] theorem inAlign_draws (s : State) : (inAlign s).draws = s.draws := by simp only [inAlign]; split <;> rfl

/-! ### `advanceBit` -/

@[simp] theorem advanceBit_ft (s : State) : (advanceBit s).ft = s.ft := by simp only [advanceBit]; split <;> rfl
@[simp] theorem advanceBit_nodes (s : State) : (advanceBit s).nodes = s.nodes := by simp only [advanceBit]; split <;> rfl
@[simp] theorem advanceBit_root (s : State) : (advanceBit s).root = s.root := by simp only [advanceBit]; split <;> rfl
@[simp] theorem advanceBit_codes (s : State) : (advanceBit s).codes = s.codes := by simp only [advanceBit]; split <;> rfl
@[simp] theorem advanceBit_input (s : State) : (advanceBit s).input = s.input := by simp only [advanceBit]; split <;> rfl
@[simp] theorem advanceBit_out (s : State) : (advanceBit s).out = s.out := by simp only [advanceBit]; split <;> rfl
@[simp] theorem advanceBit_outAcc (s : State) : (advanceBit s).outAcc = s.outAcc := by simp only [advanceBit]; split <;> rfl
@[simp] theorem advanceBit_outN (s : State) : (advanceBit s).outN = s.outN := by simp only [advanceBit]; split <;> rfl
@[simp] theorem advanceBit_issued (s : State) : (advanceBit s).issued = s.issued := by simp only [advanceBit]; split <;> rfl
@[simp] theorem advanceBit_err (s : State) : (advanceBit s).err = s.err := by simp only [advanceBit]; split <;> rfl
@[simp] theorem advanceBit_host (s : State) : (advanceBit s).host = s.host := by simp only [advanceBit]; split <;> rfl
@[simp] theorem advanceBit_draws (s : State) : (advanceBit s).draws = s.draws := by simp only [advanceBit]; split <;> rfl

/-! ### `outByte`, `outBytes`, `outBits` -/

@[simp] theorem outByte_ft (s : State) (b : Byte) : (outByte s b).ft = s.ft := by simp [outByte]
@[simp] theorem outByte_nodes (s : State) (b : Byte) : (outByte s b).nodes = s.nodes := by simp [outByte]
@[simp] theorem outByte_root (s : State) (b : Byte) : (outByte s b).root = s.root := by simp [outByte]
@[simp] theorem outByte_codes (s : State) (b : Byte) : (outByte s b).codes = s.codes := by simp [outByte]
@[simp] theorem outByte_input (s : State) (b : Byte) : (outByte s b).input = s.input := by simp [outByte]
@[simp] theorem outByte_inPos (s : State) (b : Byte) : (outByte s b).inPos = s.inPos := by simp [outByte]
@[simp] theorem outByte_inBit (s : State) (b : Byte) : (outByte s b).inBit = s.inBit := by simp [outByte]
@[simp] theorem outByte_issued (s : State) (b : Byte) : (outByte s b).issued = s.issued := by simp [outByte]
@[simp] theorem outByte_err (s : State) (b : Byte) : (outByte s b).err = s.err := by simp [outByte]
@[simp] theorem outByte_host (s : State) (b : Byte) : (outByte s b).host = s.host := by simp [outByte]
@[simp] theorem outByte_draws (s : State) (b : Byte) : (outByte s b).draws = s.draws := by simp [outByte]

@[simp] theorem outBytes_ft (s : State) (l : List Byte) : (outBytes s l).ft = s.ft := by
  induction l generalizing s with
  | nil => rfl
  | cons a l ih => exact (ih (outByte s a)).trans (by simp)
@[simp] theorem outBytes_nodes (s : State) (l : List Byte) : (outBytes s l).nodes = s.nodes := by
  induction l generalizing s with
  | nil => rfl
  | cons a l ih => exact (ih (outByte s a)).trans (by simp)
@[simp] theorem outBytes_root (s : State) (l : List Byte) : (outBytes s l).root = s.root := by
  induction l generalizing s with
  | nil => rfl
  | cons a l ih => exact (ih (outByte s a)).trans (by simp)
@[simp] theorem outBytes_codes (s : State) (l : List Byte) : (outBytes s l).codes = s.codes := by
  induction l generalizing s with
  | nil => rfl
  | cons a l ih => exact (ih (outByte s a)).trans (by simp)
@[simp] theorem outBytes_input (s : State) (l : List Byte) : (outBytes s l).input = s.input := by
  induction l generalizing s with
  | nil => rfl
  | cons a l ih => exact (ih (outByte s a)).trans (by simp)
@[simp] theorem outBytes_inPos (s : State) (l : List Byte) : (outBytes s l).inPos = s.inPos := by
  induction l generalizing s with
  | nil => rfl
  | cons a l ih => exact (ih (outByte s a)).trans (by simp)
@[simp] theorem outBytes_inBit (s : State) (l : List Byte) : (outBytes s l).inBit = s.inBit := by
  induction l generalizing s with
  | nil => rfl
  | cons a l ih => exact (ih (outByte s a)).trans (by simp)
@[simp] theorem outBytes_issued (s : State) (l : List Byte) : (outBytes s l).issued = s.issued := by
  induction l generalizing s with
  | nil => rfl
  | cons a l ih => exact (ih (outByte s a)).trans (by simp)
@[simp] theorem outBytes_err (s : State) (l : List Byte) : (outBytes s l).err = s.err := by
  induction l generalizing s with
  | nil => rfl
  | cons a l ih => exact (ih (outByte s a)).trans (by simp)
@[simp] theorem outBytes_host (s : State) (l : List Byte) : (outBytes s l).host = s.host := by
  induction l generalizing s with
  | nil => rfl
  | cons a l ih => exact (ih (outByte s a)).trans (by simp)
@[simp] theorem outBytes_draws (s : State) (l : List Byte) : (outBytes s l).draws = s.draws := by
  induction l generalizing s with
  | nil => rfl
  | cons a l ih => exact (ih (outByte s a)).trans (by simp)

@[simp] theorem outBits_ft (s : State) (l : List Bool) : (outBits s l).ft = s.ft := by
  induction l generalizing s with
  | nil => rfl
  | cons a l ih => exact (ih (outBit s a)).trans (by simp)
@[simp] theorem outBits_nodes (s : State) (l : List Bool) : (outBits s l).nodes = s.nodes := by
  induction l generalizing s with
  | nil => rfl
  | cons a l ih => exact (ih (outBit s a)).trans (by simp)
@[simp] theorem outBits_root (s : State) (l : List Bool) : (outBits s l).root = s.root := by
  induction l generalizing s with
  | nil => rfl
  | cons a l ih => exact (ih (outBit s a)).trans (by simp)
@[simp] theorem outBits_codes (s : State) (l : List Bool) : (outBits s l).codes = s.codes := by
  induction l generalizing s with
  | nil => rfl
  | cons a l ih => exact (ih (outBit s a)).trans (by simp)
@[simp] theorem outBits_input (s : State) (l : List Bool) : (outBits s l).input = s.input := by
  induction l generalizing s with
  | nil => rfl
  | cons a l ih => exact (ih (outBit s a)).trans (by simp)
@[simp] theorem outBits_inPos (s : State) (l : List Bool) : (outBits s l).inPos = s.inPos := by
  induction l generalizing s with
  | nil => rfl
  | cons a l ih => exact (ih (outBit s a)).trans (by simp)
@[simp] theorem outBits_inBit (s : State) (l : List Bool) : (outBits s l).inBit = s.inBit := by
  induction l generalizing s with
  | nil => rfl
  | cons a l ih => exact (ih (outBit s a)).trans (by simp)
@[simp] theorem outBits_issued (s : State) (l : List Bool) : (outBits s l).issued = s.issued := by
  induction l generalizing s with
  | nil => rfl
  | cons a l ih => exact (ih (outBit s a)).trans (by simp)
@[simp] theorem outBits_err (s : State) (l : List Bool) : (outBits s l).err = s.err := by
  induction l generalizing s with
  | nil => rfl
  | cons a l ih => exact (ih (outBit s a)).trans (by simp)
@[simp] theorem outBits_host (s : State) (l : List Bool) : (outBits s l).host = s.host := by
  induction l generalizing s with
  | nil => rfl
  | cons a l ih => exact (ih (outBit s a)).trans (by simp)
@[simp] theorem outBits_draws (s : State) (l : List Bool) : (outBits s l).draws = s.draws := by
  induction l generalizing s with
  | nil => rfl
  | cons a l ih => exact (ih (outBit s a)).trans (by simp)

end Sys2Proof.Machine
end

