-- ==== Sys2Proof/Laws/Table.lean ====
section
/-!
SUPPORT. What the table operations do: read after write, the canonical form is kept, and tables in canonical form with
equal entries are equal.
-/

namespace Sys2Proof.Machine

variable {α : Type}

@[simp] theorem Table.get_nil (k : Nat) : Table.get ([] : List (Nat × α)) k = none := rfl

theorem Table.get_cons (k : Nat) (v : α) (t : List (Nat × α)) (s : Nat) :
    Table.get ((k, v) :: t) s = if s = k then some v else Table.get t s := rfl

/-- The canonical form in words: indexes strictly rising, each below 257. -/
theorem Table.wf_iff (t : List (Nat × α)) :
    Table.wf t = true ↔ t.Pairwise (fun a b => a.1 < b.1) ∧ ∀ e ∈ t, e.1 < 257 := by
  induction t with
  | nil => simp [Table.wf]
  | cons e t ih =>
    obtain ⟨k, v⟩ := e
    cases t with
    | nil =>
      have : Table.wf [(k, v)] = decide (k < 257) := rfl
      simp [this]
    | cons e' t' =>
      obtain ⟨k', v'⟩ := e'
      simp only [Table.wf, Bool.and_eq_true, decide_eq_true_eq, ih, List.pairwise_cons, List.mem_cons]
      constructor
      · rintro ⟨hk, ⟨h1, h2⟩, h3⟩
        refine ⟨⟨?_, h1, h2⟩, ?_⟩
        · rintro a (rfl | ha)
          · exact hk
          · exact hk.trans (h1 a ha)
        · rintro e (rfl | he)
          · exact hk.trans (h3 _ (.inl rfl))
          · exact h3 e he
      · rintro ⟨⟨h0, h1, h2⟩, h3⟩
        exact ⟨h0 _ (.inl rfl), ⟨h1, h2⟩, fun e he => h3 e (.inr he)⟩

theorem Table.wf_of_cons {e : Nat × α} {t : List (Nat × α)} (h : Table.wf (e :: t) = true) : Table.wf t = true := by
  rw [Table.wf_iff] at *
  exact ⟨h.1.of_cons, fun x hx => h.2 x (List.mem_cons_of_mem _ hx)⟩

/-- Read after write, at the index written and elsewhere. -/
theorem Table.get_set (t : List (Nat × α)) (s s' : Nat) (v : α) (h : t.Pairwise fun a b => a.1 < b.1) :
    Table.get (Table.set t s v) s' = if s' = s then some v else Table.get t s' := by
  induction t with
  | nil => simp [Table.set, Table.get]
  | cons e t ih =>
    obtain ⟨k, w⟩ := e
    simp only [Table.set]
    split
    · simp [Table.get_cons]
    · split
      · rename_i _ hk
        subst hk
        by_cases hs : s' = s <;> simp [Table.get_cons, hs]
      · rename_i h1 h2
        simp only [Table.get_cons, ih h.of_cons]
        by_cases hk : s' = k
        · subst hk
          simp [Ne.symm h2]
        · simp [hk]

@[simp] theorem Table.get_set_self (t : List (Nat × α)) (s : Nat) (v : α) : Table.get (Table.set t s v) s = some v := by
  induction t with
  | nil => simp [Table.set, Table.get]
  | cons e t ih =>
    obtain ⟨k, w⟩ := e
    simp only [Table.set]
    split
    · simp [Table.get_cons]
    · split
      · simp [Table.get_cons]
      · rename_i h1 h2
        simp [Table.get_cons, h2, ih]

theorem Table.get_set_of_ne (t : List (Nat × α)) {s s' : Nat} (v : α) (h : s' ≠ s) :
    Table.get (Table.set t s v) s' = Table.get t s' := by
  induction t with
  | nil => simp [Table.set, Table.get, h]
  | cons e t ih =>
    obtain ⟨k, w⟩ := e
    simp only [Table.set]
    split
    · simp [Table.get_cons, h]
    · split
      · rename_i _ hk
        subst hk
        simp [Table.get_cons, h]
      · simp [Table.get_cons, ih]

theorem Table.mem_set {t : List (Nat × α)} {s : Nat} {v : α} {e : Nat × α} (h : e ∈ Table.set t s v) :
    e = (s, v) ∨ e ∈ t := by
  induction t with
  | nil => simpa [Table.set] using h
  | cons a t ih =>
    obtain ⟨k, w⟩ := a
    simp only [Table.set] at h
    split at h
    · simpa using h
    · split at h
      · rcases List.mem_cons.1 h with h | h
        · exact .inl h
        · exact .inr (List.mem_cons_of_mem _ h)
      · rcases List.mem_cons.1 h with h | h
        · exact .inr (h ▸ List.mem_cons_self)
        · exact (ih h).imp_right (List.mem_cons_of_mem _)

/-- A write keeps the canonical form. -/
theorem Table.wf_set {t : List (Nat × α)} {s : Nat} (v : α) (h : Table.wf t = true) (hs : s < 257) :
    Table.wf (Table.set t s v) = true := by
  rw [Table.wf_iff] at *
  refine ⟨?_, fun e he => ?_⟩
  · obtain ⟨h, -⟩ := h
    induction t with
    | nil => simp [Table.set]
    | cons a t ih =>
      obtain ⟨k, w⟩ := a
      simp only [List.pairwise_cons] at h
      simp only [Table.set]
      split
      · rename_i hk
        refine List.pairwise_cons.2 ⟨?_, List.pairwise_cons.2 h⟩
        intro b hb
        rcases List.mem_cons.1 hb with rfl | hb
        · exact hk
        · exact hk.trans (h.1 b hb)
      · split
        · rename_i _ hk
          subst hk
          exact List.pairwise_cons.2 h
        · rename_i h1 h2
          refine List.pairwise_cons.2 ⟨fun b hb => ?_, ih h.2⟩
          rcases Table.mem_set hb with rfl | hb
          · show k < s
            omega
          · exact h.1 b hb
  · rcases Table.mem_set he with rfl | he
    · exact hs
    · exact h.2 e he

/-- Taking an entry out keeps the canonical form. -/
theorem Table.wf_erase {t : List (Nat × α)} (s : Nat) (h : Table.wf t = true) : Table.wf (Table.erase t s) = true := by
  rw [Table.wf_iff] at *
  exact ⟨h.1.filter _, fun e he => h.2 e (List.mem_of_mem_filter he)⟩

theorem Table.get_eq_none_of_lt {t : List (Nat × α)} {s : Nat} (h : ∀ e ∈ t, s < e.1) : Table.get t s = none := by
  induction t with
  | nil => rfl
  | cons e t ih =>
    obtain ⟨k, v⟩ := e
    have hk : s < k := h _ List.mem_cons_self
    rw [Table.get_cons, if_neg (by omega), ih fun e he => h e (List.mem_cons_of_mem _ he)]

theorem Table.mem_of_get {t : List (Nat × α)} {s : Nat} {v : α} (h : Table.get t s = some v) : (s, v) ∈ t := by
  induction t with
  | nil => simp at h
  | cons e t ih =>
    obtain ⟨k, w⟩ := e
    rw [Table.get_cons] at h
    split at h
    · rename_i hk
      subst hk
      simp_all
    · exact List.mem_cons_of_mem _ (ih h)

/-- In canonical form an entry is listed exactly when reading its index gives it. -/
theorem Table.mem_iff_get {t : List (Nat × α)} (h : Table.wf t = true) (s : Nat) (v : α) :
    (s, v) ∈ t ↔ Table.get t s = some v := by
  refine ⟨fun hm => ?_, Table.mem_of_get⟩
  rw [Table.wf_iff] at h
  obtain ⟨h, -⟩ := h
  induction t with
  | nil => simp at hm
  | cons e t ih =>
    obtain ⟨k, w⟩ := e
    rw [List.pairwise_cons] at h
    rcases List.mem_cons.1 hm with he | hm
    · cases he
      simp [Table.get_cons]
    · have : k < s := h.1 _ hm
      rw [Table.get_cons, if_neg (by omega), ih hm h.2]

theorem Table.get_of_ge {t : List (Nat × α)} (h : Table.wf t = true) {s : Nat} (hs : 257 ≤ s) : Table.get t s = none := by
  cases hg : Table.get t s with
  | none => rfl
  | some v =>
    have := ((Table.wf_iff t).1 h).2 _ (Table.mem_of_get hg)
    simp at this
    omega

/-- Tables in canonical form with the same entries are equal. -/
theorem Table.ext {t t' : List (Nat × α)} (h : Table.wf t = true) (h' : Table.wf t' = true)
    (hg : ∀ s, Table.get t s = Table.get t' s) : t = t' := by
  have hp := ((Table.wf_iff t).1 h).1
  have hp' := ((Table.wf_iff t').1 h').1
  have hmem : ∀ e, e ∈ t ↔ e ∈ t' := fun ⟨s, v⟩ => by rw [Table.mem_iff_get h, Table.mem_iff_get h', hg]
  have hnd : t.Nodup := hp.imp fun hab heq => by subst heq; omega
  have hnd' : t'.Nodup := hp'.imp fun hab heq => by subst heq; omega
  have hperm : t.Perm t' := (List.perm_ext_iff_of_nodup hnd hnd').2 hmem
  exact hperm.eq_of_pairwise (le := fun a b => a.1 < b.1) (fun a b _ _ hab hba => by omega) hp hp'

/-! ### The entries in ascending order of symbol -/

theorem ftEntries_pairwise (ft : List (Nat × Count)) : (ftEntries ft).Pairwise fun a b => a.1 < b.1 := by
  unfold ftEntries
  rw [List.pairwise_filterMap]
  refine List.pairwise_lt_range.imp ?_
  intro a b hab x hx y hy
  simp only [Option.map_eq_some_iff] at hx hy
  obtain ⟨c, -, rfl⟩ := hx
  obtain ⟨d, -, rfl⟩ := hy
  exact hab

theorem mem_ftEntries (ft : List (Nat × Count)) (sym : Nat) (c : Count) :
    (sym, c) ∈ ftEntries ft ↔ sym < 257 ∧ Table.get ft sym = some c := by
  unfold ftEntries
  simp only [List.mem_filterMap, List.mem_range, Option.map_eq_some_iff, Prod.mk.injEq, Config.nsym]
  constructor
  · rintro ⟨s, hs, d, hd, rfl, rfl⟩
    exact ⟨hs, hd⟩
  · rintro ⟨hs, hd⟩
    exact ⟨sym, hs, c, hd, rfl, rfl⟩

/-- The entries of any table are in canonical form. -/
theorem ftEntries_wf (ft : List (Nat × Count)) : Table.wf (ftEntries ft) = true :=
  (Table.wf_iff _).2 ⟨ftEntries_pairwise ft, fun ⟨s, c⟩ h => ((mem_ftEntries ft s c).1 h).1⟩

theorem get_ftEntries (ft : List (Nat × Count)) {sym : Nat} (h : sym < 257) :
    Table.get (ftEntries ft) sym = Table.get ft sym := by
  cases hg : Table.get ft sym with
  | some c => exact (Table.mem_iff_get (ftEntries_wf ft) _ _).1 ((mem_ftEntries ft sym c).2 ⟨h, hg⟩)
  | none =>
    cases he : Table.get (ftEntries ft) sym with
    | none => rfl
    | some c =>
      have := ((mem_ftEntries ft sym c).1 (Table.mem_of_get he)).2
      simp [hg] at this

/-- A table in canonical form is the list of its entries. -/
theorem ftEntries_of_wf {ft : List (Nat × Count)} (h : Table.wf ft = true) : ftEntries ft = ft :=
  Table.ext (ftEntries_wf ft) h fun s => by
    by_cases hs : s < 257
    · exact get_ftEntries ft hs
    · rw [Table.get_of_ge (ftEntries_wf ft) (by omega), Table.get_of_ge h (by omega)]

/-- The entries depend on what the table holds at the symbols only. -/
theorem ftEntries_congr {ft ft' : List (Nat × Count)} (h : ∀ sym < 257, Table.get ft sym = Table.get ft' sym) :
    ftEntries ft = ftEntries ft' :=
  Table.ext (ftEntries_wf ft) (ftEntries_wf ft') fun s => by
    by_cases hs : s < 257
    · rw [get_ftEntries ft hs, get_ftEntries ft' hs, h s hs]
    · rw [Table.get_of_ge (ftEntries_wf ft) (by omega), Table.get_of_ge (ftEntries_wf ft') (by omega)]

theorem ftEntries_length_le (ft : List (Nat × Count)) : (ftEntries ft).length ≤ 257 := by
  unfold ftEntries
  exact (List.length_filterMap_le _ _).trans (by simp [Config.nsym])

@[simp] theorem ftEntries_nil : ftEntries [] = [] := by
  rw [List.eq_nil_iff_forall_not_mem]
  rintro ⟨s, c⟩ h
  simpa using ((mem_ftEntries [] s c).1 h).2

/-! ### Codewords -/

/-- Writing a codeword of length 0 takes the entry out; any other is written. -/
theorem codeStore_of_ne_nil (codes : List (Nat × List Bool)) (sym : Nat) {bits : List Bool} (h : bits ≠ []) :
    codeStore codes sym bits = Table.set codes sym bits := by
  cases bits with
  | nil => exact absurd rfl h
  | cons b bs => rfl

theorem codeStore_wf {codes : List (Nat × List Bool)} {sym : Nat} (bits : List Bool) (h : Table.wf codes = true)
    (hs : sym < 257) : Table.wf (codeStore codes sym bits) = true := by
  unfold codeStore
  split
  · exact Table.wf_erase _ h
  · exact Table.wf_set _ h hs

end Sys2Proof.Machine
end

