-- ==== Sys2Proof/Laws/Tree.lean ====
section
/-!
SUPPORT. What BUILD makes: the merge loop keeps its invariant, and the tree it ends with is the greedy one
(41_tree_builder.md R141 to R145).
-/

namespace Sys2Proof.Machine

/-! ### The order of the priority collection -/

theorem keyLt_iff (a b : Nat × Nat) : keyLt a b = true ↔ keyBefore a b := by simp [keyLt, keyBefore]

theorem keyBefore_total {a b : Nat × Nat} (h : a ≠ b) : keyBefore a b ∨ keyBefore b a := by
  unfold keyBefore
  by_contra hc
  apply h
  ext <;> omega

theorem keyBefore_trans {a b c : Nat × Nat} (h : keyBefore a b) (h' : keyBefore b c) : keyBefore a c := by
  unfold keyBefore at *
  omega

theorem keyBefore_irrefl (a : Nat × Nat) : ¬ keyBefore a a := by
  unfold keyBefore
  omega

theorem leastKey_spec (q : List (Nat × Nat)) : ∀ m, leastKey m q ∈ m :: q ∧
    ∀ x ∈ m :: q, x = leastKey m q ∨ keyBefore (leastKey m q) x := by
  induction q with
  | nil => simp [leastKey]
  | cons e q ih =>
    intro m
    obtain ⟨hmem, hle⟩ := ih (if keyLt e m then e else m)
    have heq : leastKey m (e :: q) = leastKey (if keyLt e m then e else m) q := rfl
    rw [heq]
    have hc : (if keyLt e m then e else m) = e ∨ (if keyLt e m then e else m) = m := by split <;> simp
    refine ⟨?_, fun x hx => ?_⟩
    · rcases List.mem_cons.1 hmem with h | h
      · rw [h]
        rcases hc with hc | hc <;> rw [hc] <;> simp
      · exact List.mem_cons_of_mem _ (List.mem_cons_of_mem _ h)
    · have hhead := hle _ List.mem_cons_self
      have key : ∀ y, (y = (if keyLt e m then e else m) ∨ keyBefore (if keyLt e m then e else m) y) →
          y = leastKey (if keyLt e m then e else m) q ∨ keyBefore (leastKey (if keyLt e m then e else m) q) y := by
        rintro y (hy | hy)
        · rw [hy]
          exact hhead
        · rcases hhead with hh | hh
          · rw [← hh]
            exact .inr hy
          · exact .inr (keyBefore_trans hh hy)
      rcases List.mem_cons.1 hx with rfl | hx
      · apply key
        by_cases hk : keyLt e x = true
        · rw [if_pos hk]
          exact .inr ((keyLt_iff _ _).1 hk)
        · rw [if_neg hk]
          exact .inl rfl
      · rcases List.mem_cons.1 hx with rfl | hx
        · apply key
          by_cases hk : keyLt x m = true
          · rw [if_pos hk]
            exact .inl rfl
          · rw [if_neg hk]
            by_cases hxm : x = m
            · exact .inl hxm
            · rcases keyBefore_total hxm with h | h
              · exact absurd ((keyLt_iff _ _).2 h) hk
              · exact .inr h
        · exact hle x (List.mem_cons_of_mem _ hx)

/-- All `ExtractMin()` can do (41_tree_builder.md R142). -/
theorem extractMin_spec {q : List (Nat × Nat)} (h : q ≠ []) :
    ∃ m, extractMin q = some (m, q.erase m) ∧ m ∈ q ∧ ∀ x ∈ q, x = m ∨ keyBefore m x := by
  cases q with
  | nil => exact absurd rfl h
  | cons e q =>
    obtain ⟨h1, h2⟩ := leastKey_spec q e
    exact ⟨leastKey e q, rfl, h1, h2⟩

/-! ### Slots added at the end change nothing below them -/

theorem nodeKey_append {nodes : List Node} {h : Nat} (n : Node) (hh : h < nodes.length) :
    nodeKey (nodes ++ [n]) h = nodeKey nodes h := by
  simp [nodeKey, List.getElem?_append_left hh]

theorem inCollection_append {nodes : List Node} {h : Nat} (n : Node) (hh : h ≤ nodes.length) (x : Nat) :
    inCollection (nodes ++ [n]) h x ↔ inCollection nodes h x := by
  unfold inCollection
  constructor
  · rintro ⟨hx, hf⟩
    exact ⟨hx, fun g m hg hm => hf g m hg (by rw [List.getElem?_append_left (by omega)]; exact hm)⟩
  · rintro ⟨hx, hf⟩
    exact ⟨hx, fun g m hg hm => hf g m hg (by rw [List.getElem?_append_left (by omega)] at hm; exact hm)⟩

theorem mergesTwoLeast_append {nodes : List Node} {h : Nat} (n : Node) (hh : h < nodes.length)
    (hm : mergesTwoLeast nodes h) : mergesTwoLeast (nodes ++ [n]) h := by
  obtain ⟨m, h1, h2, h3, h4, h5, h6, h7, h8, h9⟩ := hm
  have hk : ∀ x, x < h → nodeKey (nodes ++ [n]) x = nodeKey nodes x := fun x hx => nodeKey_append n (by omega)
  have hc := fun x => inCollection_append (nodes := nodes) (h := h) n hh.le x
  refine ⟨m, by rw [List.getElem?_append_left hh]; exact h1, h2, h3, (hc _).2 h4, (hc _).2 h5, h6, ?_, ?_, ?_⟩
  · intro x hx hne
    have hx' := (hc x).1 hx
    rw [hk _ h4.1, hk _ hx'.1]
    exact h7 x hx' hne
  · intro x hx hne hne'
    have hx' := (hc x).1 hx
    rw [hk _ h5.1, hk _ hx'.1]
    exact h8 x hx' hne hne'
  · rw [hk _ h4.1, hk _ h5.1]
    exact h9

/-! ### The invariant of the merge loop -/

/-- The sum of the counts of a table's entries. -/
def totalCount (es : List (Nat × Count)) : Nat := (es.map fun e => e.2.toNat).sum

theorem totalCount_lt {es : List (Nat × Count)} (h : es.length ≤ 257) : totalCount es < 2 ^ 41 := by
  have : totalCount es ≤ es.length * 4294967295 := by
    unfold totalCount
    clear h
    induction es with
    | nil => simp
    | cons e es ih =>
      have he : e.2.toNat < 2 ^ 32 := e.2.isLt
      simp only [List.map_cons, List.sum_cons, List.length_cons]
      omega
  omega

/-- What holds of the nodes and the collection between merges (41_tree_builder.md R142, R143). -/
structure Merged (es : List (Nat × Count)) (nodes : List Node) (pq : List (Nat × Nat)) : Prop where
  len : pq.length + nodes.length = 2 * es.length
  le : es.length ≤ nodes.length
  leaf : ∀ (h sym : Nat) (c : Count), es[h]? = some (sym, c) → nodes[h]? = some (leafNode sym c)
  nodup : pq.Nodup
  mem : ∀ x, x ∈ pq ↔ inCollection nodes nodes.length x.2 ∧ x = nodeKey nodes x.2
  sum : (pq.map Prod.fst).sum = totalCount es
  merges : ∀ h, es.length ≤ h → h < nodes.length → mergesTwoLeast nodes h

@[simp] theorem leaves_length (es : List (Nat × Count)) : (leaves es).length = es.length := by simp [leaves]

@[simp] theorem leafNode_freq (sym : Nat) (c : Count) : (leafNode sym c).freq.toNat = c.toNat := by
  have : c.toNat < 2 ^ 32 := c.isLt
  simp [leafNode]
  omega

/-- The collection before the first merge is all the leaves. -/
theorem merged_leaves (es : List (Nat × Count)) : Merged es (leaves es) (leafQueue es) := by
  have hget : ∀ h : Nat, (leaves es)[h]? = (es[h]?).map fun e => leafNode e.1 e.2 := fun h => by simp [leaves]
  have hq : ∀ h : Nat, (leafQueue es)[h]? = (es[h]?).map fun e => (e.2.toNat, h) := fun h => by simp [leafQueue]
  refine ⟨by simp [leafQueue]; omega, by simp, ?_, ?_, ?_, ?_, ?_⟩
  · intro h sym c he
    rw [hget, he]
    rfl
  · rw [List.nodup_iff_getElem?_ne_getElem?]
    intro i j hij hj
    rw [hq, hq]
    simp [leafQueue] at hj
    rw [List.getElem?_eq_getElem (by omega), List.getElem?_eq_getElem hj]
    simp
    omega
  · intro x
    have hleaf : ∀ (g : Nat) (n : Node), (leaves es)[g]? = some n → n.leaf = true := by
      intro g n hn
      rw [hget] at hn
      simp only [Option.map_eq_some_iff] at hn
      obtain ⟨e, -, rfl⟩ := hn
      rfl
    constructor
    · intro hx
      obtain ⟨h, hh⟩ := List.mem_iff_getElem?.1 hx
      rw [hq] at hh
      simp only [Option.map_eq_some_iff] at hh
      obtain ⟨e, he, rfl⟩ := hh
      have hlt : h < es.length := (List.getElem?_eq_some_iff.1 he).1
      refine ⟨⟨by simpa using hlt, fun g n _ hn hf => ?_⟩, ?_⟩
      · rw [hleaf g n hn] at hf
        simp at hf
      · simp [nodeKey, hget, he]
    · rintro ⟨⟨hlt, -⟩, hk⟩
      rw [leaves_length] at hlt
      rw [List.mem_iff_getElem?]
      refine ⟨x.2, ?_⟩
      have hx : nodeKey (leaves es) x.2 = ((es[x.2]'hlt).2.toNat, x.2) := by
        simp [nodeKey, hget, List.getElem?_eq_getElem hlt]
      rw [hq, List.getElem?_eq_getElem hlt, Option.map_some, ← hx, ← hk]
  · unfold totalCount
    congr 1
    apply List.ext_getElem?
    intro h
    simp [hq]
    cases es[h]? <;> rfl
  · intro h h1 h2
    simp at h2
    omega

theorem sum_erase {l : List (Nat × Nat)} {a : Nat × Nat} (h : a ∈ l) :
    a.1 + ((l.erase a).map Prod.fst).sum = (l.map Prod.fst).sum := by
  have := ((List.perm_cons_erase h).map Prod.fst).sum_eq
  simpa using this.symm

/-- One merge keeps the invariant (41_tree_builder.md R143). -/
theorem Merged.step {es : List (Nat × Count)} {nodes : List Node} {pq : List (Nat × Nat)} (h : Merged es nodes pq)
    (hes : es.length ≤ 257) (hpq : 2 ≤ pq.length) :
    ∃ a b pq', extractMin pq = some (a, pq.erase a) ∧ extractMin (pq.erase a) = some (b, pq') ∧
      Merged es (nodes ++ [internalNode (a.1 + b.1) (handleOf a.2) (handleOf b.2)])
        ((a.1 + b.1, nodes.length) :: pq') := by
  obtain ⟨a, hea, hain, hamin⟩ := extractMin_spec (q := pq) (by rintro rfl; simp at hpq)
  have hlen1 : (pq.erase a).length = pq.length - 1 := List.length_erase_of_mem hain
  obtain ⟨b, heb, hbin, hbmin⟩ := extractMin_spec (q := pq.erase a) (by intro hc; rw [hc] at hlen1; simp at hlen1; omega)
  have hlen2 : ((pq.erase a).erase b).length = pq.length - 2 := by
    rw [List.length_erase_of_mem hbin]
    omega
  have hnd1 : (pq.erase a).Nodup := h.nodup.erase a
  have hbpq : b ∈ pq := List.mem_of_mem_erase hbin
  have hab : b ≠ a := by
    rintro rfl
    exact (h.nodup.not_mem_erase) hbin
  obtain ⟨hca, hka⟩ := (h.mem a).1 hain
  obtain ⟨hcb, hkb⟩ := (h.mem b).1 hbpq
  have hab2 : b.2 ≠ a.2 := fun hc => hab (by rw [hkb, hka, hc])
  have hlen := h.len
  have hale : a.2 < 513 := by have := hca.1; omega
  have hble : b.2 < 513 := by have := hcb.1; omega
  have hna : (handleOf a.2).toNat = a.2 := by simp [handleOf]; omega
  have hnb : (handleOf b.2).toNat = b.2 := by simp [handleOf]; omega
  have hsum1 := sum_erase hain
  have hsum2 := sum_erase hbin
  have hsum := h.sum
  have hfit : a.1 + b.1 < 2 ^ 41 := by have := totalCount_lt hes; omega
  set new := internalNode (a.1 + b.1) (handleOf a.2) (handleOf b.2) with hnew
  have hnfreq : new.freq.toNat = a.1 + b.1 := by simp [hnew, internalNode]; omega
  have hlast : (nodes ++ [new])[nodes.length]? = some new := by simp
  refine ⟨a, b, (pq.erase a).erase b, hea, heb, ?_⟩
  have hkeylast : nodeKey (nodes ++ [new]) nodes.length = (a.1 + b.1, nodes.length) := by
    simp [nodeKey, hnfreq]
  have hcol : ∀ x, inCollection (nodes ++ [new]) (nodes.length + 1) x ↔
      x = nodes.length ∨ (inCollection nodes nodes.length x ∧ x ≠ a.2 ∧ x ≠ b.2) := by
    intro x
    constructor
    · rintro ⟨hx, hf⟩
      by_cases hxl : x = nodes.length
      · exact .inl hxl
      · right
        have h1 := hf nodes.length new (by omega) hlast rfl
        refine ⟨⟨by omega, fun g n hg hn => hf g n (by omega) (by rw [List.getElem?_append_left hg]; exact hn)⟩, ?_, ?_⟩
        · intro hxa
          exact h1.1 (by rw [hxa]; exact hna)
        · intro hxb
          exact h1.2 (by rw [hxb]; exact hnb)
    · rintro (rfl | ⟨⟨hx, hf⟩, hxa, hxb⟩)
      · refine ⟨by omega, fun g n hg hn hlf => ?_⟩
        by_cases hgl : g = nodes.length
        · subst hgl
          rw [hlast] at hn
          cases hn
          refine ⟨?_, ?_⟩
          · rw [hnew]
            show (handleOf a.2).toNat ≠ _
            rw [hna]
            exact hca.1.ne
          · rw [hnew]
            show (handleOf b.2).toNat ≠ _
            rw [hnb]
            exact hcb.1.ne
        · have hgl' : g < nodes.length := by omega
          rw [List.getElem?_append_left hgl'] at hn
          by_cases hge : es.length ≤ g
          · obtain ⟨m, hm, -, -, hm0, hm1, -⟩ := h.merges g hge hgl'
            rw [hn] at hm
            cases hm
            have := hm0.1
            have := hm1.1
            omega
          · have hle := h.leaf g (es[g]'(by omega)).1 (es[g]'(by omega)).2 (List.getElem?_eq_getElem (by omega))
            rw [hn] at hle
            cases hle
            simp [leafNode] at hlf
      · refine ⟨by omega, fun g n hg hn hlf => ?_⟩
        by_cases hgl : g = nodes.length
        · subst hgl
          rw [hlast] at hn
          cases hn
          refine ⟨?_, ?_⟩
          · show (handleOf a.2).toNat ≠ _
            rw [hna]
            exact hxa.symm
          · show (handleOf b.2).toNat ≠ _
            rw [hnb]
            exact hxb.symm
        · have hgl' : g < nodes.length := by omega
          rw [List.getElem?_append_left hgl'] at hn
          exact hf g n hgl' hn hlf
  have hmin : ∀ x, inCollection nodes nodes.length x → x ≠ a.2 → keyBefore (nodeKey nodes a.2) (nodeKey nodes x) := by
    intro x hx hxa
    have hin : nodeKey nodes x ∈ pq := (h.mem _).2 ⟨hx, rfl⟩
    rcases hamin _ hin with he | he
    · exact absurd (congrArg Prod.snd he) hxa
    · rw [← hka]
      exact he
  have hmin2 : ∀ x, inCollection nodes nodes.length x → x ≠ a.2 → x ≠ b.2 →
      keyBefore (nodeKey nodes b.2) (nodeKey nodes x) := by
    intro x hx hxa hxb
    have hin : nodeKey nodes x ∈ pq := (h.mem _).2 ⟨hx, rfl⟩
    have hin' : nodeKey nodes x ∈ pq.erase a :=
      (List.mem_erase_of_ne fun hc => hxa (congrArg Prod.snd hc)).2 hin
    rcases hbmin _ hin' with he | he
    · exact absurd (congrArg Prod.snd he) hxb
    · rw [← hkb]
      exact he
  refine ⟨by simp [hlen2]; omega, by simp; have := h.le; omega, ?_, ?_, ?_, ?_, ?_⟩
  · intro g sym c hg
    have hlt : g < es.length := (List.getElem?_eq_some_iff.1 hg).1
    rw [List.getElem?_append_left (by have := h.le; omega)]
    exact h.leaf g sym c hg
  · refine List.nodup_cons.2 ⟨fun hc => ?_, hnd1.erase b⟩
    have := ((h.mem _).1 (List.mem_of_mem_erase (List.mem_of_mem_erase hc))).1.1
    simp at this
  · intro x
    rw [List.length_append, List.length_singleton, hcol]
    constructor
    · intro hx
      rcases List.mem_cons.1 hx with rfl | hx
      · exact ⟨.inl rfl, hkeylast.symm⟩
      · have hx1 := List.mem_of_mem_erase hx
        have hx2 := List.mem_of_mem_erase hx1
        obtain ⟨hc, hk⟩ := (h.mem x).1 hx2
        refine ⟨.inr ⟨hc, fun he => ?_, fun he => ?_⟩, ?_⟩
        · apply h.nodup.not_mem_erase (a := a)
          rw [show a = x by rw [hka, hk, he]] at hx1 ⊢
          exact hx1
        · apply hnd1.not_mem_erase (a := b)
          rw [show b = x by rw [hkb, hk, he]] at hx ⊢
          exact hx
        · rw [nodeKey_append _ hc.1]
          exact hk
    · rintro ⟨he | ⟨hc, hxa, hxb⟩, hk⟩
      · rw [he] at hk
        rw [hk, hkeylast]
        exact List.mem_cons_self
      · rw [nodeKey_append _ hc.1] at hk
        have hin : x ∈ pq := (h.mem x).2 ⟨hc, hk⟩
        refine List.mem_cons_of_mem _ ?_
        refine (List.mem_erase_of_ne fun he => hxb (by rw [he])).2 ?_
        exact (List.mem_erase_of_ne fun he => hxa (by rw [he])).2 hin
  · simp only [List.map_cons, List.sum_cons]
    omega
  · intro g hg hgl
    rw [List.length_append, List.length_singleton] at hgl
    by_cases hge : g = nodes.length
    · subst hge
      have hcc := fun x => inCollection_append (nodes := nodes) (h := nodes.length) new le_rfl x
      have h0 : new.c0.toNat = a.2 := hna
      have h1 : new.c1.toNat = b.2 := hnb
      refine ⟨new, hlast, rfl, rfl, ?_, ?_, ?_, ?_, ?_, ?_⟩
      · rw [hcc, h0]
        exact hca
      · rw [hcc, h1]
        exact hcb
      · intro hc
        apply hab2
        rw [← h0, ← h1, hc]
      · intro x hx hxa
        rw [hcc] at hx
        rw [h0] at hxa ⊢
        rw [nodeKey_append _ hca.1, nodeKey_append _ hx.1]
        exact hmin x hx hxa
      · intro x hx hxa hxb
        rw [hcc] at hx
        rw [h0] at hxa
        rw [h1] at hxb ⊢
        rw [nodeKey_append _ hcb.1, nodeKey_append _ hx.1]
        exact hmin2 x hx hxa hxb
      · rw [h0, h1, nodeKey_append _ hca.1, nodeKey_append _ hcb.1, ← hka, ← hkb, hnfreq]
    · exact mergesTwoLeast_append _ (by omega) (h.merges g hg (by omega))

/-- The merge loop ends with the last merge, one handle left (41_tree_builder.md R144). -/
theorem mergeLoop_spec {es : List (Nat × Count)} (hes : es.length ≤ 257) :
    ∀ (k : Nat) (nodes : List Node) (pq : List (Nat × Nat)), Merged es nodes pq → 1 ≤ pq.length → pq.length ≤ k + 1 →
      ∃ x, Merged es (mergeLoop k nodes pq) [x] := by
  intro k
  induction k with
  | zero =>
    intro nodes pq h h1 hk
    obtain ⟨x, rfl⟩ := List.length_eq_one_iff.1 (show pq.length = 1 by omega)
    exact ⟨x, h⟩
  | succ k ih =>
    intro nodes pq h h1 hk
    by_cases h2 : 2 ≤ pq.length
    · obtain ⟨a, b, pq', ha, hb, hm⟩ := h.step hes h2
      have hl : ((a.1 + b.1, nodes.length) :: pq').length + 1 = pq.length := by
        have h3 := h.len
        have h4 := hm.len
        simp only [List.length_append, List.length_singleton] at h4
        omega
      simp only [mergeLoop, ha, hb]
      exact ih _ _ hm (by simp) (by omega)
    · obtain ⟨x, rfl⟩ := List.length_eq_one_iff.1 (show pq.length = 1 by omega)
      refine ⟨x, ?_⟩
      have he : extractMin [x] = some (x, []) := by simp [extractMin, leastKey]
      have hn : extractMin [] = none := rfl
      simpa only [mergeLoop, he, hn] using h

/-! ### The tree BUILD makes -/

/-- The greedy tree of a table with two entries or more (41_tree_builder.md R141 to R144). -/
structure GreedyTree (es : List (Nat × Count)) (nodes : List Node) : Prop where
  len : nodes.length + 1 = 2 * es.length
  leaf : ∀ (h sym : Nat) (c : Count), es[h]? = some (sym, c) → nodes[h]? = some (leafNode sym c)
  merges : ∀ h, es.length ≤ h → h < nodes.length → mergesTwoLeast nodes h
  last : ∀ x, inCollection nodes nodes.length x ↔ x = nodes.length - 1
  sum : (nodeKey nodes (nodes.length - 1)).1 = totalCount es

/-- All BUILD's tree can be (41_tree_builder.md R140). -/
theorem buildTree_spec (es : List (Nat × Count)) (hes : es.length ≤ 257) :
    (es = [] ∧ buildTree es = none) ∨
    (∃ sym c, es = [(sym, c)] ∧
      buildTree es = some ([leafNode sym c, internalNode c.toNat (handleOf 0) Config.nil], handleOf 1)) ∨
    (2 ≤ es.length ∧ ∃ nodes, buildTree es = some (nodes, handleOf (2 * es.length - 2)) ∧ GreedyTree es nodes) := by
  match es, hes with
  | [], _ => exact .inl ⟨rfl, rfl⟩
  | [(sym, c)], _ => exact .inr (.inl ⟨sym, c, rfl, rfl⟩)
  | e :: e' :: es, hes =>
    right
    right
    refine ⟨by simp, ?_⟩
    obtain ⟨x, hx⟩ := mergeLoop_spec hes (e :: e' :: es).length _ _ (merged_leaves (e :: e' :: es))
      (by simp [leafQueue]) (by simp [leafQueue])
    have hlen := hx.len
    simp only [List.length_singleton] at hlen
    refine ⟨mergeLoop (e :: e' :: es).length (leaves (e :: e' :: es)) (leafQueue (e :: e' :: es)), ?_, ?_⟩
    · unfold buildTree
      simp only
      rw [show 2 * (e :: e' :: es).length - 2 =
        (mergeLoop (e :: e' :: es).length (leaves (e :: e' :: es)) (leafQueue (e :: e' :: es))).length - 1 by omega]
    · generalize mergeLoop (e :: e' :: es).length (leaves (e :: e' :: es)) (leafQueue (e :: e' :: es)) = nodes at *
      have hge : (e :: e' :: es).length ≤ nodes.length - 1 := by simp only [List.length_cons] at *; omega
      obtain ⟨hcx, hkx⟩ := (hx.mem x).1 (by simp)
      have hroot : inCollection nodes nodes.length (nodes.length - 1) := by
        refine ⟨by omega, fun g n hg hn hlf => ?_⟩
        by_cases hge' : (e :: e' :: es).length ≤ g
        · obtain ⟨m, hm, -, -, hm0, hm1, -⟩ := hx.merges g hge' hg
          rw [hn] at hm
          cases hm
          have := hm0.1
          have := hm1.1
          omega
        · have hle := hx.leaf g _ _ (List.getElem?_eq_getElem (show g < (e :: e' :: es).length by omega))
          rw [hn] at hle
          cases hle
          simp [leafNode] at hlf
      have huniq : ∀ y, inCollection nodes nodes.length y → y = x.2 := fun y hy => by
        have := (hx.mem (nodeKey nodes y)).2 ⟨hy, rfl⟩
        rw [List.mem_singleton] at this
        exact congrArg Prod.snd this
      have hx2 := huniq _ hroot
      refine ⟨by omega, hx.leaf, hx.merges, fun y => ⟨fun hy => by rw [hx2]; exact huniq y hy, ?_⟩, ?_⟩
      · rintro rfl
        exact hroot
      · have := hx.sum
        simp only [List.map_cons, List.map_nil, List.sum_cons, List.sum_nil, Nat.add_zero] at this
        rw [hx2, ← hkx]
        exact this

end Sys2Proof.Machine
end

