-- ==== Sys2Proof/Laws/Paths.lean ====
section
/-!
SUPPORT. Every tree BUILD makes is a tree (10_state.md R29), and what the paths in one are (42_code_deriver.md R161, R163).
-/

namespace Sys2Proof.Machine

/-- Slot `g` is an internal node that has slot `x` as a child. -/
def takes (nodes : List Node) (g x : Nat) : Prop :=
  ∃ n, nodes[g]? = some n ∧ n.leaf = false ∧ (n.c0.toNat = x ∨ n.c1.toNat = x)

/-- 10_state.md R29, for the tree of the entries `es`. -/
structure TreeOk (es : List (Nat × Count)) (nodes : List Node) (root : Handle) : Prop where
  rootEq : root.toNat + 1 = nodes.length
  size : nodes.length ≤ 513
  depth : nodes.length ≤ es.length + 256
  internalRoot : es.length < nodes.length
  pair : es.length = 1 → nodes.length = 2
  leafAt : ∀ (h sym : Nat) (c : Count), es[h]? = some (sym, c) → nodes[h]? = some (leafNode sym c)
  internalAt : ∀ (h : Nat) (n : Node), nodes[h]? = some n → es.length ≤ h → n.leaf = false
  child : ∀ (h : Nat) (n : Node), nodes[h]? = some n → n.leaf = false →
    es.length ≤ h ∧ n.c0.toNat < h ∧ n.c0 ≠ n.c1 ∧ (n.c1 = Config.nil ∨ n.c1.toNat < h) ∧
      (n.c1 = Config.nil ↔ es.length = 1)
  parent : ∀ x, x < root.toNat → ∃ g, takes nodes g x
  unique : ∀ x g g', x < root.toNat → takes nodes g x → takes nodes g' x → g = g'
  sum : (nodeKey nodes root.toNat).1 = totalCount es

theorem toNat_nil : Config.nil.toNat = 1023 := rfl

theorem handleOf_toNat {n : Nat} (h : n < 1024) : (handleOf n).toNat = n := by simp [handleOf]; omega

theorem leafAt_of_lt {es : List (Nat × Count)} {nodes : List Node}
    (h : ∀ (h sym : Nat) (c : Count), es[h]? = some (sym, c) → nodes[h]? = some (leafNode sym c)) {g : Nat} {n : Node}
    (hn : nodes[g]? = some n) (hg : g < es.length) : n = leafNode (es[g]).1 (es[g]).2 := by
  have := h g _ _ (List.getElem?_eq_getElem hg)
  rw [hn] at this
  exact Option.some_inj.1 this

theorem GreedyTree.ok {es : List (Nat × Count)} {nodes : List Node} (h : GreedyTree es nodes) (h2 : 2 ≤ es.length)
    (hes : es.length ≤ 257) : TreeOk es nodes (handleOf (2 * es.length - 2)) := by
  have hlen := h.len
  have hroot : (handleOf (2 * es.length - 2)).toNat = 2 * es.length - 2 := handleOf_toNat (by omega)
  have hint : ∀ (g : Nat) (n : Node), nodes[g]? = some n → n.leaf = false → es.length ≤ g := by
    intro g n hn hl
    by_contra hc
    rw [leafAt_of_lt h.leaf hn (by omega)] at hl
    simp [leafNode] at hl
  have hmerge : ∀ (g : Nat) (n : Node), nodes[g]? = some n → n.leaf = false →
      inCollection nodes g n.c0.toNat ∧ inCollection nodes g n.c1.toNat ∧ n.c0 ≠ n.c1 := by
    intro g n hn hl
    obtain ⟨m, hm, -, -, h0, h1, hne, -⟩ := h.merges g (hint g n hn hl) (List.getElem?_eq_some_iff.1 hn).1
    rw [hn] at hm
    cases hm
    exact ⟨h0, h1, hne⟩
  have hearlier : ∀ x g g', takes nodes g x → takes nodes g' x → ¬ g < g' := by
    rintro x g g' ⟨n, hn, hl, hc⟩ ⟨n', hn', hl', hc'⟩ hlt
    obtain ⟨h0, h1, -⟩ := hmerge g' n' hn' hl'
    rcases hc' with hc' | hc' <;> subst hc'
    · have := h0.2 g n hlt hn hl
      omega
    · have := h1.2 g n hlt hn hl
      omega
  refine ⟨by omega, by omega, by omega, by omega, by omega, h.leaf, ?_, ?_, ?_, ?_, ?_⟩
  · intro g n hn hg
    obtain ⟨m, hm, hl, -⟩ := h.merges g hg (List.getElem?_eq_some_iff.1 hn).1
    rw [hn] at hm
    cases hm
    exact hl
  · intro g n hn hl
    obtain ⟨h0, h1, hne⟩ := hmerge g n hn hl
    have hg : g < nodes.length := (List.getElem?_eq_some_iff.1 hn).1
    have := h1.1
    refine ⟨hint g n hn hl, h0.1, hne, .inr h1.1, ?_⟩
    constructor
    · intro hc
      rw [hc, toNat_nil] at this
      omega
    · omega
  · intro x hx
    by_contra hc
    have : inCollection nodes nodes.length x := by
      refine ⟨by omega, fun g n hg hn hl => ?_⟩
      constructor <;> intro hx' <;> exact hc ⟨g, n, hn, hl, by simp [hx']⟩
    rw [h.last] at this
    omega
  · intro x g g' _ ht ht'
    have h1 := hearlier x g g' ht ht'
    have h2 := hearlier x g' g ht' ht
    omega
  · rw [hroot, show 2 * es.length - 2 = nodes.length - 1 by omega]
    exact h.sum

theorem degenerate_ok (sym : Nat) (c : Count) :
    TreeOk [(sym, c)] [leafNode sym c, internalNode c.toNat (handleOf 0) Config.nil] (handleOf 1) := by
  have hint : ∀ (g : Nat) (n : Node),
      [leafNode sym c, internalNode c.toNat (handleOf 0) Config.nil][g]? = some n → n.leaf = false →
      g = 1 ∧ n = internalNode c.toNat (handleOf 0) Config.nil := by
    intro g n hn hl
    match g with
    | 0 =>
      cases hn
      simp [leafNode] at hl
    | 1 =>
      cases hn
      exact ⟨rfl, rfl⟩
    | g + 2 => simp at hn
  have h1 : (handleOf 1).toNat = 1 := rfl
  refine ⟨rfl, by simp, by simp, by simp, by simp, ?_, ?_, ?_, ?_, ?_, ?_⟩
  · intro h s d hd
    match h with
    | 0 =>
      cases hd
      rfl
    | h + 1 => simp at hd
  · intro g n hn hg
    match g with
    | 0 => simp at hg
    | 1 =>
      cases hn
      rfl
    | g + 2 => simp at hn
  · intro g n hn hl
    obtain ⟨rfl, rfl⟩ := hint g n hn hl
    exact ⟨le_refl 1, Nat.zero_lt_one, fun hc => absurd (congrArg BitVec.toNat hc) (by simp [internalNode, handleOf, toNat_nil]),
      .inl rfl, by simp [internalNode]⟩
  · intro x hx
    rw [h1] at hx
    obtain rfl : x = 0 := by omega
    exact ⟨1, _, rfl, rfl, .inl rfl⟩
  · rintro x g g' - ⟨n, hn, hl, -⟩ ⟨n', hn', hl', -⟩
    rw [(hint g n hn hl).1, (hint g' n' hn' hl').1]
  · have : c.toNat < 2 ^ 32 := c.isLt
    simp [nodeKey, h1, internalNode, totalCount]
    omega

/-- Every tree BUILD makes is a tree of its entries. -/
theorem buildTree_ok {es : List (Nat × Count)} {nodes : List Node} {root : Handle} (hes : es.length ≤ 257)
    (h : buildTree es = some (nodes, root)) : TreeOk es nodes root := by
  rcases buildTree_spec es hes with ⟨-, h0⟩ | ⟨sym, c, rfl, h1⟩ | ⟨h2, ns, h3, hg⟩
  · rw [h0] at h
    simp at h
  · rw [h1] at h
    cases h
    exact degenerate_ok sym c
  · rw [h3] at h
    cases h
    exact hg.ok h2 hes

/-- There is a tree exactly when there is an entry (41_tree_builder.md R147). -/
theorem buildTree_eq_none {es : List (Nat × Count)} (hes : es.length ≤ 257) : buildTree es = none ↔ es = [] := by
  rcases buildTree_spec es hes with ⟨h, h0⟩ | ⟨sym, c, rfl, h1⟩ | ⟨h2, ns, h3, -⟩
  · subst h
    simp [h0]
  · simp [h1]
  · simp only [h3, reduceCtorEq, false_iff]
    rintro rfl
    simp at h2

/-! ### Paths -/

theorem follow_cons (nodes : List Node) (h : Handle) (b : Bool) (bs : List Bool) {n : Node}
    (hn : nodes[h.toNat]? = some n) (hl : n.leaf = false) (hc : (if b then n.c1 else n.c0) ≠ Config.nil) :
    follow nodes h (b :: bs) = follow nodes (if b then n.c1 else n.c0) bs := by
  simp [follow, hn, hl, hc]

/-- All the first step of a path can be. -/
theorem follow_cons_some {nodes : List Node} {h x : Handle} {b : Bool} {bs : List Bool}
    (hf : follow nodes h (b :: bs) = some x) :
    ∃ n, nodes[h.toNat]? = some n ∧ n.leaf = false ∧ (if b then n.c1 else n.c0) ≠ Config.nil ∧
      follow nodes (if b then n.c1 else n.c0) bs = some x := by
  unfold follow at hf
  split at hf
  · simp at hf
  · rename_i n hn
    refine ⟨n, hn, ?_⟩
    by_cases hl : n.leaf = true
    · simp [hl] at hf
    · rw [if_neg hl] at hf
      by_cases hc : (if b then n.c1 else n.c0) = Config.nil
      · simp [hc] at hf
      · rw [if_neg hc] at hf
        exact ⟨by simpa using hl, hc, hf⟩

theorem follow_append (nodes : List Node) (p q : List Bool) :
    ∀ h, follow nodes h (p ++ q) = (follow nodes h p).bind fun x => follow nodes x q := by
  induction p with
  | nil => simp [follow]
  | cons b p ih =>
    intro h
    simp only [List.cons_append, follow]
    cases nodes[h.toNat]? with
    | none => rfl
    | some n =>
      simp only
      by_cases hl : n.leaf = true
      · simp [hl]
      · by_cases hc : (if b then n.c1 else n.c0) = Config.nil
        · simp [hl, hc]
        · simp only [if_neg hl, if_neg hc]
          exact ih _

/-- The bits lead from a handle to the leaf of a symbol. -/
def leafFrom (nodes : List Node) (h : Handle) (bits : List Bool) (sym : Nat) : Prop :=
  ∃ x n, follow nodes h bits = some x ∧ nodes[x.toNat]? = some n ∧ n.leaf = true ∧ n.sym.toNat = sym

theorem leafPath_iff (s : State) (bits : List Bool) (sym : Nat) :
    leafPath s bits sym ↔ leafFrom s.nodes s.root bits sym := Iff.rfl

namespace TreeOk

variable {es : List (Nat × Count)} {nodes : List Node} {root : Handle}

theorem root_lt (h : TreeOk es nodes root) : root.toNat < nodes.length := by
  have := h.rootEq
  omega

theorem root_ne_nil (h : TreeOk es nodes root) : root ≠ Config.nil := by
  rintro rfl
  have h1 := h.root_lt
  have h2 := h.size
  rw [toNat_nil] at h1
  omega

theorem root_internal (h : TreeOk es nodes root) : ∃ n, nodes[root.toNat]? = some n ∧ n.leaf = false := by
  have hr := h.root_lt
  have hi := h.internalRoot
  have he := h.rootEq
  exact ⟨nodes[root.toNat], List.getElem?_eq_getElem hr, h.internalAt _ _ (List.getElem?_eq_getElem hr) (by omega)⟩

/-- A slot is a leaf exactly when it is below the number of entries (10_state.md R29 (a), (b)). -/
theorem leaf_iff (h : TreeOk es nodes root) {g : Nat} {n : Node} (hn : nodes[g]? = some n) :
    n.leaf = true ↔ g < es.length := by
  constructor
  · intro hl
    by_contra hc
    rw [h.internalAt g n hn (by omega)] at hl
    simp at hl
  · intro hg
    rw [leafAt_of_lt h.leafAt hn hg]
    rfl

/-- A branch that is not empty leads to a lower slot in use. -/
theorem branch (h : TreeOk es nodes root) {g : Nat} {n : Node} (hn : nodes[g]? = some n) (hl : n.leaf = false) (b : Bool)
    (hc : (if b then n.c1 else n.c0) ≠ Config.nil) :
    (if b then n.c1 else n.c0).toNat < g ∧ takes nodes g (if b then n.c1 else n.c0).toNat := by
  obtain ⟨-, h0, -, h1, -⟩ := h.child g n hn hl
  cases b with
  | false => exact ⟨h0, n, hn, hl, .inl rfl⟩
  | true =>
    refine ⟨?_, n, hn, hl, .inr rfl⟩
    rcases h1 with h1 | h1
    · exact absurd h1 hc
    · exact h1

/-- A path goes down, one internal slot a bit. -/
theorem follow_le (h : TreeOk es nodes root) (p : List Bool) :
    ∀ {x y : Handle}, follow nodes x p = some y → y.toNat + p.length ≤ x.toNat ∧
      (p ≠ [] → es.length + p.length ≤ x.toNat + 1) := by
  induction p with
  | nil =>
    intro x y hf
    simp only [follow, Option.some.injEq] at hf
    subst hf
    simp
  | cons b p ih =>
    intro x y hf
    obtain ⟨n, hn, hl, hc, hf'⟩ := follow_cons_some hf
    have hb := (h.branch hn hl b hc).1
    obtain ⟨h1, h2⟩ := ih hf'
    have h3 := (h.child _ n hn hl).1
    refine ⟨by simp only [List.length_cons]; omega, fun _ => ?_⟩
    simp only [List.length_cons]
    by_cases hp : p = []
    · subst hp
      simp
      omega
    · have := h2 hp
      omega

/-- The last step of a path. -/
theorem follow_last {p : List Bool} {b : Bool} {x y : Handle} (hf : follow nodes x (p ++ [b]) = some y) :
    ∃ g n, follow nodes x p = some g ∧ nodes[g.toNat]? = some n ∧ n.leaf = false ∧ (if b then n.c1 else n.c0) = y ∧
      y ≠ Config.nil := by
  rw [follow_append, Option.bind_eq_some_iff] at hf
  obtain ⟨g, hg, hf⟩ := hf
  obtain ⟨n, hn, hl, hc, he⟩ := follow_cons_some hf
  simp only [follow, Option.some.injEq] at he
  exact ⟨g, n, hg, hn, hl, he, he ▸ hc⟩

/-- One path leads from the root to a slot (10_state.md R29 (e)). -/
theorem path_unique (h : TreeOk es nodes root) (p : List Bool) :
    ∀ {q : List Bool} {x : Handle}, follow nodes root p = some x → follow nodes root q = some x → p = q := by
  induction p using List.reverseRecOn with
  | nil =>
    intro q x hp hq
    simp only [follow, Option.some.injEq] at hp
    subst hp
    have := (h.follow_le q hq).1
    exact (List.eq_nil_of_length_eq_zero (by omega)).symm
  | append_singleton p b ih =>
    intro q x hp hq
    rcases List.eq_nil_or_concat q with rfl | ⟨q', b', rfl⟩
    · simp only [follow, Option.some.injEq] at hq
      subst hq
      have := (h.follow_le _ hp).1
      simp at this
    · rw [List.concat_eq_append] at hq ⊢
      obtain ⟨g, n, hg, hn, hl, hb, hx⟩ := follow_last hp
      obtain ⟨g', n', hg', hn', hl', hb', -⟩ := follow_last hq
      have hlt : x.toNat < root.toNat := by
        have := (h.follow_le _ hp).1
        simp at this
        omega
      have ht : takes nodes g.toNat x.toNat := by
        have := (h.branch hn hl b (by rw [hb]; exact hx)).2
        rwa [hb] at this
      have ht' : takes nodes g'.toNat x.toNat := by
        have := (h.branch hn' hl' b' (by rw [hb']; exact hx)).2
        rwa [hb'] at this
      have hgg : g = g' := BitVec.eq_of_toNat_eq (h.unique _ _ _ hlt ht ht')
      subst hgg
      rw [hn] at hn'
      cases hn'
      have hbb : b = b' := by
        have hne := (h.child _ n hn hl).2.2.1
        cases b <;> cases b' <;> simp_all
      rw [ih hg hg', hbb]

/-- A path leads from the root to every slot (42_code_deriver.md R163). -/
theorem path_exists (h : TreeOk es nodes root) :
    ∀ (k x : Nat), x + k = root.toNat → ∃ p, follow nodes root p = some (handleOf x) := by
  intro k
  induction k using Nat.strongRecOn with
  | ind k ih =>
    intro x hx
    have hsize := h.size
    have hr := h.rootEq
    by_cases hk : k = 0
    · refine ⟨[], ?_⟩
      simp only [follow, Option.some.injEq]
      apply BitVec.eq_of_toNat_eq
      rw [handleOf_toNat (by omega)]
      omega
    · obtain ⟨g, n, hn, hl, hc⟩ := h.parent x (by omega)
      have hglt := (List.getElem?_eq_some_iff.1 hn).1
      obtain ⟨-, h0, -, h1, -⟩ := h.child g n hn hl
      have hxg : x < g := by
        rcases hc with hc | hc
        · omega
        · rcases h1 with h1 | h1
          · rw [h1, toNat_nil] at hc
            omega
          · omega
      obtain ⟨p, hp⟩ := ih (root.toNat - g) (by omega) g (by omega)
      have hgn : (handleOf g).toNat = g := handleOf_toNat (by omega)
      have key : ∀ b : Bool, (if b then n.c1 else n.c0).toNat = x →
          follow nodes root (p ++ [b]) = some (handleOf x) := by
        intro b hb
        have hne : (if b then n.c1 else n.c0) ≠ Config.nil := by
          intro hnil
          rw [hnil, toNat_nil] at hb
          omega
        rw [follow_append, hp, Option.bind_some, follow_cons nodes _ b [] (by rw [hgn]; exact hn) hl hne]
        simp only [follow, Option.some.injEq]
        apply BitVec.eq_of_toNat_eq
        rw [handleOf_toNat (by omega), hb]
      rcases hc with hc | hc
      · exact ⟨p ++ [false], key false hc⟩
      · exact ⟨p ++ [true], key true hc⟩

/-! ### Leaves and symbols -/

/-- A path to a symbol's leaf ends at a slot whose entry is the symbol's. -/
theorem leafFrom_entry (h : TreeOk es nodes root) (hwf : Table.wf es = true) {x : Handle} {p : List Bool} {sym : Nat}
    (hl : leafFrom nodes x p sym) :
    ∃ y, follow nodes x p = some y ∧ ∃ hy : y.toNat < es.length, (es[y.toNat]).1 = sym := by
  obtain ⟨y, n, hf, hn, hlf, hs⟩ := hl
  have hy := (h.leaf_iff hn).1 hlf
  refine ⟨y, hf, hy, ?_⟩
  have := leafAt_of_lt h.leafAt hn hy
  have hlt := ((Table.wf_iff es).1 hwf).2 _ (List.getElem_mem hy)
  rw [this] at hs
  simp only [leafNode, BitVec.toNat_ofNat] at hs
  omega

theorem leafFrom_get (h : TreeOk es nodes root) (hwf : Table.wf es = true) {x : Handle} {p : List Bool} {sym : Nat}
    (hl : leafFrom nodes x p sym) : ∃ c, Table.get es sym = some c := by
  obtain ⟨y, -, hy, hs⟩ := h.leafFrom_entry hwf hl
  refine ⟨(es[y.toNat]).2, (Table.mem_iff_get hwf _ _).1 ?_⟩
  rw [← hs]
  exact List.getElem_mem hy

/-- Every symbol of the table has one codeword (42_code_deriver.md R163). -/
theorem leafFrom_exists (h : TreeOk es nodes root) (hwf : Table.wf es = true) {sym : Nat} {c : Count}
    (hg : Table.get es sym = some c) : ∃ p, leafFrom nodes root p sym := by
  obtain ⟨i, hi⟩ := List.mem_iff_getElem?.1 (Table.mem_of_get hg)
  have hlt := (List.getElem?_eq_some_iff.1 hi).1
  have hint := h.internalRoot
  have hre := h.rootEq
  have hsize := h.size
  obtain ⟨p, hp⟩ := h.path_exists (root.toNat - i) i (by omega)
  have hsym := ((Table.wf_iff es).1 hwf).2 _ (Table.mem_of_get hg)
  refine ⟨p, handleOf i, leafNode sym c, hp, ?_, rfl, ?_⟩
  · rw [handleOf_toNat (by omega)]
    exact h.leafAt i sym c hi
  · simp only [leafNode, BitVec.toNat_ofNat]
    simp at hsym
    omega

theorem leafFrom_unique (h : TreeOk es nodes root) (hwf : Table.wf es = true) {p q : List Bool} {sym : Nat}
    (hp : leafFrom nodes root p sym) (hq : leafFrom nodes root q sym) : p = q := by
  obtain ⟨x, hfx, hx, hsx⟩ := h.leafFrom_entry hwf hp
  obtain ⟨y, hfy, hy, hsy⟩ := h.leafFrom_entry hwf hq
  have hxy : x.toNat = y.toNat := by
    have hpw := ((Table.wf_iff es).1 hwf).1
    rw [List.pairwise_iff_getElem] at hpw
    rcases Nat.lt_trichotomy x.toNat y.toNat with hlt | heq | hlt
    · have := hpw _ _ hx hy hlt
      omega
    · exact heq
    · have := hpw _ _ hy hx hlt
      omega
  rw [BitVec.eq_of_toNat_eq hxy] at hfx
  exact h.path_unique p hfx hfy

/-- A codeword has 1 to 256 bits (41_tree_builder.md R146). -/
theorem leafFrom_length (h : TreeOk es nodes root) (hwf : Table.wf es = true) {p : List Bool} {sym : Nat}
    (hp : leafFrom nodes root p sym) : 1 ≤ p.length ∧ p.length ≤ 256 := by
  obtain ⟨x, hfx, hx, -⟩ := h.leafFrom_entry hwf hp
  have hi := h.internalRoot
  have hr := h.rootEq
  have hd := h.depth
  obtain ⟨h1, h2⟩ := h.follow_le p hfx
  have hne : p ≠ [] := by
    rintro rfl
    simp only [follow, Option.some.injEq] at hfx
    subst hfx
    omega
  have := h2 hne
  have := List.length_pos_iff.2 hne
  omega

/-- No codeword is a prefix of another (42_code_deriver.md R163). -/
theorem leafFrom_prefix {p q : List Bool} {sym sym' : Nat} (hp : leafFrom nodes root p sym)
    (hq : leafFrom nodes root q sym') (hpq : p <+: q) : sym = sym' := by
  obtain ⟨r, rfl⟩ := hpq
  obtain ⟨x, n, hfx, hn, hl, hs⟩ := hp
  obtain ⟨y, m, hfy, hm, -, hs'⟩ := hq
  rw [follow_append, hfx, Option.bind_some] at hfy
  cases r with
  | nil =>
    simp only [follow, Option.some.injEq] at hfy
    subst hfy
    rw [hn] at hm
    cases hm
    rw [← hs, ← hs']
  | cons b r =>
    obtain ⟨k, hk, hkl, -⟩ := follow_cons_some hfy
    rw [hn] at hk
    cases hk
    rw [hl] at hkl
    simp at hkl

/-! ### The walk of CODES -/

theorem not_leafFrom_nil (h : TreeOk es nodes root) (bits : List Bool) (sym : Nat) :
    ¬ leafFrom nodes Config.nil bits sym := by
  have hsize := h.size
  have hnone : nodes[Config.nil.toNat]? = none := by
    rw [List.getElem?_eq_none_iff, toNat_nil]
    omega
  rintro ⟨x, n, hf, hn, -⟩
  cases bits with
  | nil =>
    simp only [follow, Option.some.injEq] at hf
    subst hf
    rw [hnone] at hn
    simp at hn
  | cons b bs =>
    obtain ⟨m, hm, -⟩ := follow_cons_some hf
    rw [hnone] at hm
    simp at hm

/-- The leaves below an internal node are those below its two branches. -/
theorem leafFrom_internal (h : TreeOk es nodes root) {x : Handle} {n : Node} (hn : nodes[x.toNat]? = some n)
    (hl : n.leaf = false) (bits : List Bool) (sym : Nat) :
    leafFrom nodes x bits sym ↔ ∃ b bs, bits = b :: bs ∧ leafFrom nodes (if b then n.c1 else n.c0) bs sym := by
  constructor
  · rintro ⟨y, m, hf, hm, hml, hs⟩
    cases bits with
    | nil =>
      simp only [follow, Option.some.injEq] at hf
      subst hf
      rw [hn] at hm
      cases hm
      rw [hl] at hml
      simp at hml
    | cons b bs =>
      obtain ⟨k, hk, -, hc, hf⟩ := follow_cons_some hf
      rw [hn] at hk
      cases hk
      exact ⟨b, bs, rfl, y, m, hf, hm, hml, hs⟩
  · rintro ⟨b, bs, rfl, hlf⟩
    have hc : (if b then n.c1 else n.c0) ≠ Config.nil := by
      intro hc
      rw [hc] at hlf
      exact h.not_leafFrom_nil bs sym hlf
    obtain ⟨y, m, hf, hm⟩ := hlf
    exact ⟨y, m, by rw [follow_cons nodes x b bs hn hl hc]; exact hf, hm⟩

/-- All `Walk` can do (42_code_deriver.md R160): it writes, for every leaf below the handle, the path that leads there. -/
theorem walk_spec (h : TreeOk es nodes root) (hwf : Table.wf es = true) :
    ∀ (k : Nat) (x : Handle) (path : List Bool) (codes : List (Nat × List Bool)), Table.wf codes = true →
      (x = Config.nil ∨ (x.toNat < es.length ∧ 1 ≤ k ∧ path ≠ []) ∨
        (es.length ≤ x.toNat ∧ x.toNat < nodes.length ∧ x.toNat + 2 ≤ es.length + k)) →
      (∀ bits bits' sym, leafFrom nodes x bits sym → leafFrom nodes x bits' sym → bits = bits') →
      ∃ codes', walk nodes k x path codes = .ok codes' ∧ Table.wf codes' = true ∧ ∀ sym w, Table.get codes' sym = some w ↔
        (∃ bits, leafFrom nodes x bits sym ∧ w = path ++ bits) ∨
          ((∀ bits, ¬ leafFrom nodes x bits sym) ∧ Table.get codes sym = some w) := by
  intro k
  induction k with
  | zero =>
    intro x path codes hcodes hx _
    have hnil : x = Config.nil := by
      rcases hx with hx | hx | hx
      · exact hx
      · omega
      · omega
    subst hnil
    refine ⟨codes, by simp [walk], hcodes, fun sym w => ?_⟩
    have := h.not_leafFrom_nil
    simp [this]
  | succ k ih =>
    intro x path codes hcodes hx huniq
    by_cases hnil : x = Config.nil
    · subst hnil
      refine ⟨codes, by simp [walk], hcodes, fun sym w => ?_⟩
      have := h.not_leafFrom_nil
      simp [this]
    · have hint := h.internalRoot
      have hlt : x.toNat < nodes.length := by
        rcases hx with hx | hx | hx
        · exact absurd hx hnil
        · omega
        · exact hx.2.1
      obtain ⟨n, hn⟩ : ∃ n, nodes[x.toNat]? = some n := ⟨_, List.getElem?_eq_getElem hlt⟩
      by_cases hl : n.leaf = true
      · have hxl := (h.leaf_iff hn).1 hl
        have hpath : path ≠ [] := by
          rcases hx with hx | hx | hx
          · exact absurd hx hnil
          · exact hx.2.2
          · omega
        have hsym : n.sym.toNat < 257 := by
          rw [leafAt_of_lt h.leafAt hn hxl]
          have := ((Table.wf_iff es).1 hwf).2 _ (List.getElem_mem hxl)
          simp only [leafNode, BitVec.toNat_ofNat]
          omega
        have hleaf : ∀ bits sym, leafFrom nodes x bits sym ↔ bits = [] ∧ sym = n.sym.toNat := by
          intro bits sym
          constructor
          · rintro ⟨y, m, hf, hm, hml, hs⟩
            cases bits with
            | nil =>
              simp only [follow, Option.some.injEq] at hf
              subst hf
              rw [hn] at hm
              cases hm
              exact ⟨rfl, hs.symm⟩
            | cons b bs =>
              obtain ⟨m', hm', hml', -⟩ := follow_cons_some hf
              rw [hn] at hm'
              cases hm'
              rw [hl] at hml'
              simp at hml'
          · rintro ⟨rfl, rfl⟩
            exact ⟨x, n, rfl, hn, hl, rfl⟩
        refine ⟨codeStore codes n.sym.toNat path, by simp [walk, hnil, hn, hl], codeStore_wf _ hcodes hsym, ?_⟩
        intro sym w
        rw [codeStore_of_ne_nil _ _ hpath]
        by_cases hs : sym = n.sym.toNat
        · subst hs
          rw [Table.get_set_self]
          constructor
          · rintro hw
            cases hw
            exact .inl ⟨[], (hleaf _ _).2 ⟨rfl, rfl⟩, by simp⟩
          · rintro (⟨bits, hb, rfl⟩ | ⟨hno, -⟩)
            · rw [((hleaf _ _).1 hb).1]
              simp
            · exact absurd ((hleaf _ _).2 ⟨rfl, rfl⟩) (hno [])
        · rw [Table.get_set_of_ne _ _ hs]
          have hno : ∀ bits, ¬ leafFrom nodes x bits sym := fun bits hb => hs ((hleaf _ _).1 hb).2
          simp [hno]
      · have hl' : n.leaf = false := by simpa using hl
        obtain ⟨hge, -, -, -⟩ := h.child _ n hn hl'
        have hfuel : x.toNat + 2 ≤ es.length + (k + 1) := by
          rcases hx with hx | hx | hx
          · exact absurd hx hnil
          · omega
          · exact hx.2.2
        have hdown : ∀ b : Bool, (if b then n.c1 else n.c0) = Config.nil ∨
            ((if b then n.c1 else n.c0).toNat < es.length ∧ 1 ≤ k ∧ path ++ [b] ≠ []) ∨
            (es.length ≤ (if b then n.c1 else n.c0).toNat ∧ (if b then n.c1 else n.c0).toNat < nodes.length ∧
              (if b then n.c1 else n.c0).toNat + 2 ≤ es.length + k) := by
          intro b
          by_cases hc : (if b then n.c1 else n.c0) = Config.nil
          · exact .inl hc
          · have hb := (h.branch hn hl' b hc).1
            right
            by_cases hcl : (if b then n.c1 else n.c0).toNat < es.length
            · exact .inl ⟨hcl, by omega, by simp⟩
            · exact .inr ⟨by omega, by omega, by omega⟩
        have hiff := h.leafFrom_internal hn hl'
        have hu : ∀ b : Bool, ∀ bits bits' sym, leafFrom nodes (if b then n.c1 else n.c0) bits sym →
            leafFrom nodes (if b then n.c1 else n.c0) bits' sym → bits = bits' := by
          intro b bits bits' sym h1 h2
          have := huniq (b :: bits) (b :: bits') sym ((hiff _ _).2 ⟨b, bits, rfl, h1⟩) ((hiff _ _).2 ⟨b, bits', rfl, h2⟩)
          exact (List.cons_eq_cons.1 this).2
        have hcross : ∀ bits bits' sym, leafFrom nodes n.c0 bits sym → ¬ leafFrom nodes n.c1 bits' sym := by
          intro bits bits' sym h1 h2
          have := huniq (false :: bits) (true :: bits') sym ((hiff _ _).2 ⟨false, bits, rfl, h1⟩)
            ((hiff _ _).2 ⟨true, bits', rfl, h2⟩)
          simp at this
        obtain ⟨codes0, hw0, hwf0, hg0⟩ := ih n.c0 (path ++ [false]) codes hcodes (hdown false) (hu false)
        obtain ⟨codes1, hw1, hwf1, hg1⟩ := ih n.c1 (path ++ [true]) codes0 hwf0 (hdown true) (hu true)
        refine ⟨codes1, by simp [walk, hnil, hn, hl', hw0, hw1], hwf1, fun sym w => ?_⟩
        rw [hg1, hg0]
        constructor
        · rintro (⟨bits, hb, rfl⟩ | ⟨hno1, ⟨bits, hb, rfl⟩ | ⟨hno0, hg⟩⟩)
          · exact .inl ⟨true :: bits, (hiff _ _).2 ⟨true, bits, rfl, hb⟩, by simp⟩
          · exact .inl ⟨false :: bits, (hiff _ _).2 ⟨false, bits, rfl, hb⟩, by simp⟩
          · refine .inr ⟨fun bits hb => ?_, hg⟩
            obtain ⟨b, bs, -, hb⟩ := (hiff _ _).1 hb
            cases b with
            | false => exact hno0 bs hb
            | true => exact hno1 bs hb
        · rintro (⟨bits, hb, rfl⟩ | ⟨hno, hg⟩)
          · obtain ⟨b, bs, rfl, hbs⟩ := (hiff _ _).1 hb
            cases b with
            | false => exact .inr ⟨fun bits' hb' => hcross bs bits' sym hbs hb', .inl ⟨bs, hbs, by simp⟩⟩
            | true => exact .inl ⟨bs, hbs, by simp⟩
          · exact .inr ⟨fun bits hb => hno (true :: bits) ((hiff _ _).2 ⟨true, bits, rfl, hb⟩),
              .inr ⟨fun bits hb => hno (false :: bits) ((hiff _ _).2 ⟨false, bits, rfl, hb⟩), hg⟩⟩

/-- The code table of a tree of BUILD: each symbol's path (42_code_deriver.md R161). -/
theorem deriveCodes_spec (h : TreeOk es nodes root) (hwf : Table.wf es = true) :
    ∃ codes, deriveCodes nodes root = .ok codes ∧ Table.wf codes = true ∧
      ∀ sym w, Table.get codes sym = some w ↔ leafFrom nodes root w sym := by
  have hi := h.internalRoot
  have hr := h.rootEq
  have hd := h.depth
  obtain ⟨codes, hw, hcwf, hg⟩ := h.walk_spec hwf 257 root [] [] rfl (.inr (.inr ⟨by omega, by omega, by omega⟩))
    fun bits bits' sym h1 h2 => h.leafFrom_unique hwf h1 h2
  refine ⟨codes, hw, hcwf, fun sym w => ?_⟩
  rw [hg]
  simp

end TreeOk

end Sys2Proof.Machine
end

