-- ==== Sys2Proof/Laws/Streams.lean ====
section
/-!
SUPPORT. What the stream primitives of 20_memory.md do, said once: bytes and bits read are the head of what is unread, and
bits written and flushed are packed most significant first.
-/

namespace Sys2Proof.Machine

/-! ### Bytes in -/

@[simp] theorem unread_length (s : State) : (unread s).length = bytesLeft s := by simp [unread, bytesLeft]

/-- All `InByte()` can do: the head of the unread bytes, or nothing when there are none. -/
theorem inByte_eq (s : State) :
    inByte s = match unread s with
      | [] => (none, s)
      | b :: _ => (some b, { s with inPos := s.inPos + 1 }) := by
  unfold inByte unread
  cases h : s.input[s.inPos]? with
  | none =>
    rw [List.getElem?_eq_none_iff] at h
    rw [List.drop_eq_nil_of_le h]
  | some b =>
    rw [List.getElem?_eq_some_iff] at h
    obtain ⟨hl, hb⟩ := h
    rw [List.drop_eq_getElem_cons hl, hb]

theorem inByte_cons {s : State} {b : Byte} {rest : List Byte} (h : unread s = b :: rest) :
    inByte s = (some b, { s with inPos := s.inPos + 1 }) := by rw [inByte_eq, h]

theorem inByte_nil {s : State} (h : unread s = []) : inByte s = (none, s) := by rw [inByte_eq, h]

/-- What is unread after one byte. -/
theorem unread_advance {s t : State} {b : Byte} {rest : List Byte} (h : unread s = b :: rest) (hi : t.input = s.input)
    (hp : t.inPos = s.inPos + 1) : unread t = rest := by
  unfold unread at *
  rw [hi, hp, ← List.drop_drop, h]
  rfl

theorem inPos_lt_of_unread {s : State} {b : Byte} {rest : List Byte} (h : unread s = b :: rest) :
    s.inPos < s.input.length := by
  by_contra hc
  simp [unread, List.drop_eq_nil_of_le (Nat.le_of_not_lt hc)] at h

theorem inPos_of_unread {s : State} {a b : List Byte} (h : unread s = a ++ b) (hs : s.inPos ≤ s.input.length) :
    s.inPos + a.length ≤ s.input.length := by
  have := congrArg List.length h
  simp [bytesLeft] at this
  omega

@[simp] theorem bytesLeft_rewind (s : State) : bytesLeft (rewindCursor s) = s.input.length := by
  simp [bytesLeft, rewindCursor]

@[simp] theorem unread_rewind (s : State) : unread (rewindCursor s) = s.input := by simp [unread, rewindCursor]

/-! ### Bits in -/

@[simp] theorem byteBits_length (b : Byte) : (byteBits b).length = 8 := by simp [byteBits]

theorem byteBits_getElem? (b : Byte) (k : Nat) (h : k < 8) : (byteBits b)[k]? = some (b.getLsbD (7 - k)) := by
  simp [byteBits, h]

@[simp] theorem streamBits_nil : streamBits [] = [] := rfl

@[simp] theorem streamBits_cons (b : Byte) (bs : List Byte) : streamBits (b :: bs) = byteBits b ++ streamBits bs := rfl

@[simp] theorem streamBits_append (a b : List Byte) : streamBits (a ++ b) = streamBits a ++ streamBits b := by
  simp [streamBits]

@[simp] theorem streamBits_length (bs : List Byte) : (streamBits bs).length = 8 * bs.length := by
  induction bs with
  | nil => rfl
  | cons b bs ih =>
    simp [ih]
    omega

/-- The cursor stands on a byte whenever bits of one have been taken (10_state.md R24). -/
def cursorOk (s : State) : Prop := s.inPos ≤ s.input.length ∧ (s.inBit ≠ 0#3 → s.inPos < s.input.length)

theorem unreadBits_length (s : State) : (unreadBits s).length = bitsLeft s := by
  simp [unreadBits, bitsLeft, bytesLeft]

/-- All `InBit()` can do: the head of the unread bits, or nothing when there are none. -/
theorem inBitOp_eq {s : State} (hs : cursorOk s) :
    (unreadBits s = [] ∧ inBitOp s = (none, s)) ∨
      ∃ b, inBitOp s = (some b, advanceBit s) ∧ unreadBits s = b :: unreadBits (advanceBit s) := by
  obtain ⟨hle, hlt⟩ := hs
  have hb : s.inBit.toNat < 8 := s.inBit.isLt
  by_cases hp : s.inPos < s.input.length
  · right
    refine ⟨(s.input[s.inPos]).getLsbD (7 - s.inBit.toNat), by simp [inBitOp, List.getElem?_eq_getElem hp], ?_⟩
    have hsplit : unread s = s.input[s.inPos] :: s.input.drop (s.inPos + 1) := List.drop_eq_getElem_cons hp
    have hbyte : (byteBits s.input[s.inPos]).drop s.inBit.toNat =
        (s.input[s.inPos]).getLsbD (7 - s.inBit.toNat) :: (byteBits s.input[s.inPos]).drop (s.inBit.toNat + 1) := by
      rw [List.drop_eq_getElem_cons (by simpa using hb)]
      simp [byteBits]
    unfold unreadBits
    rw [hsplit, streamBits_cons, List.drop_append_of_le_length (by simp; omega), hbyte, List.cons_append]
    congr 1
    by_cases h8 : s.inBit.toNat + 1 = 8
    · simp [advanceBit, h8, unread, streamBits]
    · have : (advanceBit s).inBit.toNat = s.inBit.toNat + 1 := by simp [advanceBit, h8]; omega
      rw [this]
      have hu : unread (advanceBit s) = unread s := by simp [advanceBit, h8, unread]
      rw [hu, hsplit, streamBits_cons, List.drop_append_of_le_length (by simp; omega)]
  · left
    have hend : s.inPos = s.input.length := by omega
    have h0 : s.inBit = 0#3 := by
      by_contra hc
      exact hp (hlt hc)
    refine ⟨by simp [unreadBits, unread, hend], ?_⟩
    simp [inBitOp, hend]

theorem cursorOk_advance {s : State} {b : Bool} {t : List Bool} (hs : cursorOk s) (h : unreadBits s = b :: t) :
    cursorOk (advanceBit s) := by
  have hp : s.inPos < s.input.length := by
    by_contra hc
    have h0 : s.inBit = 0#3 := by
      by_contra hb
      exact hc (hs.2 hb)
    simp [unreadBits, unread, List.drop_eq_nil_of_le (Nat.le_of_not_lt hc)] at h
  unfold cursorOk advanceBit
  split <;> simp <;> omega

/-- The position of the cursor in bits. -/
def bitPos (s : State) : Nat := 8 * s.inPos + s.inBit.toNat

@[simp] theorem bitPos_advance (s : State) : bitPos (advanceBit s) = bitPos s + 1 := by
  have : s.inBit.toNat < 8 := s.inBit.isLt
  unfold bitPos advanceBit
  split <;> simp <;> omega

/-- `InAlign()` moves the cursor to the next byte boundary and does nothing at one (20_memory.md R68). -/
theorem inAlign_eq (s : State) : inAlign s = { s with inPos := (bitPos s + 7) / 8, inBit := 0#3 } := by
  have h8 : s.inBit.toNat < 8 := s.inBit.isLt
  unfold inAlign bitPos
  split
  · rename_i h
    have : (8 * s.inPos + s.inBit.toNat + 7) / 8 = s.inPos := by simp [h]; omega
    rw [this, ← h]
  · rename_i h
    have : s.inBit.toNat ≠ 0 := fun h0 => h (BitVec.eq_of_toNat_eq h0)
    have : (8 * s.inPos + s.inBit.toNat + 7) / 8 = s.inPos + 1 := by omega
    rw [this]

/-! ### Bytes out -/

/-- `OutFlush()` at a byte boundary does nothing (20_memory.md R67). -/
theorem outFlush_of_flushed {s : State} (h : s.outN = 0#3) : outFlush s = s := by simp [outFlush, h]

@[simp] theorem outFlush_outN (s : State) : (outFlush s).outN = 0#3 := by
  unfold outFlush
  split
  · assumption
  · rfl

theorem outByte_of_flushed {s : State} (b : Byte) (h : s.outN = 0#3) : outByte s b = { s with out := s.out ++ [b] } := by
  simp [outByte, outFlush_of_flushed h]

/-- Bytes written at a byte boundary are appended (20_memory.md R64). -/
theorem outBytes_of_flushed {s : State} (bs : List Byte) (h : s.outN = 0#3) :
    outBytes s bs = { s with out := s.out ++ bs } := by
  induction bs generalizing s with
  | nil => simp [outBytes]
  | cons b bs ih =>
    have : outBytes s (b :: bs) = outBytes (outByte s b) bs := rfl
    rw [this, outByte_of_flushed b h, ih (by simpa using h)]
    simp

theorem outFlush_prefix (s : State) : s.out <+: (outFlush s).out := by
  unfold outFlush
  split
  · exact List.prefix_rfl
  · exact List.prefix_append _ _

theorem outByte_prefix (s : State) (b : Byte) : s.out <+: (outByte s b).out :=
  (outFlush_prefix s).trans (List.prefix_append _ _)

theorem outBit_prefix (s : State) (b : Bool) : s.out <+: (outBit s b).out := by
  simp only [outBit]
  split
  · exact List.prefix_append _ _
  · exact List.prefix_rfl

theorem outBits_prefix (s : State) (bits : List Bool) : s.out <+: (outBits s bits).out := by
  induction bits generalizing s with
  | nil => exact List.prefix_rfl
  | cons b bits ih => exact (outBit_prefix s b).trans (ih (outBit s b))

theorem outBytes_prefix (s : State) (bs : List Byte) : s.out <+: (outBytes s bs).out := by
  induction bs generalizing s with
  | nil => exact List.prefix_rfl
  | cons b bs ih => exact (outByte_prefix s b).trans (ih (outByte s b))

/-! ### Bits out -/

theorem outBits_append (s : State) (P Q : List Bool) : outBits s (P ++ Q) = outBits (outBits s P) Q := by
  simp [outBits]

theorem getLsbD_writeBit (v : Byte) (i j : Nat) (b : Bool) (hi : i < 8) (hj : j < 8) :
    (writeBit v i b).getLsbD j = if j = i then b else v.getLsbD j := by
  unfold writeBit
  by_cases hji : j = i
  · subst hji
    cases b <;> simp [hj]
  · have h1 : (1#8 <<< i).getLsbD j = false := by
      simp only [BitVec.getLsbD_shiftLeft, BitVec.getLsbD_one]
      by_cases hlt : j < i
      · simp [hlt]
      · simp
        omega
    cases b <;> simp [hji, hj] <;> intros <;> omega

/-- What the accumulator holds after bits were written from a byte boundary: whole bytes are in `OUT`, the others wait in
the high bits of `out_acc` (10_state.md R25, 20_memory.md R65). -/
structure Pending (s t : State) (P : List Bool) (X : List Byte) : Prop where
  eq : t = { s with out := s.out ++ X, outAcc := t.outAcc, outN := t.outN }
  whole : X.length = P.length / 8
  count : t.outN.toNat = P.length % 8
  stored : ∀ k < 8 * X.length, (X.getD (k / 8) 0#8).getLsbD (7 - k % 8) = P.getD k false
  waiting : ∀ j < 8, t.outAcc.getLsbD (7 - j) = P.getD (8 * (P.length / 8) + j) false

/-- All `OutBit` can do to a bit string written from a byte boundary. -/
theorem outBits_pending (s : State) (hn : s.outN = 0#3) (ha : s.outAcc = 0#8) (P : List Bool) :
    ∃ X, Pending s (outBits s P) P X := by
  induction P using List.reverseRecOn with
  | nil => exact ⟨[], ⟨by simp [outBits], rfl, by simp [outBits, hn], by simp, by simp [outBits, ha]⟩⟩
  | append_singleton P b ih =>
    obtain ⟨X, heq, hw, hc, hst, hwt⟩ := ih
    rw [outBits_append]
    generalize outBits s P = t at *
    have hb : outBits t [b] = outBit t b := rfl
    rw [hb]
    have hlt : P.length % 8 < 8 := Nat.mod_lt _ (by omega)
    have hdm := Nat.div_add_mod P.length 8
    have hacc : ∀ j < 8, (writeBit t.outAcc (7 - t.outN.toNat) b).getLsbD (7 - j) =
        (P ++ [b]).getD (8 * (P.length / 8) + j) false := by
      intro j hj
      rw [getLsbD_writeBit _ _ _ _ (by omega) (by omega), hc]
      by_cases hjn : j = P.length % 8
      · subst hjn
        rw [if_pos rfl, hdm]
        simp
      · rw [if_neg (by omega), hwt j hj]
        simp only [List.getD_eq_getElem?_getD]
        by_cases hjl : 8 * (P.length / 8) + j < P.length
        · rw [List.getElem?_append_left hjl]
        · rw [List.getElem?_eq_none (by omega), List.getElem?_eq_none (by simp; omega)]
    by_cases h8 : t.outN.toNat + 1 = 8
    · refine ⟨X ++ [writeBit t.outAcc (7 - t.outN.toNat) b], ?_, ?_, ?_, ?_, ?_⟩
      · simp only [outBit, if_pos h8]
        rw [heq]
        simp
      · simp [hw]
        omega
      · simp only [outBit, if_pos h8]
        simp
        omega
      · intro k hk
        simp only [List.length_append, List.length_singleton] at hk
        by_cases hkX : k / 8 < X.length
        · have hk' : k < 8 * X.length := by omega
          have := hst k hk'
          simp only [List.getD_eq_getElem?_getD] at this ⊢
          rw [List.getElem?_append_left hkX, List.getElem?_append_left (by omega), this]
        · have hkX' : k / 8 = X.length := by omega
          have := hacc (k % 8) (by omega)
          rw [hkX', List.getD_append_right _ _ _ _ (le_refl _)]
          simp only [Nat.sub_self, List.getD_cons_zero]
          rw [this]
          congr 1
          omega
      · intro j hj
        simp only [outBit, if_pos h8]
        rw [List.getD_eq_default _ _ (by simp; omega)]
        simp
    · refine ⟨X, ?_, ?_, ?_, ?_, ?_⟩
      · simp only [outBit, if_neg h8]
        rw [heq]
      · simp [hw]
        omega
      · simp only [outBit, if_neg h8]
        simp
        omega
      · intro k hk
        rw [hst k hk]
        simp only [List.getD_eq_getElem?_getD]
        rw [List.getElem?_append_left (by omega)]
      · intro j hj
        simp only [outBit, if_neg h8]
        rw [hacc j hj]
        congr 1
        simp
        omega

/-- Bits written from a byte boundary and then flushed are the packed bits (20_memory.md R67, 30_encoding.md R100). -/
theorem outFlush_outBits (s : State) (hn : s.outN = 0#3) (ha : s.outAcc = 0#8) (P : List Bool) :
    ∃ X, Packs P X ∧ outFlush (outBits s P) = { s with out := s.out ++ X } := by
  obtain ⟨X, heq, hw, hc, hst, hwt⟩ := outBits_pending s hn ha P
  generalize outBits s P = t at *
  have hdm := Nat.div_add_mod P.length 8
  by_cases h0 : t.outN = 0#3
  · have hc0 : P.length % 8 = 0 := by rw [← hc, h0]; rfl
    have hacc : t.outAcc = 0#8 := by
      apply BitVec.eq_of_getLsbD_eq
      intro i hi
      have := hwt (7 - i) (by omega)
      rw [show 7 - (7 - i) = i by omega, List.getD_eq_default _ _ (by omega)] at this
      simpa using this
    refine ⟨X, ⟨by omega, hst⟩, ?_⟩
    rw [outFlush_of_flushed h0, heq, h0, hacc, hn, ha]
  · have hc0 : P.length % 8 ≠ 0 := by
      rw [← hc]
      exact fun h => h0 (BitVec.eq_of_toNat_eq h)
    refine ⟨X ++ [t.outAcc], ⟨by simp [hw]; omega, ?_⟩, ?_⟩
    · intro k hk
      simp only [List.length_append, List.length_singleton] at hk
      by_cases hkX : k < 8 * X.length
      · rw [← hst k hkX]
        simp only [List.getD_eq_getElem?_getD]
        rw [List.getElem?_append_left (by omega)]
      · have hkX' : k / 8 = X.length := by omega
        have := hwt (k % 8) (by omega)
        rw [hkX', List.getD_append_right _ _ _ _ (le_refl _)]
        simp only [Nat.sub_self, List.getD_cons_zero]
        rw [this]
        congr 1
        omega
    · unfold outFlush
      rw [if_neg h0, heq]
      simp [hn, ha]

/-- A bit string packs in one way. -/
theorem Packs.unique {P : List Bool} {X Y : List Byte} (hX : Packs P X) (hY : Packs P Y) : X = Y := by
  apply List.ext_getElem (by rw [hX.1, hY.1])
  intro i hi hi'
  apply BitVec.eq_of_getLsbD_eq
  intro j hj
  have h1 := hX.2 (8 * i + (7 - j)) (by omega)
  have h2 := hY.2 (8 * i + (7 - j)) (by omega)
  rw [← h2] at h1
  rw [show (8 * i + (7 - j)) / 8 = i by omega, show 7 - (8 * i + (7 - j)) % 8 = j by omega,
    List.getD_eq_getElem _ _ hi, List.getD_eq_getElem _ _ hi'] at h1
  exact h1

/-- The bits of packed bytes are the bit string and then padding (30_encoding.md R99, R100). -/
theorem Packs.streamBits_eq {P : List Bool} {X : List Byte} (h : Packs P X) :
    ∃ pad, streamBits X = P ++ pad := by
  obtain ⟨hl, hb⟩ := h
  have hget : ∀ k, k < 8 * X.length → (streamBits X)[k]? = some ((X.getD (k / 8) 0#8).getLsbD (7 - k % 8)) := by
    clear hl hb
    induction X with
    | nil => simp
    | cons b X ih =>
      intro k hk
      rw [streamBits_cons]
      by_cases h8 : k < 8
      · rw [List.getElem?_append_left (by simpa using h8), byteBits_getElem? b k h8,
          show k / 8 = 0 by omega, show k % 8 = k by omega]
        rfl
      · rw [List.getElem?_append_right (by simp; omega), byteBits_length,
          ih (k - 8) (by simp at hk; omega), show k / 8 = (k - 8) / 8 + 1 by omega,
          show k % 8 = (k - 8) % 8 by omega]
        rfl
  refine ⟨(streamBits X).drop P.length, ?_⟩
  conv_lhs => rw [← List.take_append_drop P.length (streamBits X)]
  congr 1
  apply List.ext_getElem?
  intro k
  by_cases hk : k < P.length
  · rw [List.getElem?_take, if_pos hk, hget k (by omega), hb k (by omega), List.getD_eq_getElem _ _ hk,
      List.getElem?_eq_getElem hk]
  · rw [List.getElem?_eq_none (by simp; omega), List.getElem?_eq_none (by omega)]

end Sys2Proof.Machine
end

