-- ==== Sys2Proof/Laws/Codec.lean ====
section
/-!
SUPPORT. What the loops of ENCODE and DECODE do, said once: ENCODE writes codewords, DECODE follows them
(44_bitstream_codec.md).
-/

namespace Sys2Proof.Machine

/-! ### ENCODE -/

theorem outBit_setPos (s : State) (p : Nat) (b : Bool) : outBit { s with inPos := p } b = { outBit s b with inPos := p } := by
  simp only [outBit]
  split <;> rfl

theorem outBits_setPos (bits : List Bool) : ∀ (s : State) (p : Nat),
    outBits { s with inPos := p } bits = { outBits s bits with inPos := p } := by
  induction bits with
  | nil => exact fun _ _ => rfl
  | cons b bits ih =>
    intro s p
    show outBits (outBit { s with inPos := p } b) bits = { outBits (outBit s b) bits with inPos := p }
    rw [outBit_setPos, ih]

/-- Bits may be written before or after the cursor moves. -/
theorem outBits_advance (s : State) (p q : Nat) (v w : List Bool) :
    outBits { outBits { s with inPos := p } v with inPos := q } w = outBits { s with inPos := q } (v ++ w) := by
  rw [outBits_append, outBits_setPos v s q, outBits_setPos v s p]

@[simp] theorem codeword_outBits (s : State) (bits : List Bool) (sym : Nat) :
    codeword (outBits s bits) sym = codeword s sym := by simp [codeword]

@[simp] theorem codeLen_outBits (s : State) (bits : List Bool) (sym : Nat) :
    codeLen (outBits s bits) sym = codeLen s sym := by simp [codeLen]

/-- All `Emit` can do (44_bitstream_codec.md R190). -/
theorem emit_eq (s : State) (sym : Nat) :
    emit s sym = if codeLen s sym = 0 then none else some (outBits s (codeword s sym)) := rfl

/-- The codewords of bytes, one after another (30_encoding.md R99). -/
def payload (s : State) (bs : List Byte) : List Bool := bs.flatMap fun b => codeword s b.toNat

@[simp] theorem payload_nil (s : State) : payload s [] = [] := rfl

@[simp] theorem payload_cons (s : State) (b : Byte) (bs : List Byte) :
    payload s (b :: bs) = codeword s b.toNat ++ payload s bs := rfl

theorem payload_congr {s t : State} (h : ∀ sym, codeword t sym = codeword s sym) (bs : List Byte) :
    payload t bs = payload s bs := by simp [payload, h]

/-- ENCODE's loop where every codeword is there (44_bitstream_codec.md R190, R191). -/
theorem encodeLoop_ok (bs : List Byte) : ∀ s : State, unread s = bs → (∀ b ∈ bs, codeLen s b.toNat ≠ 0) →
    codeLen s 256 ≠ 0 →
    encodeLoop bs.length s =
      (outFlush (outBits { s with inPos := s.inPos + bs.length } (payload s bs ++ codeword s 256)), .ok) := by
  induction bs with
  | nil =>
    intro s _ _ h
    simp [encodeLoop, encodeEnd, emit_eq, Config.sentinel, h]
  | cons b bs ih =>
    intro s hu hall h
    have hb : codeLen s b.toNat ≠ 0 := hall b (by simp)
    rw [List.length_cons, encodeLoop, inByte_cons hu]
    have he : emit { s with inPos := s.inPos + 1 } b.toNat =
        some (outBits { s with inPos := s.inPos + 1 } (codeword s b.toNat)) := if_neg hb
    simp only [he]
    rw [ih (outBits { s with inPos := s.inPos + 1 } (codeword s b.toNat)) (unread_advance hu (by simp) (by simp))
      (fun c hc => by rw [codeLen_outBits]; exact hall c (by simp [hc])) (by rw [codeLen_outBits]; exact h),
      payload_congr (s := s) fun sym => by rw [codeword_outBits]; rfl, codeword_outBits, outBits_advance, outBits_inPos,
      show s.inPos + 1 + bs.length = s.inPos + (bs.length + 1) by omega, payload_cons, List.append_assoc]
    rfl

/-- ENCODE's loop at the first byte without a codeword (44_bitstream_codec.md R192). -/
theorem encodeLoop_unknown_byte (bs : List Byte) : ∀ (s : State) (k : Nat) (b : Byte), unread s = bs →
    bs[k]? = some b → codeLen s b.toNat = 0 → (∀ b' ∈ bs.take k, codeLen s b'.toNat ≠ 0) →
    encodeLoop bs.length s =
      (outFlush (outBits { s with inPos := s.inPos + k + 1 } (payload s (bs.take k))), .unknownSymbol) := by
  induction bs with
  | nil => simp
  | cons c bs ih =>
    intro s k b hu hk hb hall
    rw [List.length_cons, encodeLoop, inByte_cons hu]
    cases k with
    | zero =>
      cases hk
      have he : emit { s with inPos := s.inPos + 1 } c.toNat = none := if_pos hb
      simp [he, encodeUnknown, outBits]
    | succ k =>
      have hc : codeLen s c.toNat ≠ 0 := hall c (by simp)
      have he : emit { s with inPos := s.inPos + 1 } c.toNat =
          some (outBits { s with inPos := s.inPos + 1 } (codeword s c.toNat)) := if_neg hc
      simp only [he]
      rw [ih (outBits { s with inPos := s.inPos + 1 } (codeword s c.toNat)) k b
        (unread_advance hu (by simp) (by simp)) (by simpa using hk) (by rw [codeLen_outBits]; exact hb)
        (fun d hd => by rw [codeLen_outBits]; exact hall d (by simp [hd])),
        payload_congr (s := s) fun sym => by rw [codeword_outBits]; rfl, outBits_advance, outBits_inPos,
        show s.inPos + 1 + k + 1 = s.inPos + (k + 1) + 1 by omega, List.take_succ_cons, payload_cons]

/-- ENCODE's loop where only the sentinel has no codeword (44_bitstream_codec.md R192). -/
theorem encodeLoop_unknown_sentinel (bs : List Byte) : ∀ s : State, unread s = bs →
    (∀ b ∈ bs, codeLen s b.toNat ≠ 0) → codeLen s 256 = 0 →
    encodeLoop bs.length s =
      (outFlush (outBits { s with inPos := s.inPos + bs.length } (payload s bs)), .unknownSymbol) := by
  induction bs with
  | nil =>
    intro s _ _ h
    simp [encodeLoop, encodeEnd, encodeUnknown, emit_eq, Config.sentinel, h, outBits]
  | cons b bs ih =>
    intro s hu hall h
    have hb : codeLen s b.toNat ≠ 0 := hall b (by simp)
    rw [List.length_cons, encodeLoop, inByte_cons hu]
    have he : emit { s with inPos := s.inPos + 1 } b.toNat =
        some (outBits { s with inPos := s.inPos + 1 } (codeword s b.toNat)) := if_neg hb
    simp only [he]
    rw [ih (outBits { s with inPos := s.inPos + 1 } (codeword s b.toNat)) (unread_advance hu (by simp) (by simp))
      (fun c hc => by rw [codeLen_outBits]; exact hall c (by simp [hc])) (by rw [codeLen_outBits]; exact h),
      payload_congr (s := s) fun sym => by rw [codeword_outBits]; rfl, outBits_advance, outBits_inPos,
      show s.inPos + 1 + bs.length = s.inPos + (bs.length + 1) by omega, payload_cons]

/-- The three ways ENCODE can go (44_bitstream_codec.md R190, R192). -/
theorem encode_cases (s : State) (bs : List Byte) :
    ((∀ b ∈ bs, codeLen s b.toNat ≠ 0) ∧ codeLen s 256 ≠ 0) ∨
    (∃ (k : Nat) (b : Byte), bs[k]? = some b ∧ codeLen s b.toNat = 0 ∧ ∀ b' ∈ bs.take k, codeLen s b'.toNat ≠ 0) ∨
    ((∀ b ∈ bs, codeLen s b.toNat ≠ 0) ∧ codeLen s 256 = 0) := by
  have key : (∀ b ∈ bs, codeLen s b.toNat ≠ 0) ∨
      ∃ (k : Nat) (b : Byte), bs[k]? = some b ∧ codeLen s b.toNat = 0 ∧ ∀ b' ∈ bs.take k, codeLen s b'.toNat ≠ 0 := by
    induction bs with
    | nil => simp
    | cons c bs ih =>
      by_cases hc : codeLen s c.toNat = 0
      · exact .inr ⟨0, c, rfl, hc, by simp⟩
      · rcases ih with h | ⟨k, b, hk, hb, hall⟩
        · left
          intro b hb
          rcases List.mem_cons.1 hb with rfl | hb
          · exact hc
          · exact h b hb
        · refine .inr ⟨k + 1, b, by simpa using hk, hb, fun b' hb' => ?_⟩
          rw [List.take_succ_cons] at hb'
          rcases List.mem_cons.1 hb' with rfl | hb'
          · exact hc
          · exact hall b' hb'
  by_cases h : codeLen s 256 = 0
  · rcases key with hk | hk
    · exact .inr (.inr ⟨hk, h⟩)
    · exact .inr (.inl hk)
  · rcases key with hk | hk
    · exact .inl ⟨hk, h⟩
    · exact .inr (.inl hk)

/-! ### DECODE -/

/-- What DECODE makes of a bit string from a position in the tree: the bytes it emits, how many bits it reads, and its
result. -/
def decodeBits (nodes : List Node) (root : Handle) : Handle → List Bool → List Byte × Nat × ResultCode
  | _, [] => ([], 0, .corruptStream)
  | cur, b :: bs =>
    match nodes[cur.toNat]? with
    | none => ([], 1, .corruptStream)
    | some node =>
      if (if b then node.c1 else node.c0) = Config.nil then ([], 1, .corruptStream)
      else
        match nodes[(if b then node.c1 else node.c0).toNat]? with
        | none => ([], 1, .corruptStream)
        | some child =>
          if child.leaf then
            if child.sym.toNat = Config.sentinel then ([], 1, .ok)
            else
              (child.sym.setWidth 8 :: (decodeBits nodes root root bs).1, (decodeBits nodes root root bs).2.1 + 1,
                (decodeBits nodes root root bs).2.2)
          else
            ((decodeBits nodes root (if b then node.c1 else node.c0) bs).1,
              (decodeBits nodes root (if b then node.c1 else node.c0) bs).2.1 + 1,
              (decodeBits nodes root (if b then node.c1 else node.c0) bs).2.2)

/-- The state after DECODE has read bits and emitted bytes. -/
def decoded (s : State) (bs : List Byte) (read : Nat) : State :=
  { s with inPos := (bitPos s + read + 7) / 8, inBit := 0#3, out := s.out ++ bs }

/-- One more bit taken, and what it emitted. -/
theorem decoded_advance (s : State) (pre bs : List Byte) (read : Nat) :
    decoded { advanceBit s with out := (advanceBit s).out ++ pre } bs read = decoded s (pre ++ bs) (read + 1) := by
  have hbp := bitPos_advance s
  simp only [bitPos] at hbp
  simp only [decoded, bitPos, advanceBit_ft, advanceBit_nodes, advanceBit_root, advanceBit_codes, advanceBit_input,
    advanceBit_out, advanceBit_outAcc, advanceBit_outN, advanceBit_issued, advanceBit_err, advanceBit_host,
    advanceBit_draws, List.append_assoc, hbp, Nat.add_assoc, Nat.add_comm 1]

/-- All DECODE's loop can do on a tree of BUILD (44_bitstream_codec.md R194): no fault, and what `decodeBits` says. -/
theorem decodeLoop_eq {es : List (Nat × Count)} {nodes : List Node} {root : Handle} (h : TreeOk es nodes root)
    (bits : List Bool) : ∀ (cur : Handle) (s : State), s.nodes = nodes → s.root = root → s.outN = 0#3 → cursorOk s →
      unreadBits s = bits → (∃ n, nodes[cur.toNat]? = some n ∧ n.leaf = false) →
      decodeLoop bits.length cur s =
        .done (decoded s (decodeBits nodes root cur bits).1 (decodeBits nodes root cur bits).2.1)
          (decodeBits nodes root cur bits).2.2 := by
  induction bits with
  | nil =>
    intro cur s _ _ _ _ _ _
    simp [decodeLoop, decodeCorrupt, decodeBits, decoded, inAlign_eq]
  | cons b bs ih =>
    intro cur s hn hr ho hc hu hcur
    obtain ⟨node, hnode, hl⟩ := hcur
    obtain ⟨he, -⟩ | ⟨b', hb, hs⟩ := inBitOp_eq hc
    · rw [he] at hu
      simp at hu
    · obtain ⟨rfl, hbs⟩ := List.cons_eq_cons.1 (hu.symm.trans hs)
      have hnext := fun hx => (h.branch hnode hl b hx).1
      have hlt := (List.getElem?_eq_some_iff.1 hnode).1
      have hc' := cursorOk_advance hc hu
      rw [List.length_cons, decodeLoop, hb]
      simp only [advanceBit_nodes, hn, hnode, decodeBits]
      by_cases hx : (if b then node.c1 else node.c0) = Config.nil
      · simp only [if_pos hx, decodeCorrupt, decoded, inAlign_eq]
        simp
      · simp only [if_neg hx]
        have hxl : (if b then node.c1 else node.c0).toNat < nodes.length := by
          have := hnext hx
          omega
        obtain ⟨child, hchild⟩ : ∃ child, nodes[(if b then node.c1 else node.c0).toNat]? = some child :=
          ⟨_, List.getElem?_eq_getElem hxl⟩
        simp only [hchild]
        by_cases hcl : child.leaf = true
        · simp only [if_pos hcl]
          by_cases h256 : child.sym.toNat = Config.sentinel
          · simp only [if_pos h256, decoded, inAlign_eq]
            simp
          · simp only [if_neg h256]
            have hstep := ih root { advanceBit s with out := (advanceBit s).out ++ [child.sym.setWidth 8] }
              (by simpa using hn) (by simpa using hr) (by simpa using ho) hc' hbs.symm h.root_internal
            rw [decoded_advance s [child.sym.setWidth 8]] at hstep
            have hroot : (advanceBit s).root = root := by simpa using hr
            rw [outByte_of_flushed _ (by simpa using ho)]
            simp only [hroot] at hstep ⊢
            exact hstep
        · simp only [if_neg hcl]
          rw [ih _ _ (by simpa using hn) (by simpa using hr) (by simpa using ho) hc' hbs.symm
            ⟨child, hchild, by simpa using hcl⟩]
          simp only [Stage.done.injEq, and_true]
          have hadv := decoded_advance s [] (decodeBits nodes root (if b then node.c1 else node.c0) bs).1
            (decodeBits nodes root (if b then node.c1 else node.c0) bs).2.1
          rw [List.append_nil] at hadv
          exact hadv

/-- A codeword read from a position in the tree (44_bitstream_codec.md R195). -/
theorem decodeBits_word {es : List (Nat × Count)} {nodes : List Node} {root : Handle} (h : TreeOk es nodes root)
    {sym : Nat} (rest w : List Bool) : ∀ {x : Handle} {n : Node}, nodes[x.toNat]? = some n → n.leaf = false →
      leafFrom nodes x w sym →
      decodeBits nodes root x (w ++ rest) =
        if sym = 256 then ([], w.length, .ok)
        else (BitVec.ofNat 8 sym :: (decodeBits nodes root root rest).1,
          (decodeBits nodes root root rest).2.1 + w.length, (decodeBits nodes root root rest).2.2) := by
  induction w with
  | nil =>
    intro x n hn hl hw
    obtain ⟨b, bs, hb, -⟩ := (h.leafFrom_internal hn hl _ _).1 hw
    cases hb
  | cons b bs ih =>
    intro x n hn hl hw
    obtain ⟨b', bs', hb, hrest⟩ := (h.leafFrom_internal hn hl _ _).1 hw
    obtain ⟨rfl, rfl⟩ := List.cons_eq_cons.1 hb
    have hx : (if b then n.c1 else n.c0) ≠ Config.nil := fun hx => h.not_leafFrom_nil bs sym (hx ▸ hrest)
    rw [List.cons_append, decodeBits]
    simp only [hn, if_neg hx]
    obtain ⟨y, m, hf, hm, hml, hs⟩ := hrest
    have hlt := (h.branch hn hl b hx).1
    have hxl := (List.getElem?_eq_some_iff.1 hn).1
    obtain ⟨child, hchild⟩ : ∃ child, nodes[(if b then n.c1 else n.c0).toNat]? = some child :=
      ⟨_, List.getElem?_eq_getElem (by omega)⟩
    simp only [hchild]
    by_cases hcl : child.leaf = true
    · have hbs : bs = [] := by
        cases bs with
        | nil => rfl
        | cons c cs =>
          obtain ⟨k, hk, hkl, -⟩ := follow_cons_some hf
          rw [hchild] at hk
          cases hk
          rw [hcl] at hkl
          cases hkl
      subst hbs
      simp only [follow, Option.some.injEq] at hf
      subst hf
      rw [hchild] at hm
      cases hm
      have h8 : m.sym.setWidth 8 = BitVec.ofNat 8 sym := by rw [← hs, BitVec.ofNat_toNat]
      simp only [if_pos hcl, hs, Config.sentinel, h8, List.nil_append, List.length_singleton]
    · simp only [if_neg hcl]
      rw [ih hchild (by simpa using hcl) ⟨y, m, hf, hm, hml, hs⟩]
      by_cases h256 : sym = 256 <;> simp [h256, Nat.add_assoc]

/-- Codewords of bytes read one after another (44_bitstream_codec.md R194). -/
theorem decodeBits_words {es : List (Nat × Count)} {nodes : List Node} {root : Handle} (h : TreeOk es nodes root)
    (rest : List Bool) (ws : List (List Bool × Byte)) (hws : ∀ e ∈ ws, leafFrom nodes root e.1 e.2.toNat) :
    decodeBits nodes root root (ws.flatMap (fun e => e.1) ++ rest) =
      (ws.map (fun e => e.2) ++ (decodeBits nodes root root rest).1,
        (decodeBits nodes root root rest).2.1 + (ws.flatMap (fun e => e.1)).length,
        (decodeBits nodes root root rest).2.2) := by
  induction ws with
  | nil => simp
  | cons e ws ih =>
    obtain ⟨n, hn, hl⟩ := h.root_internal
    have hlt : e.2.toNat < 256 := e.2.isLt
    rw [List.flatMap_cons, List.append_assoc, decodeBits_word h _ _ hn hl (hws e (by simp)), if_neg (by omega),
      ih fun e' he' => hws e' (by simp [he'])]
    simp
    omega

/-- The three ways DECODE can go on a tree of BUILD (44_bitstream_codec.md R194, R196). -/
inductive DecodeWay (es : List (Nat × Count)) (nodes : List Node) (root : Handle) (bits : List Bool) : Prop where
  | sentinel (ws : List (List Bool × Byte)) (w rest : List Bool)
      (words : ∀ e ∈ ws, leafFrom nodes root e.1 e.2.toNat) (last : leafFrom nodes root w 256)
      (eq : bits = ws.flatMap (fun e => e.1) ++ w ++ rest)
  | ranOut (ws : List (List Bool × Byte)) (tail : List Bool) (x : Handle) (n : Node)
      (words : ∀ e ∈ ws, leafFrom nodes root e.1 e.2.toNat) (path : follow nodes root tail = some x)
      (node : nodes[x.toNat]? = some n) (inner : n.leaf = false) (eq : bits = ws.flatMap (fun e => e.1) ++ tail)
  | noBranch (ws : List (List Bool × Byte)) (tail : List Bool)
      (words : ∀ e ∈ ws, leafFrom nodes root e.1 e.2.toNat) (single : es.length = 1)
      (eq : bits = ws.flatMap (fun e => e.1) ++ true :: tail)

theorem DecodeWay.cons {es : List (Nat × Count)} {nodes : List Node} {root : Handle} {w bits : List Bool} {b : Byte}
    (hw : leafFrom nodes root w b.toNat) (h : DecodeWay es nodes root bits) : DecodeWay es nodes root (w ++ bits) := by
  cases h with
  | sentinel ws w' rest hws hl he =>
    exact .sentinel ((w, b) :: ws) w' rest (by simpa using ⟨hw, fun a b hab => hws (a, b) hab⟩) hl (by simp [he])
  | ranOut ws tail x n hws hp hn hl he =>
    exact .ranOut ((w, b) :: ws) tail x n (by simpa using ⟨hw, fun a b hab => hws (a, b) hab⟩) hp hn hl (by simp [he])
  | noBranch ws tail hws h1 he =>
    exact .noBranch ((w, b) :: ws) tail (by simpa using ⟨hw, fun a b hab => hws (a, b) hab⟩) h1 (by simp [he])

/-- Every bit string goes one of the three ways. -/
theorem decodeWay_from {es : List (Nat × Count)} {nodes : List Node} {root : Handle} (h : TreeOk es nodes root)
    (hwf : Table.wf es = true) (bits : List Bool) : ∀ (p : List Bool) (x : Handle) (n : Node),
      follow nodes root p = some x → nodes[x.toNat]? = some n → n.leaf = false →
      DecodeWay es nodes root (p ++ bits) := by
  induction bits with
  | nil => exact fun p x n hp hn hl => .ranOut [] p x n (by simp) hp hn hl (by simp)
  | cons b bs ih =>
    intro p x n hp hn hl
    have hxl := (List.getElem?_eq_some_iff.1 hn).1
    have hroot := h.rootEq
    by_cases hx : (if b then n.c1 else n.c0) = Config.nil
    · obtain ⟨hge, h0, -, -, h1⟩ := h.child _ _ hn hl
      cases b with
      | false =>
        have : n.c0 = Config.nil := hx
        have hsz := h.size
        rw [this, toNat_nil] at h0
        omega
      | true =>
        have hone := h1.1 hx
        have h2 := h.pair hone
        have hxr : x = root := BitVec.eq_of_toNat_eq (by omega)
        subst hxr
        have : p = [] := h.path_unique p hp (by rfl)
        subst this
        exact .noBranch [] bs (by simp) hone (by simp)
    · have hlt := (h.branch hn hl b hx).1
      obtain ⟨child, hchild⟩ : ∃ child, nodes[(if b then n.c1 else n.c0).toNat]? = some child :=
        ⟨_, List.getElem?_eq_getElem (by omega)⟩
      have hstep : follow nodes root (p ++ [b]) = some (if b then n.c1 else n.c0) := by
        rw [follow_append, hp, Option.bind_some, follow_cons nodes x b [] hn hl hx]
        rfl
      have hsplit : p ++ b :: bs = (p ++ [b]) ++ bs := by simp
      rw [hsplit]
      by_cases hcl : child.leaf = true
      · have hleaf : leafFrom nodes root (p ++ [b]) child.sym.toNat := ⟨_, child, hstep, hchild, hcl, rfl⟩
        by_cases h256 : child.sym.toNat = 256
        · exact .sentinel [] (p ++ [b]) bs (by simp) (h256 ▸ hleaf) (by simp)
        · obtain ⟨c, hc⟩ := h.leafFrom_get hwf hleaf
          have h257 : child.sym.toNat < 257 := ((Table.wf_iff es).1 hwf).2 _ (Table.mem_of_get hc)
          have hbyte : (BitVec.ofNat 8 child.sym.toNat).toNat = child.sym.toNat := by
            rw [BitVec.toNat_ofNat]
            omega
          obtain ⟨m, hm, hml⟩ := h.root_internal
          exact DecodeWay.cons (b := BitVec.ofNat 8 child.sym.toNat) (by rw [hbyte]; exact hleaf)
            (by simpa using ih [] root m rfl hm hml)
      · exact ih (p ++ [b]) _ child hstep hchild (by simpa using hcl)

theorem decodeWay {es : List (Nat × Count)} {nodes : List Node} {root : Handle} (h : TreeOk es nodes root)
    (hwf : Table.wf es = true) (bits : List Bool) : DecodeWay es nodes root bits := by
  obtain ⟨m, hm, hml⟩ := h.root_internal
  simpa using decodeWay_from h hwf bits [] root m rfl hm hml

/-- The sentinel's codeword ends the decoding (44_bitstream_codec.md R194). -/
theorem decodeBits_sentinel {es : List (Nat × Count)} {nodes : List Node} {root : Handle} (h : TreeOk es nodes root)
    {ws : List (List Bool × Byte)} {w : List Bool} (hws : ∀ e ∈ ws, leafFrom nodes root e.1 e.2.toNat)
    (hw : leafFrom nodes root w 256) (rest : List Bool) :
    decodeBits nodes root root (ws.flatMap (fun e => e.1) ++ w ++ rest) =
      (ws.map fun e => e.2, (ws.flatMap (fun e => e.1) ++ w).length, .ok) := by
  obtain ⟨n, hn, hl⟩ := h.root_internal
  rw [List.append_assoc, decodeBits_words h _ ws hws, decodeBits_word h rest w hn hl hw]
  simp [Nat.add_comm]

/-- Bits that run out inside a codeword (44_bitstream_codec.md R196 (a)). -/
theorem decodeBits_ranOut_from {nodes : List Node} {root : Handle} (tail : List Bool) :
    ∀ {x y : Handle} {n : Node}, follow nodes x tail = some y → nodes[y.toNat]? = some n → n.leaf = false →
      decodeBits nodes root x tail = ([], tail.length, .corruptStream) := by
  induction tail with
  | nil => simp [decodeBits]
  | cons b bs ih =>
    intro x y n hf hn hl
    obtain ⟨k, hk, hkl, hc, hrest⟩ := follow_cons_some hf
    have hchild : ∃ child, nodes[(if b then k.c1 else k.c0).toNat]? = some child ∧ child.leaf = false := by
      cases bs with
      | nil =>
        simp only [follow, Option.some.injEq] at hrest
        rw [hrest]
        exact ⟨n, hn, hl⟩
      | cons c cs =>
        obtain ⟨m, hm, hml, -⟩ := follow_cons_some hrest
        exact ⟨m, hm, hml⟩
    obtain ⟨child, hchild, hcl⟩ := hchild
    rw [decodeBits]
    simp only [hk, if_neg hc, hchild, hcl]
    rw [ih hrest hn hl]
    simp

theorem decodeBits_ranOut {es : List (Nat × Count)} {nodes : List Node} {root : Handle} (h : TreeOk es nodes root)
    {ws : List (List Bool × Byte)} {tail : List Bool} {x : Handle} {n : Node}
    (hws : ∀ e ∈ ws, leafFrom nodes root e.1 e.2.toNat) (hp : follow nodes root tail = some x)
    (hn : nodes[x.toNat]? = some n) (hl : n.leaf = false) :
    decodeBits nodes root root (ws.flatMap (fun e => e.1) ++ tail) =
      (ws.map fun e => e.2, (ws.flatMap (fun e => e.1) ++ tail).length, .corruptStream) := by
  rw [decodeBits_words h _ ws hws, decodeBits_ranOut_from tail hp hn hl]
  simp [Nat.add_comm]

/-- A 1 at the degenerate root (44_bitstream_codec.md R196 (b)). -/
theorem decodeBits_noBranch {es : List (Nat × Count)} {nodes : List Node} {root : Handle} (h : TreeOk es nodes root)
    {ws : List (List Bool × Byte)} (hws : ∀ e ∈ ws, leafFrom nodes root e.1 e.2.toNat) (h1 : es.length = 1)
    (tail : List Bool) :
    decodeBits nodes root root (ws.flatMap (fun e => e.1) ++ true :: tail) =
      (ws.map fun e => e.2, (ws.flatMap (fun e => e.1)).length + 1, .corruptStream) := by
  obtain ⟨n, hn, hl⟩ := h.root_internal
  have hc := (h.child _ _ hn hl).2.2.2.2.2 h1
  rw [decodeBits_words h _ ws hws, decodeBits]
  simp [hn, hc, Nat.add_comm]

/-- All the body of DECODE can do on a tree of BUILD (44_bitstream_codec.md R194, R197): the bytes, the bits read rounded
up to bytes, the result. -/
theorem decodeBody_eq {es : List (Nat × Count)} {s : State} (h : TreeOk es s.nodes s.root) (ho : s.outN = 0#3)
    (hc : cursorOk s) :
    decodeBody s = .done (decoded s (decodeBits s.nodes s.root s.root (unreadBits s)).1
      (decodeBits s.nodes s.root s.root (unreadBits s)).2.1) (decodeBits s.nodes s.root s.root (unreadBits s)).2.2 := by
  rw [decodeBody, if_neg h.root_ne_nil, ← unreadBits_length]
  exact decodeLoop_eq h (unreadBits s) s.root s rfl rfl ho hc rfl h.root_internal

end Sys2Proof.Machine
end

