-- ==== Sys2Proof/Laws/Frequency.lean ====
section
/-!
SUPPORT. What FREQ's loop does, said once: it counts the unread bytes, or stops at the first count it cannot hold.
-/

namespace Sys2Proof.Machine

/-- The table in the middle of the count: exactly the bytes read so far (40_frequency_accumulator.md R131). -/
structure Counted (read : List Byte) (ft : List (Nat × Count)) : Prop where
  wf : Table.wf ft = true
  fits : countsFit read
  byte : ∀ b : Byte, Table.get ft b.toNat = if read.count b = 0 then none else some (BitVec.ofNat 32 (read.count b))
  other : ∀ sym, 256 ≤ sym → Table.get ft sym = none

theorem counted_nil : Counted [] [] := ⟨rfl, fun b => by simp, fun b => by simp, fun _ _ => rfl⟩

theorem Counted.count {read : List Byte} {s : State} (h : Counted read s.ft) (b : Byte) :
    (ftCount s b.toNat).toNat = read.count b := by
  have hf := h.fits b
  rw [ftCount, h.byte b]
  split
  · simp_all
  · simp
    omega

theorem countsFit_append_singleton {read : List Byte} {b : Byte} (h : countsFit read) (hb : read.count b ≠ 4294967295) :
    countsFit (read ++ [b]) := by
  intro c
  have := h c
  rw [List.count_append, List.count_singleton]
  by_cases hc : b = c
  · subst hc
    simp
    omega
  · simp [hc]
    omega

/-- One count more. -/
theorem Counted.store {read : List Byte} {s : State} (h : Counted read s.ft) {b : Byte}
    (hb : read.count b ≠ 4294967295) :
    Counted (read ++ [b]) (ftStore s b.toNat (ftCount s b.toNat + 1#32)).ft := by
  have hlt : b.toNat < 256 := b.isLt
  have hval : ftCount s b.toNat + 1#32 = BitVec.ofNat 32 (read.count b + 1) := by
    apply BitVec.eq_of_toNat_eq
    have := h.count b
    simp [this]
  refine ⟨Table.wf_set _ h.wf (by omega), countsFit_append_singleton h.fits hb, fun c => ?_, fun sym hs => ?_⟩
  · rw [ftStore_ft, List.count_append, List.count_singleton]
    by_cases hc : b = c
    · subst hc
      rw [Table.get_set_self, hval]
      simp
    · rw [Table.get_set_of_ne _ _ fun hcb => hc (BitVec.eq_of_toNat_eq hcb.symm), h.byte c]
      simp [hc]
  · rw [ftStore_ft, Table.get_set_of_ne _ _ (by omega), h.other sym hs]

/-- The sentinel's entry completes the table of the bytes read (40_frequency_accumulator.md R132). -/
theorem Counted.sentinel {read : List Byte} {s : State} (h : Counted read s.ft) :
    tableOfBytes read (sentinelEntry s).ft := by
  refine ⟨Table.wf_set _ h.wf (by decide), Table.get_set_self _ _ _, fun b => ?_⟩
  have hlt : b.toNat < 256 := b.isLt
  rw [← h.byte b]
  exact Table.get_set_of_ne _ _ (by simp [Config.sentinel]; omega)

/-- All FREQ's loop can do (40_frequency_accumulator.md R130, R131, R133). -/
theorem freqLoop_spec (bs : List Byte) : ∀ (read : List Byte) (s : State), Counted read s.ft → unread s = bs →
    (countsFit (read ++ bs) ∧ ∃ ft, tableOfBytes (read ++ bs) ft ∧
      freqLoop bs.length s = ({ s with ft := ft, inPos := s.inPos + bs.length }, .ok)) ∨
    ∃ k b, bs[k]? = some b ∧ (read ++ bs.take k).count b = 4294967295 ∧ countsFit (read ++ bs.take k) ∧
      freqLoop bs.length s =
        ({ s with ft := [], nodes := [], root := Config.nil, codes := [], inPos := s.inPos + k + 1 }, .countOverflow) := by
  induction bs with
  | nil =>
    intro read s h hu
    left
    rw [List.append_nil]
    exact ⟨h.fits, _, h.sentinel, by simp [freqLoop, sentinelEntry, ftStore]⟩
  | cons b bs ih =>
    intro read s h hu
    rw [List.length_cons, freqLoop, inByte_cons hu]
    have h' : Counted read ({ s with inPos := s.inPos + 1 } : State).ft := h
    have hc := h'.count b
    by_cases hmax : read.count b = 4294967295
    · right
      refine ⟨0, b, rfl, by simpa using hmax, by simpa using h.fits, ?_⟩
      simp only [hc, hmax, Config.cmax, if_true]
      rfl
    · simp only [hc, Config.cmax, if_neg hmax]
      have hst := h'.store hmax
      have hun : unread (ftStore { s with inPos := s.inPos + 1 } b.toNat
          (ftCount { s with inPos := s.inPos + 1 } b.toNat + 1#32)) = bs := unread_advance hu rfl rfl
      rcases ih _ _ hst hun with ⟨hf, ft, ht, he⟩ | ⟨k, c, hk, hcount, hf, he⟩
      · left
        rw [List.append_assoc, List.singleton_append] at hf ht
        refine ⟨hf, ft, ht, ?_⟩
        rw [he]
        simp [ftStore]
        omega
      · right
        rw [List.append_assoc, List.singleton_append] at hcount hf
        refine ⟨k + 1, c, hk, hcount, hf, ?_⟩
        rw [he]
        simp [ftStore]
        omega

/-- All the body of FREQ can do. -/
theorem freqBody_spec (s : State) :
    (countsFit (unread s) ∧ ∃ ft, tableOfBytes (unread s) ft ∧
      freqBody s = .done { s with ft := ft, nodes := [], root := Config.nil, codes := [],
                                  inPos := s.inPos + (unread s).length } .ok) ∨
    ∃ k b, (unread s)[k]? = some b ∧ ((unread s).take k).count b = 4294967295 ∧ countsFit ((unread s).take k) ∧
      freqBody s = .done { s with ft := [], nodes := [], root := Config.nil, codes := [], inPos := s.inPos + k + 1 }
        .countOverflow := by
  have hb : bytesLeft s = (unread s).length := by simp
  have hspec := freqLoop_spec (unread s) [] (release s) counted_nil rfl
  unfold freqBody
  rw [hb]
  rcases hspec with ⟨hf, ft, ht, he⟩ | ⟨k, b, hk, hc, hf, he⟩
  · left
    refine ⟨hf, ft, ht, ?_⟩
    rw [he]
    rfl
  · right
    refine ⟨k, b, hk, hc, hf, ?_⟩
    rw [he]
    rfl

end Sys2Proof.Machine
end

