-- ==== Sys2Proof/Laws/Header.lean ====
section
/-!
SUPPORT. The header: SERIAL's text is the canonical header, and PARSE accepts exactly the grammar
(43_header_serializer_parser.md).
-/

namespace Sys2Proof.Machine

/-! ### Writing -/

/-- `Dec` writes the positional digits (43_header_serializer_parser.md R171). -/
theorem decFuel_eq_decimal : ∀ (f v : Nat), v ≤ f → decFuel f v = decimal v := by
  have h10 : ∀ v, v < 10 → [digitByte v] = decimal v := by
    intro v hv
    by_cases h0 : v = 0
    · subst h0
      rfl
    · rw [decimal, if_neg h0, Nat.digits_of_lt 10 v h0 hv]
      rfl
  intro f
  induction f with
  | zero =>
    intro v hv
    exact h10 v (by omega)
  | succ f ih =>
    intro v hv
    rw [decFuel]
    split
    · exact h10 v ‹_›
    · rw [ih (v / 10) (by omega), decimal, decimal, if_neg (by omega), if_neg (by omega),
        Nat.digits_def' (by omega) (show 0 < v by omega)]
      simp [digitByte]

theorem dec_eq_decimal (v : Nat) : dec v = decimal v := decFuel_eq_decimal v v (le_refl v)

theorem entriesText_eq (es : List (Nat × Count)) :
    entriesText es = List.intercalate [chComma] (es.map fun e => decimal e.1 ++ [chColon] ++ decimal e.2.toNat) := by
  induction es with
  | nil => rfl
  | cons e es ih =>
    cases es with
    | nil => simp [entriesText, entryText, dec_eq_decimal, List.intercalate]
    | cons e' es =>
      simp only [entriesText, ih, entryText, dec_eq_decimal]
      simp [List.intercalate]

/-- The header SERIAL writes is the canonical one (43_header_serializer_parser.md R170, 30_encoding.md R98). -/
theorem headerText_eq (ft : List (Nat × Count)) : headerText ft = canonicalHeader ft := by
  have hmap : (ftEntries ft).map (fun e => decimal e.1 ++ [chColon] ++ decimal e.2.toNat) =
      ((List.range 257).filter fun sym => (Table.get ft sym).isSome).map fun sym =>
        decimal sym ++ [0x3A#8] ++ decimal ((Table.get ft sym).getD 0#32).toNat := by
    unfold ftEntries Config.nsym
    induction List.range 257 with
    | nil => rfl
    | cons k l ih =>
      rw [List.filterMap_cons, List.filter_cons]
      cases hg : Table.get ft k with
      | none => simpa [hg] using ih
      | some c => simpa [hg, chColon] using ih
  rw [headerText, entriesText_eq, hmap, canonicalHeader]
  rfl

/-! ### Reading -/

/-- PARSE over a byte sequence: the table where a header was accepted, and how many bytes were read. -/
def parseText : ParseState → List (Nat × Count) → List Byte → Option (List (Nat × Count)) × Nat
  | _, _, [] => (none, 0)
  | st, ft, b :: bs =>
    match parseStep st b ft with
    | none => (none, 1)
    | some (st', ft') =>
      if st' = .done then (some ft', 1) else ((parseText st' ft' bs).1, (parseText st' ft' bs).2 + 1)

theorem parseText_le (bs : List Byte) : ∀ st ft, (parseText st ft bs).2 ≤ bs.length := by
  induction bs with
  | nil => simp [parseText]
  | cons b bs ih =>
    intro st ft
    rw [parseText]
    split
    · simp
    · split
      · simp
      · simpa using ih _ _

/-- The state PARSE leaves. -/
def parsed (s : State) : Option (List (Nat × Count)) × Nat → State × ResultCode
  | (some ft, k) => ({ s with ft := ft, inPos := s.inPos + k }, .ok)
  | (none, k) => (release { s with inPos := s.inPos + k }, .malformedHeader)

/-- All PARSE's loop can do (43_header_serializer_parser.md R174, R179). -/
theorem parseLoop_eq (bs : List Byte) : ∀ (st : ParseState) (s : State), unread s = bs →
    parseLoop bs.length st s = parsed s (parseText st s.ft bs) := by
  induction bs with
  | nil => exact fun st s _ => rfl
  | cons b bs ih =>
    intro st s hu
    rw [List.length_cons, parseLoop, inByte_cons hu, parseText]
    simp only
    cases hst : parseStep st b s.ft with
    | none => rfl
    | some x =>
      obtain ⟨st', ft'⟩ := x
      simp only
      by_cases hd : st' = .done
      · simp only [if_pos hd, parsed]
      · simp only [if_neg hd]
        rw [ih st' { s with inPos := s.inPos + 1, ft := ft' } (unread_advance hu rfl rfl)]
        generalize parseText st' ft' bs = r
        obtain ⟨_ | ft, k⟩ := r <;> simp [parsed, release, Nat.add_assoc, Nat.add_comm 1]

/-- All the body of PARSE can do (43_header_serializer_parser.md R174). -/
theorem parseBody_eq (s : State) :
    parseBody s = .ofResult (parsed (release s) (parseText .opening [] (unread s))) := by
  rw [parseBody, ← unread_length, parseLoop_eq (unread s) .opening (release s) rfl]
  rfl

/-! ### Digits -/

theorem digitOf_digit {d : Nat} (h : d < 10) : digitOf (BitVec.ofNat 8 (0x30 + d)) = some d := by
  unfold digitOf
  rw [if_pos (by simp; omega)]
  simp
  omega

theorem digitOf_some {b : Byte} {d : Nat} (h : digitOf b = some d) : d < 10 ∧ b = BitVec.ofNat 8 (0x30 + d) := by
  unfold digitOf at h
  split at h
  · cases h
    refine ⟨by omega, ?_⟩
    apply BitVec.eq_of_toNat_eq
    simp
    omega
  · cases h

theorem numeralValue_append (ds : List Nat) (d : Nat) : numeralValue (ds ++ [d]) = pushDigit (numeralValue ds) d := by
  simp [numeralValue, pushDigit]

theorem numeralText_append (ds : List Nat) (d : Nat) :
    numeralText (ds ++ [d]) = numeralText ds ++ [BitVec.ofNat 8 (0x30 + d)] := by simp [numeralText]

theorem isNumeral_append {ds : List Nat} {d : Nat} (h : ∀ x ∈ ds, x < 10) (hd : d < 10) : isNumeral (ds ++ [d]) := by
  refine ⟨by simp, fun x hx => ?_⟩
  rcases List.mem_append.1 hx with hx | hx
  · exact h x hx
  · simp at hx
    omega

/-! ### The table of a header grows entry by entry -/

theorem tableOfHeader_nil : tableOfHeader [] [] := ⟨rfl, by simp⟩

theorem tableOfHeader_snoc {es : List (List Nat × List Nat)} {ft : List (Nat × Count)} (h : tableOfHeader es ft)
    (e : List Nat × List Nat) (hs : numeralValue e.1 ≤ 256) (hn : ∀ e' ∈ es, numeralValue e'.1 ≠ numeralValue e.1) :
    tableOfHeader (es ++ [e]) (Table.set ft (numeralValue e.1) (BitVec.ofNat 32 (numeralValue e.2))) := by
  refine ⟨Table.wf_set _ h.1 (by omega), fun sym c => ?_⟩
  by_cases hsym : sym = numeralValue e.1
  · subst hsym
    rw [Table.get_set_self]
    constructor
    · rintro hc
      cases hc
      exact ⟨e, by simp, rfl, rfl⟩
    · rintro ⟨e', he', h1, h2⟩
      rcases List.mem_append.1 he' with he' | he'
      · exact absurd h1 (hn e' he')
      · simp at he'
        subst he'
        rw [h2]
  · rw [Table.get_set_of_ne _ _ hsym, h.2]
    constructor
    · rintro ⟨e', he', h1⟩
      exact ⟨e', by simp [he'], h1⟩
    · rintro ⟨e', he', h1, h2⟩
      rcases List.mem_append.1 he' with he' | he'
      · exact ⟨e', he', h1, h2⟩
      · simp at he'
        subst he'
        exact absurd h1.symm hsym

theorem tableOfHeader_get_none {es : List (List Nat × List Nat)} {ft : List (Nat × Count)} (h : tableOfHeader es ft)
    (sym : Nat) : Table.get ft sym = none ↔ ∀ e ∈ es, numeralValue e.1 ≠ sym := by
  constructor
  · intro hg e he hs
    have := (h.2 sym _).2 ⟨e, he, hs, rfl⟩
    rw [hg] at this
    cases this
  · intro hall
    cases hg : Table.get ft sym with
    | none => rfl
    | some c =>
      obtain ⟨e, he, hs, -⟩ := (h.2 sym c).1 hg
      exact absurd hs (hall e he)

theorem headerAccepted_snoc {es : List (List Nat × List Nat)} {e : List Nat × List Nat} (h : headerAccepted es)
    (h1 : isNumeral e.1) (h2 : isNumeral e.2) (hs : numeralValue e.1 ≤ 256) (hc : numeralValue e.2 ≤ 4294967295)
    (hn : ∀ e' ∈ es, numeralValue e'.1 ≠ numeralValue e.1) : headerAccepted (es ++ [e]) := by
  constructor
  · intro e' he'
    rcases List.mem_append.1 he' with he' | he'
    · exact h.1 e' he'
    · simp at he'
      subst he'
      exact ⟨h1, h2, hs, hc⟩
  · rw [List.map_append, List.nodup_append]
    refine ⟨h.2, by simp, ?_⟩
    intro a ha b hb
    simp at hb
    subst hb
    obtain ⟨e', he', rfl⟩ := List.mem_map.1 ha
    exact hn e' he'

/-! ### Accepted text fits the grammar -/

/-- An entry as it is spelled. -/
def spell (e : List Nat × List Nat) : List Byte := numeralText e.1 ++ [chColon] ++ numeralText e.2

/-- Entries, each with a comma after it. -/
def spellings (es : List (List Nat × List Nat)) : List Byte := es.flatMap fun e => spell e ++ [chComma]

theorem headerSpelling_snoc (es : List (List Nat × List Nat)) (e : List Nat × List Nat) :
    headerSpelling (es ++ [e]) = chOpen :: spellings es ++ spell e ++ [chClose] := by
  have key : List.intercalate [chComma] ((es ++ [e]).map spell) = spellings es ++ spell e := by
    induction es with
    | nil => simp [List.intercalate, spellings]
    | cons e' es ih =>
      cases es with
      | nil => simp [List.intercalate, spellings]
      | cons e'' es =>
        simp only [List.cons_append, List.map_cons] at ih ⊢
        rw [show List.intercalate [chComma] (spell e' :: spell e'' :: List.map spell (es ++ [e])) =
          spell e' ++ [chComma] ++ List.intercalate [chComma] (spell e'' :: List.map spell (es ++ [e])) by
            simp [List.intercalate, List.intersperse], ih]
        simp [spellings]
  have : headerSpelling (es ++ [e]) = [chOpen] ++ List.intercalate [chComma] ((es ++ [e]).map spell) ++ [chClose] := rfl
  rw [this, key]
  simp

/-- What PARSE has read and committed when it is in a state (43_header_serializer_parser.md R175). -/
def Reading (ft : List (Nat × Count)) (text : List Byte) : ParseState → Prop
  | .opening => text = [] ∧ ft = []
  | .first => text = [chOpen] ∧ ft = []
  | .sym v => ∃ es ds, headerAccepted es ∧ tableOfHeader es ft ∧ isNumeral ds ∧ numeralValue ds = v ∧ v ≤ 256 ∧
      text = chOpen :: spellings es ++ numeralText ds
  | .count0 sym => ∃ es ds, headerAccepted es ∧ tableOfHeader es ft ∧ isNumeral ds ∧ numeralValue ds = sym ∧ sym ≤ 256 ∧
      text = chOpen :: spellings es ++ numeralText ds ++ [chColon]
  | .count sym v => ∃ es ds cs, headerAccepted es ∧ tableOfHeader es ft ∧ isNumeral ds ∧ numeralValue ds = sym ∧
      sym ≤ 256 ∧ isNumeral cs ∧ numeralValue cs = v ∧ v ≤ 4294967295 ∧ text = chOpen :: spellings es ++ spell (ds, cs)
  | .next => ∃ es, headerAccepted es ∧ tableOfHeader es ft ∧ text = chOpen :: spellings es
  | .done => ∃ es, headerAccepted es ∧ tableOfHeader es ft ∧ text = headerSpelling es

theorem headerAccepted_nil : headerAccepted [] := ⟨by simp, by simp⟩

theorem isNumeral_single {d : Nat} (h : d < 10) : isNumeral [d] := ⟨by simp, by simpa using h⟩

/-- Each of `Step`'s moves keeps what the states mean (43_header_serializer_parser.md R175). -/
theorem Reading.step {st st' : ParseState} {ft ft' : List (Nat × Count)} {text : List Byte} {b : Byte}
    (h : Reading ft text st) (hs : parseStep st b ft = some (st', ft')) : Reading ft' (text ++ [b]) st' := by
  cases st with
  | opening =>
    obtain ⟨rfl, rfl⟩ := h
    simp only [parseStep] at hs
    split at hs
    · rename_i hb
      cases hs
      exact ⟨by simp [hb], rfl⟩
    · cases hs
  | first =>
    obtain ⟨rfl, rfl⟩ := h
    simp only [parseStep] at hs
    split at hs
    · rename_i hb
      cases hs
      exact ⟨[], headerAccepted_nil, tableOfHeader_nil, by rw [hb]; rfl⟩
    · split at hs
      · rename_i d hd
        cases hs
        obtain ⟨hd10, rfl⟩ := digitOf_some hd
        exact ⟨[], [d], headerAccepted_nil, tableOfHeader_nil, isNumeral_single hd10, by simp [numeralValue], by omega,
          rfl⟩
      · cases hs
  | sym v =>
    obtain ⟨es, ds, ha, ht, hn, hv, hle, rfl⟩ := h
    simp only [parseStep] at hs
    split at hs
    · rename_i d hd
      obtain ⟨hd10, rfl⟩ := digitOf_some hd
      simp only [takeDigit] at hs
      split at hs
      · rename_i hbound
        cases hs
        refine ⟨es, ds ++ [d], ha, ht, isNumeral_append hn.2 hd10, by rw [numeralValue_append, hv], hbound, ?_⟩
        rw [numeralText_append]
        simp
      · cases hs
    · split at hs
      · rename_i hb
        cases hs
        exact ⟨es, ds, ha, ht, hn, hv, hle, by simp [hb]⟩
      · cases hs
  | count0 sym =>
    obtain ⟨es, ds, ha, ht, hn, hv, hle, rfl⟩ := h
    simp only [parseStep] at hs
    split at hs
    · rename_i d hd
      cases hs
      obtain ⟨hd10, rfl⟩ := digitOf_some hd
      refine ⟨es, ds, [d], ha, ht, hn, hv, hle, isNumeral_single hd10, by simp [numeralValue], by omega, ?_⟩
      simp [spell, numeralText]
    · cases hs
  | count sym v =>
    obtain ⟨es, ds, cs, ha, ht, hn, hv, hle, hcn, hcv, hcle, rfl⟩ := h
    have hcommit : ∀ {ft''}, commit ft sym v = some ft'' → headerAccepted (es ++ [(ds, cs)]) ∧
        tableOfHeader (es ++ [(ds, cs)]) ft'' := by
      intro ft'' hc
      unfold commit at hc
      split at hc
      · cases hc
      · rename_i hg
        cases hc
        have hg' : Table.get ft sym = none := by simpa using hg
        have hne := (tableOfHeader_get_none ht sym).1 hg'
        subst hv hcv
        exact ⟨headerAccepted_snoc ha hn hcn hle hcle hne, tableOfHeader_snoc ht (ds, cs) hle hne⟩
    simp only [parseStep] at hs
    split at hs
    · rename_i d hd
      obtain ⟨hd10, rfl⟩ := digitOf_some hd
      simp only [takeDigit] at hs
      split at hs
      · rename_i hbound
        cases hs
        refine ⟨es, ds, cs ++ [d], ha, ht, hn, hv, hle, isNumeral_append hcn.2 hd10, by rw [numeralValue_append, hcv],
          hbound, ?_⟩
        simp [spell, numeralText_append]
      · cases hs
    · split at hs
      · rename_i hb
        obtain ⟨ft'', hc, heq⟩ := Option.map_eq_some_iff.1 hs
        cases heq
        obtain ⟨h1, h2⟩ := hcommit hc
        exact ⟨es ++ [(ds, cs)], h1, h2, by simp [hb, spellings]⟩
      · split at hs
        · rename_i hb
          obtain ⟨ft'', hc, heq⟩ := Option.map_eq_some_iff.1 hs
          cases heq
          obtain ⟨h1, h2⟩ := hcommit hc
          exact ⟨es ++ [(ds, cs)], h1, h2, by rw [headerSpelling_snoc, hb]⟩
        · cases hs
  | next =>
    obtain ⟨es, ha, ht, rfl⟩ := h
    simp only [parseStep] at hs
    split at hs
    · rename_i d hd
      cases hs
      obtain ⟨hd10, rfl⟩ := digitOf_some hd
      exact ⟨es, [d], ha, ht, isNumeral_single hd10, by simp [numeralValue], by omega, rfl⟩
    · cases hs
  | done => simp [parseStep] at hs

/-- What PARSE accepts is a header of the grammar, and the table is the header's
(43_header_serializer_parser.md R175, R178). -/
theorem parseText_sound (bs : List Byte) : ∀ {st : ParseState} {ft ft' : List (Nat × Count)} {text : List Byte} {k : Nat},
    Reading ft text st → parseText st ft bs = (some ft', k) →
    ∃ es, headerAccepted es ∧ tableOfHeader es ft' ∧ text ++ bs.take k = headerSpelling es := by
  induction bs with
  | nil => simp [parseText]
  | cons b bs ih =>
    intro st ft ft' text k hr hp
    rw [parseText] at hp
    split at hp
    · cases hp
    · rename_i st' ft'' hst
      have hr' := hr.step hst
      split at hp
      · rename_i hd
        cases hp
        subst hd
        obtain ⟨es, ha, ht, he⟩ := hr'
        exact ⟨es, ha, ht, by simpa using he⟩
      · obtain ⟨r, j, hrj⟩ : ∃ r j, parseText st' ft'' bs = (r, j) := ⟨_, _, rfl⟩
        rw [hrj] at hp
        cases hp
        obtain ⟨es, ha, ht, he⟩ := ih hr' hrj
        exact ⟨es, ha, ht, by simpa using he⟩

/-! ### Text of the grammar is accepted -/

/-- A result with more bytes read before it. -/
def later (n : Nat) (r : Option (List (Nat × Count)) × Nat) : Option (List (Nat × Count)) × Nat := (r.1, r.2 + n)

theorem later_later (m n : Nat) (r : Option (List (Nat × Count)) × Nat) : later m (later n r) = later (n + m) r := by
  simp [later, Nat.add_assoc]

theorem parseText_cons {st st' : ParseState} {b : Byte} {ft ft' : List (Nat × Count)} (bs : List Byte)
    (h : parseStep st b ft = some (st', ft')) (hd : st' ≠ .done) :
    parseText st ft (b :: bs) = later 1 (parseText st' ft' bs) := by
  rw [parseText, h]
  simp [hd, later]

theorem le_foldl_digits (ds : List Nat) : ∀ v, v ≤ ds.foldl (fun v d => 10 * v + d) v := by
  induction ds with
  | nil => simp
  | cons d ds ih =>
    intro v
    have := ih (10 * v + d)
    rw [List.foldl_cons]
    omega

theorem parseText_sym_digits (ft : List (Nat × Count)) (rest : List Byte) (ds : List Nat) : ∀ v,
    (∀ d ∈ ds, d < 10) → ds.foldl (fun v d => 10 * v + d) v ≤ 256 →
    parseText (.sym v) ft (numeralText ds ++ rest) =
      later ds.length (parseText (.sym (ds.foldl (fun v d => 10 * v + d) v)) ft rest) := by
  induction ds with
  | nil => exact fun v _ _ => rfl
  | cons d ds ih =>
    intro v hd hb
    have hle := le_foldl_digits ds (10 * v + d)
    rw [List.foldl_cons] at hb ⊢
    have hstep : parseStep (.sym v) (BitVec.ofNat 8 (0x30 + d)) ft = some (.sym (10 * v + d), ft) := by
      have hbound : 10 * v + d ≤ 256 := by omega
      simp [parseStep, digitOf_digit (hd d (by simp)), takeDigit, pushDigit, Config.sentinel, hbound]
    show parseText (.sym v) ft (BitVec.ofNat 8 (0x30 + d) :: (numeralText ds ++ rest)) = _
    rw [parseText_cons _ hstep (by simp), ih _ (fun x hx => hd x (by simp [hx])) hb, later_later]
    rfl

theorem parseText_count_digits (ft : List (Nat × Count)) (sym : Nat) (rest : List Byte) (ds : List Nat) : ∀ v,
    (∀ d ∈ ds, d < 10) → ds.foldl (fun v d => 10 * v + d) v ≤ 4294967295 →
    parseText (.count sym v) ft (numeralText ds ++ rest) =
      later ds.length (parseText (.count sym (ds.foldl (fun v d => 10 * v + d) v)) ft rest) := by
  induction ds with
  | nil => exact fun v _ _ => rfl
  | cons d ds ih =>
    intro v hd hb
    have hle := le_foldl_digits ds (10 * v + d)
    rw [List.foldl_cons] at hb ⊢
    have hstep : parseStep (.count sym v) (BitVec.ofNat 8 (0x30 + d)) ft = some (.count sym (10 * v + d), ft) := by
      have hbound : 10 * v + d ≤ 4294967295 := by omega
      simp [parseStep, digitOf_digit (hd d (by simp)), takeDigit, pushDigit, Config.cmax, hbound]
    show parseText (.count sym v) ft (BitVec.ofNat 8 (0x30 + d) :: (numeralText ds ++ rest)) = _
    rw [parseText_cons _ hstep (by simp), ih _ (fun x hx => hd x (by simp [hx])) hb, later_later]
    rfl

/-- One entry, up to the byte after its count. -/
theorem parseText_entry {st : ParseState} (hst : st = .first ∨ st = .next) (ft : List (Nat × Count))
    (e : List Nat × List Nat) (rest : List Byte) (h1 : isNumeral e.1) (h2 : isNumeral e.2)
    (hs : numeralValue e.1 ≤ 256) (hc : numeralValue e.2 ≤ 4294967295) :
    parseText st ft (spell e ++ rest) =
      later (spell e).length (parseText (.count (numeralValue e.1) (numeralValue e.2)) ft rest) := by
  obtain ⟨ds, cs⟩ := e
  obtain ⟨hne, hds⟩ := h1
  obtain ⟨hne', hcs⟩ := h2
  cases ds with
  | nil => exact absurd rfl hne
  | cons d ds =>
    cases cs with
    | nil => exact absurd rfl hne'
    | cons c cs =>
      have hd10 : d < 10 := hds d (by simp)
      have hstart : parseStep st (BitVec.ofNat 8 (0x30 + d)) ft = some (.sym d, ft) := by
        rcases hst with rfl | rfl
        · have hnc : BitVec.ofNat 8 (0x30 + d) ≠ chClose := by
            intro hx
            have := congrArg BitVec.toNat hx
            simp [chClose] at this
            omega
          simp [parseStep, digitOf_digit hd10, hnc]
        · simp [parseStep, digitOf_digit hd10]
      have hcolon : ∀ v, parseStep (.sym v) chColon ft = some (.count0 v, ft) := by
        intro v
        simp [parseStep, show digitOf chColon = none by decide]
      have hcount : ∀ v, parseStep (.count0 v) (BitVec.ofNat 8 (0x30 + c)) ft = some (.count v c, ft) := by
        intro v
        simp [parseStep, digitOf_digit (hcs c (by simp))]
      have hv : numeralValue (d :: ds) = ds.foldl (fun v d => 10 * v + d) d := by simp [numeralValue]
      have hw : numeralValue (c :: cs) = cs.foldl (fun v d => 10 * v + d) c := by simp [numeralValue]
      simp only at hs hc
      rw [hv] at hs
      rw [hw] at hc
      have htext : spell (d :: ds, c :: cs) ++ rest = BitVec.ofNat 8 (0x30 + d) ::
          (numeralText ds ++ chColon :: (BitVec.ofNat 8 (0x30 + c) :: (numeralText cs ++ rest))) := by
        simp [spell, numeralText]
      rw [htext, parseText_cons _ hstart (by simp),
        parseText_sym_digits ft _ ds d (fun x hx => hds x (by simp [hx])) hs, parseText_cons _ (hcolon _) (by simp),
        parseText_cons _ (hcount _) (by simp),
        parseText_count_digits ft _ rest cs c (fun x hx => hcs x (by simp [hx])) hc]
      simp only [later_later, hv, hw]
      congr 1
      simp [spell, numeralText]
      omega

theorem commit_eq {es : List (List Nat × List Nat)} {ft : List (Nat × Count)} (ht : tableOfHeader es ft)
    {e : List Nat × List Nat} (hn : ∀ e' ∈ es, numeralValue e'.1 ≠ numeralValue e.1) :
    commit ft (numeralValue e.1) (numeralValue e.2) =
      some (Table.set ft (numeralValue e.1) (BitVec.ofNat 32 (numeralValue e.2))) := by
  rw [commit, (tableOfHeader_get_none ht _).2 hn]
  rfl

/-- The entries that are left, after some are committed. -/
theorem parseText_entries (rest : List Byte) (left : List (List Nat × List Nat)) : ∀ {st : ParseState}
    (es : List (List Nat × List Nat)) (e : List Nat × List Nat) (ft : List (Nat × Count)),
    (st = .first ∨ st = .next) → headerAccepted (es ++ e :: left) → tableOfHeader es ft →
    ∃ ft', tableOfHeader (es ++ e :: left) ft' ∧
      parseText st ft (List.intercalate [chComma] ((e :: left).map spell) ++ chClose :: rest) =
        (some ft', (List.intercalate [chComma] ((e :: left).map spell)).length + 1) := by
  induction left with
  | nil =>
    intro st es e ft hst ha ht
    obtain ⟨h1, h2, hs, hc⟩ := ha.1 e (by simp)
    have hn : ∀ e' ∈ es, numeralValue e'.1 ≠ numeralValue e.1 := by
      intro e' he'
      have := ha.2
      rw [List.map_append, List.nodup_append] at this
      exact this.2.2 _ (List.mem_map_of_mem he') _ (by simp)
    refine ⟨_, tableOfHeader_snoc ht e hs hn, ?_⟩
    have hi : List.intercalate [chComma] (List.map spell [e]) = spell e := by simp [List.intercalate]
    rw [hi, parseText_entry hst ft e _ h1 h2 hs hc, parseText]
    have hstep : parseStep (.count (numeralValue e.1) (numeralValue e.2)) chClose ft =
        some (.done, Table.set ft (numeralValue e.1) (BitVec.ofNat 32 (numeralValue e.2))) := by
      simp [parseStep, show digitOf chClose = none by decide, show chClose ≠ chComma by decide, commit_eq ht hn]
    rw [hstep]
    simp [later, Nat.add_comm]
  | cons e2 left ih =>
    intro st es e ft hst ha ht
    obtain ⟨h1, h2, hs, hc⟩ := ha.1 e (by simp)
    have hn : ∀ e' ∈ es, numeralValue e'.1 ≠ numeralValue e.1 := by
      intro e' he'
      have := ha.2
      rw [List.map_append, List.nodup_append] at this
      exact this.2.2 _ (List.mem_map_of_mem he') _ (by simp)
    obtain ⟨ft', ht', hp⟩ := ih (st := .next) (es ++ [e]) e2 _ (.inr rfl) (by simpa using ha)
      (tableOfHeader_snoc ht e hs hn)
    refine ⟨ft', by simpa using ht', ?_⟩
    have hi : List.intercalate [chComma] (List.map spell (e :: e2 :: left)) =
        spell e ++ chComma :: List.intercalate [chComma] (List.map spell (e2 :: left)) := by
      simp [List.intercalate]
    have hstep : parseStep (.count (numeralValue e.1) (numeralValue e.2)) chComma ft =
        some (.next, Table.set ft (numeralValue e.1) (BitVec.ofNat 32 (numeralValue e.2))) := by
      simp [parseStep, show digitOf chComma = none by decide, commit_eq ht hn]
    rw [hi, List.append_assoc, List.cons_append, parseText_entry hst ft e _ h1 h2 hs hc,
      parseText_cons _ hstep (by simp), hp]
    simp [later]
    omega

/-- A header of the grammar is accepted, and read up to its closing brace (43_header_serializer_parser.md R175). -/
theorem parseText_complete {es : List (List Nat × List Nat)} (ha : headerAccepted es) (rest : List Byte) :
    ∃ ft, tableOfHeader es ft ∧
      parseText .opening [] (headerSpelling es ++ rest) = (some ft, (headerSpelling es).length) := by
  have hopen : parseStep .opening chOpen [] = some (.first, []) := rfl
  cases es with
  | nil => exact ⟨[], tableOfHeader_nil, rfl⟩
  | cons e es =>
    obtain ⟨ft, ht, hp⟩ := parseText_entries rest es [] e [] (.inl rfl) (by simpa using ha) tableOfHeader_nil
    refine ⟨ft, by simpa using ht, ?_⟩
    have htext : headerSpelling (e :: es) =
        chOpen :: (List.intercalate [chComma] ((e :: es).map spell) ++ [chClose]) := by
      rw [show headerSpelling (e :: es) = [chOpen] ++ List.intercalate [chComma] ((e :: es).map spell) ++ [chClose]
        from rfl]
      simp
    rw [htext]
    rw [List.cons_append, List.append_assoc, List.singleton_append, parseText_cons _ hopen (by simp), hp]
    simp [later]

end Sys2Proof.Machine
end

