-- ==== Sys2Proof/Laws/Memory.lean ====
section
/-!
SUPPORT. Every operation over the block's indexed memories keeps their canonical form.
-/

namespace Sys2Proof.Machine

theorem Memory.wf_iff (s : State) : Memory.wf s = true ↔ Table.wf s.ft = true ∧ Table.wf s.codes = true ∧
    (∀ e ∈ s.codes, e.2 ≠ [] ∧ e.2.length ≤ 256) ∧ s.nodes.length ≤ 513 := by
  simp only [Memory.wf, Bool.and_eq_true, and_assoc, List.all_eq_true, decide_eq_true_eq, Bool.not_eq_true',
    List.isEmpty_eq_false_iff]
  rfl

theorem Memory.wf_reset : Memory.wf State.reset = true := rfl

theorem Memory.wf_release (s : State) : Memory.wf (release s) = true := rfl

theorem Memory.wf_resetBlock (s : State) : Memory.wf (resetBlock s) = true := rfl

theorem Memory.wf_ftStore {s : State} (h : Memory.wf s = true) {sym : Nat} (hs : sym < 257) (c : Count) :
    Memory.wf (ftStore s sym c) = true := by
  rw [Memory.wf_iff] at *
  exact ⟨Table.wf_set c h.1 hs, h.2⟩

theorem Memory.wf_complete (s : State) (r : ResultCode) : Memory.wf (complete s r) = Memory.wf s := rfl

theorem mem_codeStore {codes : List (Nat × List Bool)} {sym : Nat} {bits : List Bool} {e : Nat × List Bool}
    (h : e ∈ codeStore codes sym bits) : (e = (sym, bits) ∧ bits ≠ []) ∨ e ∈ codes := by
  unfold codeStore at h
  split at h
  · exact .inr (List.mem_of_mem_filter h)
  · rename_i hb
    refine (Table.mem_set h).imp_left fun he => ⟨he, ?_⟩
    rintro rfl
    exact hb rfl

theorem Memory.wf_codeStore {s : State} (h : Memory.wf s = true) {sym : Nat} (hs : sym < 257) {bits : List Bool}
    (hb : bits.length ≤ 256) : Memory.wf { s with codes := codeStore s.codes sym bits } = true := by
  rw [Memory.wf_iff] at *
  refine ⟨h.1, codeStore_wf bits h.2.1 hs, fun e he => ?_, h.2.2.2⟩
  rcases mem_codeStore he with ⟨rfl, hne⟩ | he
  · exact ⟨hne, hb⟩
  · exact h.2.2.1 e he

/-- In a safe state the memories are in canonical form (10_state.md R23, R26, R30). -/
theorem State.Inv.memory {s : State} (h : s.Inv) : Memory.wf s = true := by
  have hlen := ftEntries_length_le s.ft
  have htree : s.root ≠ Config.nil → TreeOk (ftEntries s.ft) s.nodes s.root := by
    intro hr
    rcases h.tree with ⟨hr', -⟩ | hb
    · exact absurd hr' hr
    · exact buildTree_ok hlen hb
  have hnodes : s.nodes.length ≤ 513 := by
    rcases h.tree with ⟨-, hn⟩ | hb
    · simp [hn]
    · exact (buildTree_ok hlen hb).size
  rw [Memory.wf_iff]
  rcases h.code with hc | ⟨hr, hd⟩
  · exact ⟨h.table, by rw [hc]; rfl, by simp [hc], hnodes⟩
  · obtain ⟨codes, hcodes, hwf, hget⟩ := (htree hr).deriveCodes_spec (ftEntries_wf s.ft)
    have : codes = s.codes := by
      rw [hd] at hcodes
      cases hcodes
      rfl
    subst this
    refine ⟨h.table, hwf, fun ⟨sym, bits⟩ he => ?_, hnodes⟩
    have hl := (htree hr).leafFrom_length (ftEntries_wf s.ft) ((hget sym bits).1 ((Table.mem_iff_get hwf _ _).1 he))
    refine ⟨?_, hl.2⟩
    rintro rfl
    simp at hl

end Sys2Proof.Machine
end

