-- ==== Sys2Proof/Laws/PerInstr.lean ====
section
/-!
SUPPORT. Statements made per command: one lemma per constructor of `Instr`.
-/

/-- A command decodes from its own word, and its word has the row's bits (30_encoding.md R91). -/
def Sys2Proof.Laws.RoundTrip.Statement (i : Sys2Proof.Instr) : Prop :=
  Sys2Proof.decodeWord (Sys2Proof.encode i) = i ∧
    Sys2Proof.decodeTableWord 8 (Sys2Proof.encode i).toNat = some i

theorem Sys2Proof.Laws.RoundTrip.freq : Sys2Proof.Laws.RoundTrip.Statement .freq := ⟨rfl, rfl⟩
theorem Sys2Proof.Laws.RoundTrip.build : Sys2Proof.Laws.RoundTrip.Statement .build := ⟨rfl, rfl⟩
theorem Sys2Proof.Laws.RoundTrip.codes : Sys2Proof.Laws.RoundTrip.Statement .codes := ⟨rfl, rfl⟩
theorem Sys2Proof.Laws.RoundTrip.serial : Sys2Proof.Laws.RoundTrip.Statement .serial := ⟨rfl, rfl⟩
theorem Sys2Proof.Laws.RoundTrip.parse : Sys2Proof.Laws.RoundTrip.Statement .parse := ⟨rfl, rfl⟩
theorem Sys2Proof.Laws.RoundTrip.encode : Sys2Proof.Laws.RoundTrip.Statement .encode := ⟨rfl, rfl⟩
theorem Sys2Proof.Laws.RoundTrip.decode : Sys2Proof.Laws.RoundTrip.Statement .decode := ⟨rfl, rfl⟩
theorem Sys2Proof.Laws.RoundTrip.compress : Sys2Proof.Laws.RoundTrip.Statement .compress := ⟨rfl, rfl⟩
theorem Sys2Proof.Laws.RoundTrip.decompress : Sys2Proof.Laws.RoundTrip.Statement .decompress := ⟨rfl, rfl⟩
theorem Sys2Proof.Laws.RoundTrip.rewind : Sys2Proof.Laws.RoundTrip.Statement .rewind := ⟨rfl, rfl⟩
theorem Sys2Proof.Laws.RoundTrip.release : Sys2Proof.Laws.RoundTrip.Statement .release := ⟨rfl, rfl⟩
theorem Sys2Proof.Laws.RoundTrip.reserved0 : Sys2Proof.Laws.RoundTrip.Statement .reserved0 := ⟨rfl, rfl⟩
theorem Sys2Proof.Laws.RoundTrip.reservedC : Sys2Proof.Laws.RoundTrip.Statement .reservedC := ⟨rfl, rfl⟩
theorem Sys2Proof.Laws.RoundTrip.reservedD : Sys2Proof.Laws.RoundTrip.Statement .reservedD := ⟨rfl, rfl⟩
theorem Sys2Proof.Laws.RoundTrip.reservedE : Sys2Proof.Laws.RoundTrip.Statement .reservedE := ⟨rfl, rfl⟩
theorem Sys2Proof.Laws.RoundTrip.reservedF : Sys2Proof.Laws.RoundTrip.Statement .reservedF := ⟨rfl, rfl⟩
end

