-- ==== Sys2Proof/Laws/Step.lean ====
section
/-!
SUPPORT. How a command's body ends, how stages compose, and all a step can do.
-/

namespace Sys2Proof.Machine

/-! ### The end of a body -/

@[simp] theorem finish_done (s : State) (r : ResultCode) : finish (.done s r) = .next (complete s r) := rfl

@[simp] theorem finish_stop (f : Fault) : finish (.stop f) = .fault f := rfl

theorem finish_next {x : Stage} {t : State} (h : finish x = .next t) : ∃ s r, x = .done s r ∧ t = complete s r := by
  cases x with
  | done s r => exact ⟨s, r, rfl, by simpa using h.symm⟩
  | stop f => simp at h

/-- No body refuses. -/
theorem finish_not_refused (x : Stage) (r : Refusal) : finish x ≠ .refused r := by
  cases x <;> simp

/-! ### Stages -/

@[simp] theorem andThen_ok (s : State) (next : State → Stage) : (Stage.done s .ok).andThen next = next s := by
  simp [Stage.andThen]

theorem andThen_error {s : State} {r : ResultCode} (h : r ≠ .ok) (next : State → Stage) :
    (Stage.done s r).andThen next = .done s r := by simp [Stage.andThen, h]

@[simp] theorem andThen_stop (f : Fault) (next : State → Stage) : (Stage.stop f).andThen next = .stop f := rfl

/-- All a sequence of two stages can do. -/
theorem andThen_done {x : Stage} {next : State → Stage} {t : State} {r : ResultCode} (h : x.andThen next = .done t r) :
    (∃ s, x = .done s .ok ∧ next s = .done t r) ∨ (x = .done t r ∧ r ≠ .ok) := by
  cases x with
  | stop f => simp at h
  | done s q =>
    by_cases hq : q = .ok
    · subst hq
      exact .inl ⟨s, rfl, by simpa using h⟩
    · rw [andThen_error hq] at h
      cases h
      exact .inr ⟨rfl, hq⟩

@[simp] theorem releasing_done (s : State) (r : ResultCode) : (Stage.done s r).releasing = .done (release s) r := rfl

@[simp] theorem releasing_stop (f : Fault) : (Stage.stop f).releasing = .stop f := rfl

theorem releasing_eq_done {x : Stage} {t : State} {r : ResultCode} (h : x.releasing = .done t r) :
    ∃ s, x = .done s r ∧ t = release s := by
  cases x with
  | stop f => simp at h
  | done s q =>
    cases h
    exact ⟨s, rfl, rfl⟩

/-! ### The step -/

theorem step_issued {s : State} {op : Opcode} (h : s.issued = some op) : step s = busyStep op s := by simp [step, h]

theorem step_idle {s : State} (h : s.issued = none) : step s = .next (idleStep s) := by simp [step, h]

/-- The body of each command, before its result is written. -/
def bodyOf (i : Instr) (s : State) : Stage :=
  match i with
  | .freq => freqBody s
  | .build => buildBody s
  | .codes => codesBody s
  | .serial => serialBody s
  | .parse => parseBody s
  | .encode => encodeBody s
  | .decode => decodeBody s
  | .compress => (compressStages s).releasing
  | .decompress => (decompressStages s).releasing
  | .rewind => rewindBody s
  | .release => releaseBody s
  | .reserved0 => illegalBody s
  | .reservedC => illegalBody s
  | .reservedD => illegalBody s
  | .reservedE => illegalBody s
  | .reservedF => illegalBody s

/-- Every command is its body and then the writing of its result. -/
theorem exec_eq_finish (i : Instr) (s : State) : exec i s = finish (bodyOf i s) := by
  cases i <;> rfl

theorem exec_next {i : Instr} {s t : State} (h : exec i s = .next t) :
    ∃ u r, bodyOf i s = .done u r ∧ t = complete u r := finish_next (exec_eq_finish i s ▸ h)

/-- No meaning of a command refuses. -/
theorem exec_not_refused (i : Instr) (s : State) (r : Refusal) : exec i s ≠ .refused r :=
  exec_eq_finish i s ▸ finish_not_refused _ r

/-- All a step can do when it answers a next state: run the issued command, ignore what the host does meanwhile, abandon
the command, or let the host act. -/
theorem step_cases {s t : State} (h : step s = .next t) :
    (∃ op, s.issued = some op ∧ exec (decodeWord op) s = .next t) ∨
    (∃ op e rest, s.issued = some op ∧ s.host = e :: rest ∧ t = { s with host := rest }) ∨
    (∃ op rest u, s.issued = some op ∧ s.host = .reset :: rest ∧
      exec (decodeWord op) { s with host := rest } = .next u ∧
      t = resetBlock { s with host := rest, out := outWhenAbandoned { s with host := rest } u, draws := s.draws + 1 }) ∨
    (s.issued = none ∧ t = idleStep s) := by
  obtain ⟨o, hi⟩ : ∃ o, s.issued = o := ⟨_, rfl⟩
  cases o with
  | none =>
    rw [step_idle hi] at h
    cases h
    exact .inr (.inr (.inr ⟨hi, rfl⟩))
  | some op =>
    rw [step_issued hi] at h
    unfold busyStep at h
    obtain ⟨l, hh⟩ : ∃ l, s.host = l := ⟨_, rfl⟩
    cases l with
    | nil =>
      rw [hh] at h
      exact .inl ⟨op, hi, h⟩
    | cons e rest =>
      simp only [hh] at h
      cases e with
      | attachIn bytes => simp [hostWhileBusy] at h
      | attachOut => simp [hostWhileBusy] at h
      | readOut => simp [hostWhileBusy] at h
      | readDebug => simp [hostWhileBusy] at h
      | waitIdle => exact .inl ⟨op, hi, by simpa [hostWhileBusy, runIssued] using h⟩
      | writeCmd op' =>
        simp [hostWhileBusy] at h
        exact .inr (.inl ⟨op, _, rest, hi, hh, h.symm⟩)
      | readStatus =>
        simp [hostWhileBusy] at h
        exact .inr (.inl ⟨op, _, rest, hi, hh, h.symm⟩)
      | reset =>
        simp only [hostWhileBusy, abandonCommand, runIssued] at h
        rw [if_neg (by simp)] at h
        cases hu : exec (decodeWord op) { s with host := rest } with
        | next u =>
          rw [hu] at h
          cases h
          exact .inr (.inr (.inl ⟨op, rest, u, hi, hh, hu, by simp⟩))
        | fault f =>
          rw [hu] at h
          simp at h
        | refused r =>
          rw [hu] at h
          simp at h

/-- A step faults only where the issued command does. -/
theorem step_fault {s : State} {f : Fault} (h : step s = .fault f) :
    ∃ op host', s.issued = some op ∧ exec (decodeWord op) { s with host := host' } = .fault f := by
  obtain ⟨o, hi⟩ : ∃ o, s.issued = o := ⟨_, rfl⟩
  cases o with
  | none => simp [step_idle hi] at h
  | some op =>
    rw [step_issued hi] at h
    unfold busyStep at h
    obtain ⟨l, hh⟩ : ∃ l, s.host = l := ⟨_, rfl⟩
    cases l with
    | nil =>
      rw [hh] at h
      refine ⟨op, [], hi, ?_⟩
      rw [← hh]
      exact h
    | cons e rest =>
      simp only [hh] at h
      cases e with
      | waitIdle =>
        refine ⟨op, s.host, hi, ?_⟩
        simpa [hostWhileBusy, runIssued] using h
      | reset =>
        simp only [hostWhileBusy, abandonCommand, runIssued] at h
        rw [if_neg (by simp)] at h
        refine ⟨op, rest, hi, ?_⟩
        cases hu : exec (decodeWord op) { s with host := rest } with
        | next u =>
          rw [hu] at h
          simp at h
        | fault f' =>
          rw [hu] at h
          cases h
          rfl
        | refused r =>
          rw [hu] at h
          simp at h
      | attachIn bytes => simp [hostWhileBusy] at h
      | attachOut => simp [hostWhileBusy] at h
      | readOut => simp [hostWhileBusy] at h
      | readDebug => simp [hostWhileBusy] at h
      | writeCmd op' => simp [hostWhileBusy] at h
      | readStatus => simp [hostWhileBusy] at h

end Sys2Proof.Machine
end

