-- ==== Sys2Proof/Tests/Slice0.lean ====
section
/-!
SUPPORT. The model's own tests: the decoder against the table's words, the vectors of spec/95_test_vectors.md (named in
each comment), and for every statement that has hypotheses a state that meets them.
-/

namespace Sys2Proof.Tests.Slice0

open Sys2Proof Sys2Proof.Machine

/-! ### Helpers -/

/-- The next state, where there is one. -/
def after (o : Host.Outcome State Fault Refusal) : Option State :=
  match o with
  | .next s => some s
  | .fault _ => none
  | .refused _ => none

/-- Bytes from numbers. -/
def bytes (l : List Nat) : List Byte := l.map (BitVec.ofNat 8)

/-- Reset, then ATTACH_IN. -/
def attached (l : List Nat) : State := attachIn State.reset (bytes l)

/-- The state with a frequency table. -/
def withTable (ft : List (Nat × Count)) : State := { State.reset with ft := ft }

/-- A leaf as 30_encoding.md R110 writes it. -/
def leaf (sym freq : Nat) : Node := ⟨true, BitVec.ofNat 9 sym, BitVec.ofNat 41 freq, 1023#10, 1023#10⟩

/-- An internal node as 30_encoding.md R110 writes it. -/
def internal (freq a b : Nat) : Node :=
  ⟨false, 257#9, BitVec.ofNat 41 freq, BitVec.ofNat 10 a, BitVec.ofNat 10 b⟩

/-- The source's example (95_test_vectors.md B7) with its tree and code table, and a payload byte at the cursor. -/
def demo (l : List Nat) : State :=
  { attached l with
    ft := [(65, 15#32), (66, 1#32), (256, 1#32)]
    nodes := [leaf 65 15, leaf 66 1, leaf 256 1, internal 2 1 2, internal 17 3 0]
    root := 4#10
    codes := [(65, [true]), (66, [false, false]), (256, [false, true])] }

/-- The degenerate tree of one entry without the sentinel (95_test_vectors.md B3). -/
def lone (l : List Nat) : State :=
  { attached l with ft := [(65, 3#32)], nodes := [leaf 65 3, internal 3 0 1023], root := 1#10 }

/-- What a test reads of the state after a command. -/
def view (o : Host.Outcome State Fault Refusal) : Option (ResultCode × Nat × List Byte) :=
  (after o).map fun s => (s.err, s.inPos, s.out)

/-! ### Well-formedness refuses -/

theorem test_wf_upper_bits_refused : commandByteWf 0x1F#8 = false := by decide
theorem test_wf_command_byte : commandByteWf 0x0F#8 = true := by decide
theorem test_wf_program_reserved_refused : programWf [.freq, .reservedC] = false := by decide
theorem test_wf_table_order_refused : Table.wf [(66, 1#32), (65, 1#32)] = false := by decide
theorem test_wf_table_repeat_refused : Table.wf [(65, 1#32), (65, 2#32)] = false := by decide
theorem test_wf_table_index_refused : Table.wf [(257, 1#32)] = false := by decide
theorem test_memory_wf_empty_codeword_refused :
    Memory.wf { State.reset with codes := [(65, [])] } = false := by decide
theorem test_memory_wf_reset : Memory.wf State.reset = true := by decide

/-! ### Decoding: the binary column of 30_encoding.md R91, bit for bit -/

theorem test_decode_primitives :
    decodeWord 0b0001#4 = .freq ∧ decodeWord 0b0010#4 = .build ∧ decodeWord 0b0011#4 = .codes ∧
    decodeWord 0b0100#4 = .serial ∧ decodeWord 0b0101#4 = .parse ∧ decodeWord 0b0110#4 = .encode ∧
    decodeWord 0b0111#4 = .decode := by decide
theorem test_decode_composites :
    decodeWord 0b1000#4 = .compress ∧ decodeWord 0b1001#4 = .decompress ∧ decodeWord 0b1010#4 = .rewind ∧
    decodeWord 0b1011#4 = .release := by decide
theorem test_decode_reserved :
    decodeWord 0b0000#4 = .reserved0 ∧ decodeWord 0b1100#4 = .reservedC ∧ decodeWord 0b1101#4 = .reservedD ∧
    decodeWord 0b1110#4 = .reservedE ∧ decodeWord 0b1111#4 = .reservedF := by decide
theorem test_decode_table_words :
    decodeTableWord 8 0x1 = some .freq ∧ decodeTableWord 8 0x9 = some .decompress ∧
    decodeTableWord 8 0xF = some .reservedF ∧ decodeTableWord 8 0x11 = none ∧ decodeTableWord 0 0 = none := by decide
theorem test_decode_bytes :
    (decode [0x02#8, 0x55#8]).toOption = some (.build, [0x55#8]) ∧ (decode [0x52#8]).toOption = none ∧
    (decode []).toOption = none := by decide
theorem test_fetch_runs_the_word :
    (after (step (State.reset.withFetchWord 8 0x4))).map (·.out) = some [0x7B#8, 0x7D#8] := by decide

/-! ### Stream primitives (95_test_vectors.md M) -/

/-- M2 and M3. -/
theorem test_out_bits_and_flush :
    (outBits State.reset [true, false, true]).outAcc = 0xA0#8 ∧
    (outFlush (outBits State.reset [true, false, true])).out = [0xA0#8] := by decide
/-- M5. -/
theorem test_out_bits_whole_byte :
    (outBits State.reset [true, false, true, true, false, false, false, true]).out = [0xB1#8] := by decide
/-- M7. -/
theorem test_in_bits :
    (inBitOp (attached [0xA5])).1 = some true ∧ (inBitOp (inBitOp (attached [0xA5])).2).1 = some false ∧
    (inBitOp (inBitOp (attached [0xA5])).2).2.inBit = 2#3 := by decide
/-- M9. -/
theorem test_in_align : (inAlign { attached [0xA5, 0x3C] with inBit := 3#3 }).inPos = 1 := by decide
/-- M11. -/
theorem test_in_byte : (inByte { attached [0x41, 0x42] with inPos := 1 }).1 = some 0x42#8 := by decide

/-! ### Commands (95_test_vectors.md) -/

/-- F4: byte 255 and the sentinel are different entries. -/
theorem test_freq_byte_255 :
    (after (exec .freq (attached [0x00, 0xFF]))).map (·.ft) = some [(0, 1#32), (255, 1#32), (256, 1#32)] := by decide
/-- F7: counting starts at the cursor; F8: the old tree is gone. -/
theorem test_freq_from_cursor :
    (after (exec .freq { demo [65, 66] with inPos := 1 })).map (fun s => (s.ft, s.inPos, s.root)) =
      some ([(66, 1#32), (256, 1#32)], 2, 1023#10) := by decide
/-- B7: the first of two equal frequencies is the 0-branch. -/
theorem test_build_tie_break :
    (after (exec .build (withTable [(65, 15#32), (66, 1#32), (256, 1#32)]))).map (fun s => (s.nodes, s.root)) =
      some ([leaf 65 15, leaf 66 1, leaf 256 1, internal 2 1 2, internal 17 3 0], 4#10) := by decide
/-- B13: a leaf comes out before an internal node of equal frequency. -/
theorem test_build_leaf_before_internal :
    (after (exec .build (withTable
      [(1, 1#32), (2, 1#32), (3, 2#32), (4, 3#32), (5, 5#32), (6, 8#32), (256, 1#32)]))).map (·.nodes.drop 7) =
      some [internal 2 0 1, internal 3 6 2, internal 5 7 3, internal 8 8 4, internal 13 9 5, internal 21 10 11] := by
  decide
/-- 42_code_deriver.md R160, example. -/
theorem test_codes_example :
    (after (exec .codes { demo [] with codes := [] })).map (·.codes) =
      some [(65, [true]), (66, [false, false]), (256, [false, true])] := by decide
/-- B3: the one symbol of a degenerate tree gets the codeword 0. -/
theorem test_codes_degenerate : (after (exec .codes (lone []))).map (·.codes) = some [(65, [false])] := by decide
/-- H4. -/
theorem test_serial_example :
    view (exec .serial (demo [])) = some (.ok, 0, bytes
      [0x7B, 0x36, 0x35, 0x3A, 0x31, 0x35, 0x2C, 0x36, 0x36, 0x3A, 0x31, 0x2C, 0x32, 0x35, 0x36, 0x3A, 0x31, 0x7D]) := by
  decide
/-- H9: the greatest count. -/
theorem test_serial_cmax :
    view (exec .serial (withTable [(256, 4294967295#32)])) = some (.ok, 0, bytes
      [0x7B, 0x32, 0x35, 0x36, 0x3A, 0x34, 0x32, 0x39, 0x34, 0x39, 0x36, 0x37, 0x32, 0x39, 0x35, 0x7D]) := by decide
/-- 43_header_serializer_parser.md R181: leading zeros and the cursor after the brace. -/
theorem test_parse_leading_zeros :
    (after (exec .parse (attached
      [0x7B, 0x30, 0x30, 0x36, 0x35, 0x3A, 0x30, 0x31, 0x2C, 0x32, 0x35, 0x36, 0x3A, 0x31, 0x7D, 0xFF]))).map
      (fun s => (s.err, s.inPos, s.ft)) = some (.ok, 15, [(65, 1#32), (256, 1#32)]) := by decide
/-- R181: a count over `CMAX` fails at its last digit. -/
theorem test_parse_count_bound :
    (after (exec .parse (attached
      [0x7B, 0x32, 0x35, 0x36, 0x3A, 0x34, 0x32, 0x39, 0x34, 0x39, 0x36, 0x37, 0x32, 0x39, 0x36, 0x7D]))).map
      (fun s => (s.err, s.inPos, s.ft)) = some (.malformedHeader, 15, []) := by decide
/-- E12: a payload that ends on a byte boundary gets no padding byte. -/
theorem test_encode_no_padding_byte :
    view (exec .encode (demo [65, 65, 65, 65, 66])) = some (.ok, 5, [0xF1#8]) := by decide
/-- E14: the bits already written are flushed. -/
theorem test_encode_unknown_symbol :
    view (exec .encode (demo [65, 67])) = some (.unknownSymbol, 2, [0x80#8]) := by decide
/-- X17: bits run out in the middle of a codeword. -/
theorem test_decode_out_of_bits :
    view (exec .decode (demo [0xC8])) = some (.corruptStream, 1, bytes [65, 65, 66, 65, 66]) := by decide
/-- X13: a 1 at the degenerate root, after two bytes. -/
theorem test_decode_degenerate_root :
    view (exec .decode (lone [0x20])) = some (.corruptStream, 1, bytes [65, 65]) := by decide
/-- V2. -/
theorem test_compress_empty :
    view (exec .compress (attached [])) = some (.ok, 0, bytes [0x7B, 0x32, 0x35, 0x36, 0x3A, 0x31, 0x7D, 0x00]) := by
  decide
/-- V6: the cursor at issue does not matter. -/
theorem test_compress_rewinds :
    view (exec .compress { attached [65, 66] with inPos := 2 }) = some (.ok, 2, bytes
      [0x7B, 0x36, 0x35, 0x3A, 0x31, 0x2C, 0x36, 0x36, 0x3A, 0x31, 0x2C, 0x32, 0x35, 0x36, 0x3A, 0x31, 0x7D, 0xB0]) := by
  decide
/-- V14: DECOMPRESS stops at the sentinel. -/
theorem test_decompress_ok :
    view (exec .decompress (attached
      [0x7B, 0x30, 0x30, 0x36, 0x35, 0x3A, 0x30, 0x31, 0x2C, 0x32, 0x35, 0x36, 0x3A, 0x31, 0x7D, 0x40])) =
      some (.ok, 16, [0x41#8]) := by decide
/-- V10: the header of the empty table. -/
theorem test_decompress_empty_alphabet :
    view (exec .decompress (attached [0x7B, 0x7D])) = some (.emptyAlphabet, 2, []) := by decide
/-- K1, K5. -/
theorem test_rewind :
    view (exec .rewind { demo [65, 66] with inPos := 2, err := .illegalCommand }) = some (.ok, 0, []) := by decide
/-- K2. -/
theorem test_release :
    (after (exec .release { demo [65] with inPos := 1 })).map (fun s => (s.ft.length, nNodes s, s.codes.length, s.inPos)) =
      some (0, 0, 0, 1) := by decide
/-- K3. -/
theorem test_reserved_0 :
    (after (exec .reserved0 (demo [65]))) = some { demo [65] with err := .illegalCommand } := by decide
/-- K4. -/
theorem test_reserved_c_to_f :
    [Instr.reservedC, .reservedD, .reservedE, .reservedF].map (fun i => after (exec i (demo [65]))) =
      List.replicate 4 (some { demo [65] with err := .illegalCommand }) := by decide

/-! ### The host and the registers -/

/-- `STATUS` (10_state.md R33): busy, `CorruptStream`, end of input. -/
theorem test_status_word :
    statusWord { State.reset with issued := some 0x7#4, err := .corruptStream } = 0b10111#5 := by decide
/-- 70_reset_and_hazards.md R265: a second write is ignored, and the first command runs when the host waits. -/
theorem test_write_while_busy_is_ignored :
    (after (step { State.reset with issued := some 0x4#4, host := [.writeCmd 0x2#4, .waitIdle] })).map
      (fun s => (s.issued, s.host)) = some (some 0x4#4, [.waitIdle]) := by decide
/-- 70_reset_and_hazards.md R264. -/
theorem test_attach_while_busy_is_refused :
    after (step { State.reset with issued := some 0x4#4, host := [.attachIn [0x41#8]] }) = none := by decide
/-- K6: `IN` is kept and rewound, `OUT` is kept. -/
theorem test_reset_keeps_streams :
    (after (step { demo [65, 66] with inPos := 2, out := [0x7B#8], host := [.reset] })).map
      (fun s => (s.ft, s.root, s.inPos, s.input, s.out)) = some ([], 1023#10, 0, bytes [65, 66], [0x7B#8]) := by decide
/-- 70_reset_and_hazards.md R260: the command is abandoned, whatever the free value. -/
theorem test_reset_abandons_command :
    (after (step { demo [65] with issued := some 0x4#4, host := [.reset] })).map (fun s => (s.issued, s.ft, s.draws)) =
      some (none, [], 1) := by decide
/-- 30_encoding.md R110 to R112: the debug view of one leaf, one count and one codeword. -/
theorem test_record_layouts :
    (Node.pack (leaf 65 3)).extractLsb' 61 10 = 0b1001000001#10 ∧
    (Node.pack (leaf 65 3)).extractLsb' 0 61 = (3#41 ++ 0b11111111111111111111#20) := by decide
theorem test_entry_layouts :
    packCount (some 5#32) = 0x100000005#33 ∧ packCode [false, true] = (2#9 ++ 2#256) := by decide

/-! ### Programs (30_encoding.md R115) -/

theorem test_program_line_comment :
    parseLine "COMPRESS            ; 8".toList = some (.command .compress) := by decide
theorem test_program_line_attach :
    parseLine "ATTACH_IN  7B 32".toList = some (.attachIn [0x7B#8, 0x32#8]) := by decide
theorem test_program_line_synonym : parseLine "derive_codes".toList = some (.command .codes) := by decide
theorem test_program_line_refused : parseLine "JUMP".toList = none := by decide
/-- P2's encoding is `1 2 3 4 6 B`. -/
theorem test_program_encoding :
    encodeProgram [.freq, .build, .codes, .serial, .encode, .release] =
      [0x1#4, 0x2#4, 0x3#4, 0x4#4, 0x6#4, 0xB#4] := by decide

/-! ### Witnesses: for each statement with hypotheses, a state and operands that meet all of them -/

theorem next_of_after {o : Host.Outcome State Fault Refusal} (h : (after o).isSome = true) : ∃ t, o = .next t := by
  cases o with
  | next t => exact ⟨t, rfl⟩
  | fault f => cases h
  | refused r => cases h

/-- Does the command complete with an error? -/
def fails (i : Instr) (s : State) : Bool := ((after (exec i s)).map fun t => t.err != .ok).getD false

theorem next_of_fails {i : Instr} {s : State} (h : fails i s = true) : ∃ t, exec i s = .next t ∧ t.err ≠ .ok := by
  unfold fails at h
  cases ho : exec i s with
  | next t =>
    rw [ho] at h
    exact ⟨t, rfl, by simpa [after] using h⟩
  | fault f => simp [ho, after] at h
  | refused r => simp [ho, after] at h

/-- Does the command complete with `OK`? -/
def passes (i : Instr) (s : State) : Bool := ((after (exec i s)).map fun t => t.err == .ok).getD false

theorem next_of_passes {i : Instr} {s : State} (h : passes i s = true) : ∃ t, exec i s = .next t ∧ t.err = .ok := by
  unfold passes at h
  cases ho : exec i s with
  | next t =>
    rw [ho] at h
    exact ⟨t, rfl, by simpa [after] using h⟩
  | fault f => simp [ho, after] at h
  | refused r => simp [ho, after] at h

theorem demo_inv (l : List Nat) : (demo l).Inv where
  cursor := Nat.zero_le _
  aligned := rfl
  accumulator := rfl
  flushed := rfl
  table := rfl
  tree := .inr (show buildTree (ftEntries [(65, 15#32), (66, 1#32), (256, 1#32)]) = some
    ([leaf 65 15, leaf 66 1, leaf 256 1, internal 2 1 2, internal 17 3 0], 4#10) by decide)
  code := .inr ⟨show (4#10 : Handle) ≠ Config.nil by decide, rfl⟩

theorem lone_inv (l : List Nat) : (lone l).Inv where
  cursor := Nat.zero_le _
  aligned := rfl
  accumulator := rfl
  flushed := rfl
  table := rfl
  tree := .inr (show buildTree (ftEntries [(65, 3#32)]) = some ([leaf 65 3, internal 3 0 1023], 1#10) by decide)
  code := .inl rfl

theorem reset_inv : State.reset.Inv where
  cursor := le_refl _
  aligned := rfl
  accumulator := rfl
  flushed := rfl
  table := rfl
  tree := .inl ⟨rfl, rfl⟩
  code := .inl rfl

/-- Byte values at both ends of each range of `DecodeEncodeAgree`. -/
theorem witness_DecodeEncodeAgree :
    Instr.wf .reservedF = true ∧ 16 ≤ (0x10#8).toNat ∧ 16 ≤ (0xFF#8).toNat := by decide

theorem codeLen_single (w : List Bool) : codeLen { State.reset with codes := [(65, w)] } 65 = w.length := rfl

theorem witness_CodeEntryLayout :
    codeLen { State.reset with codes := [(65, List.replicate 256 true)] } 65 ≤ 256 ∧ codeLen State.reset 65 ≤ 256 :=
  ⟨by rw [codeLen_single, List.length_replicate], Nat.zero_le _⟩

theorem witness_StepRunsIssuedCommand :
    (∃ s : State, s.issued = some 0x4#4 ∧ s.host = []) ∧
    ∃ s : State, s.issued = some 0xF#4 ∧ s.host.head? = some .waitIdle :=
  ⟨⟨{ State.reset with issued := some 0x4#4 }, rfl, rfl⟩,
    ⟨{ State.reset with issued := some 0xF#4, host := [.waitIdle] }, rfl, rfl⟩⟩

theorem witness_CommandWriteIssuesOrIsIgnored :
    (∃ s : State, s.host = .writeCmd 0x1#4 :: [] ∧ s.issued = none) ∧
    ∃ s : State, s.host = .writeCmd 0x1#4 :: [] ∧ s.issued ≠ none :=
  ⟨⟨{ State.reset with host := [.writeCmd 0x1#4] }, rfl, rfl⟩,
    ⟨{ State.reset with host := [.writeCmd 0x1#4], issued := some 0x2#4 }, rfl, by decide⟩⟩

theorem witness_AttachOnlyWhileIdle :
    (∃ s : State, s.issued = none ∧ s.host = .attachIn [0x41#8] :: []) ∧
    (∃ s : State, s.issued = none ∧ s.host = .attachOut :: []) ∧
    (∃ s : State, s.issued ≠ none ∧ s.host = .attachIn [] :: []) ∧
    ∃ s : State, s.issued ≠ none ∧ s.host = .attachOut :: [] :=
  ⟨⟨{ State.reset with host := [.attachIn [0x41#8]] }, rfl, rfl⟩, ⟨{ State.reset with host := [.attachOut] }, rfl, rfl⟩,
    ⟨{ State.reset with host := [.attachIn []], issued := some 0x2#4 }, by decide, rfl⟩,
    ⟨{ State.reset with host := [.attachOut], issued := some 0x2#4 }, by decide, rfl⟩⟩

/-- Both sides of the hypothesis. -/
theorem witness_ResetValues : resetBlock (demo [65]) ≠ State.reset ∧ resetBlock (demo [65]) = resetBlock (demo [65]) ∧
    State.reset = State.reset := by decide

theorem witness_ResetWhileIdle : ∃ s : State, s.issued = none ∧ s.host = .reset :: [] :=
  ⟨{ demo [65] with host := [.reset] }, rfl, rfl⟩

theorem witness_ResetAbandonsCommand : ∃ s t : State, s.issued = some 0x4#4 ∧ s.host = .reset :: [] ∧
    exec (decodeWord 0x4#4) { s with host := [] } = .next t := by
  obtain ⟨t, ht⟩ := next_of_after (show (after (exec .serial { demo [65] with issued := some 0x4#4 })).isSome = true by
    decide)
  exact ⟨{ demo [65] with issued := some 0x4#4, host := [.reset] }, t, rfl, rfl, ht⟩

/-- The input of one byte value, some number of times. -/
def same (n : Nat) : State := attachIn State.reset (List.replicate n 0x41#8)

theorem unread_same (n : Nat) : unread (same n) = List.replicate n 0x41#8 := rfl

theorem countsFit_same {n : Nat} (h : n ≤ 4294967295) : countsFit (unread (same n)) := fun b =>
  (List.count_le_length).trans (by rw [unread_same, List.length_replicate]; exact h)

/-- No byte at all, and one byte value exactly `CMAX` times. -/
theorem witness_FreqCountsUnreadBytes :
    ((same 0).inPos ≤ (same 0).input.length ∧ countsFit (unread (same 0))) ∧
    ((same 4294967295).inPos ≤ (same 4294967295).input.length ∧ countsFit (unread (same 4294967295))) :=
  ⟨⟨Nat.zero_le _, countsFit_same (by omega)⟩, ⟨Nat.zero_le _, countsFit_same (le_refl _)⟩⟩

theorem count_same (n : Nat) : (unread (same n)).count 0x41#8 = n := by
  rw [unread_same, List.count_replicate_self]

/-- One byte value `CMAX + 1` times. -/
theorem witness_FreqCountOverflow : ∃ b : Byte, 4294967295 < (unread (same 4294967296)).count b :=
  ⟨0x41#8, by rw [count_same]; omega⟩

theorem witness_FreqDependsOnMultiset : ∃ s s' t t' : State, unread s ≠ unread s' ∧ (unread s).Perm (unread s') ∧
    exec .freq s = .next t ∧ exec .freq s' = .next t' := by
  obtain ⟨t, ht⟩ := next_of_after (show (after (exec .freq (attached [65, 66]))).isSome = true by decide)
  obtain ⟨t', ht'⟩ := next_of_after (show (after (exec .freq (attached [66, 65]))).isSome = true by decide)
  exact ⟨attached [65, 66], attached [66, 65], t, t', by decide, List.Perm.swap 66#8 65#8 [], ht, ht'⟩

/-- Each of the three clauses. -/
theorem witness_BuildEmptyAlphabet : (∀ sym < 257, ftPresent State.reset sym = false) ∧
    (∃ t, exec .release (demo []) = .next t) ∧ unread (attached [0x7B, 0x7D, 0x41]) = [0x7B#8, 0x7D#8] ++ [0x41#8] :=
  ⟨fun _ _ => rfl, next_of_after (by decide), rfl⟩

/-- The smallest and the greatest symbol. -/
theorem witness_BuildDegenerateTree :
    (Table.get (withTable [(0, 0#32)]).ft 0 = some 0#32 ∧
      ∀ sym < 257, sym ≠ 0 → ftPresent (withTable [(0, 0#32)]) sym = false) ∧
    (Table.get (withTable [(256, 1#32)]).ft 256 = some 1#32 ∧
      ∀ sym < 257, sym ≠ 256 → ftPresent (withTable [(256, 1#32)]) sym = false) := by
  refine ⟨⟨rfl, fun sym _ h => ?_⟩, ⟨rfl, fun sym _ h => ?_⟩⟩ <;> simp [ftPresent, withTable, Table.get, h]

/-- The clause on a 1 at the degenerate root. -/
theorem witness_BuildDegenerateTree_decode :
    (0x80#8).getLsbD 7 = true ∧ unread (lone [0x80]) = 0x80#8 :: [] ∧ (lone [0x80]).inBit = 0#3 ∧
    Table.get (lone [0x80]).ft 65 = some 3#32 ∧ ∀ sym < 257, sym ≠ 65 → ftPresent (lone [0x80]) sym = false := by
  refine ⟨rfl, rfl, rfl, rfl, fun sym _ h => ?_⟩
  simp [ftPresent, lone, Table.get, h]

/-- Two entries, and all 257. -/
theorem witness_BuildMergesGreedily :
    2 ≤ (ftEntries (withTable [(65, 1#32), (256, 1#32)]).ft).length ∧
    2 ≤ (ftEntries (withTable ((List.range 257).map fun sym => (sym, 1#32))).ft).length := by
  refine ⟨by decide, ?_⟩
  have hwf : Table.wf ((List.range 257).map fun sym => (sym, 1#32)) = true := by
    rw [Table.wf_iff, List.pairwise_map]
    exact ⟨List.pairwise_lt_range, by simp⟩
  rw [show (withTable ((List.range 257).map fun sym => (sym, 1#32))).ft = (List.range 257).map fun sym => (sym, 1#32)
    from rfl, ftEntries_of_wf hwf]
  simp

theorem witness_BuildDependsOnTableAlone : ∃ s s' t t' : State, s.input ≠ s'.input ∧
    (∀ sym < 257, Table.get s.ft sym = Table.get s'.ft sym) ∧ exec .build s = .next t ∧ exec .build s' = .next t' := by
  obtain ⟨t, ht⟩ := next_of_after (show (after (exec .build (demo [65]))).isSome = true by decide)
  obtain ⟨t', ht'⟩ := next_of_after (show (after (exec .build (demo [66]))).isSome = true by decide)
  exact ⟨demo [65], demo [66], t, t', by decide, fun _ _ => rfl, ht, ht'⟩

/-- Each side of the clause on the degenerate root. -/
theorem witness_TreeStructure :
    ((demo []).Inv ∧ (demo []).root ≠ 1023#10 ∧ (ftEntries (demo []).ft).length ≠ 1) ∧
    ((lone []).Inv ∧ (lone []).root ≠ 1023#10 ∧ (ftEntries (lone []).ft).length = 1) :=
  ⟨⟨demo_inv [], by decide, by decide⟩, ⟨lone_inv [], by decide, by decide⟩⟩

theorem witness_CodesRecordsPaths : (demo []).Inv ∧ (demo []).root ≠ 1023#10 := ⟨demo_inv [], by decide⟩

theorem witness_CodesNoTree : State.reset.root = 1023#10 := rfl

theorem witness_CodewordsArePrefixFree : (demo []).Inv ∧ (demo []).codes ≠ [] ∧ 1 ≤ codeLen (demo []) 65 ∧
    1 ≤ codeLen (demo []) 256 := ⟨demo_inv [], by decide⟩

theorem witness_SerialAppendsHeader : (demo []).outN = 0#3 ∧ (outBits (demo []) [true]).outN ≠ 0#3 := by decide

theorem witness_SerialHeaderLength : ∃ s t : State, s.outN = 0#3 ∧ exec .serial s = .next t ∧ s.ft = [] := by
  obtain ⟨t, ht⟩ := next_of_after (show (after (exec .serial State.reset)).isSome = true by decide)
  exact ⟨_, t, rfl, ht, rfl⟩

/-- No entry; and the greatest symbol and count, a leading zero and a count of 0. -/
theorem witness_ParseAcceptsHeader :
    (headerAccepted [] ∧ unread (attachIn State.reset (headerSpelling [] ++ [0xFF#8])) = headerSpelling [] ++ [0xFF#8]) ∧
    ∃ es, es = [([2, 5, 6], [4, 2, 9, 4, 9, 6, 7, 2, 9, 5]), ([0, 6, 5], [0])] ∧ headerAccepted es ∧
      unread (attachIn State.reset (headerSpelling es ++ [])) = headerSpelling es ++ [] := by
  refine ⟨⟨by simp [headerAccepted], rfl⟩, _, rfl, ?_, rfl⟩
  simp [headerAccepted, isNumeral, numeralValue]

/-- Each side of the equivalence is met. -/
theorem witness_ParseAcceptsExactlyTheGrammar : ∃ s t : State, exec .parse s = .next t ∧ t.err = .ok := by
  obtain ⟨t, ht⟩ := next_of_passes (show passes .parse (attached [0x7B, 0x36, 0x3A, 0x31, 0x7D]) = true by decide)
  exact ⟨_, t, ht⟩

/-- Where the two clauses of `ParseMalformedHeader` on the cursor meet: a beginning that may go on, and a byte that no
header has there. -/
theorem witness_headerBegun : headerBegun [] ∧ headerBegun [0x7B#8] ∧ ¬ headerBegun [0x41#8] := by
  have h0 : headerAccepted [([0], [0])] := by simp [headerAccepted, isNumeral, numeralValue]
  have hnil : headerAccepted [] := by simp [headerAccepted]
  refine ⟨⟨[], ([0], [0]), headerSpelling [([0], [0])], hnil, h0, by decide, rfl⟩,
    ⟨[], ([0], [0]), [0x30#8, 0x3A#8, 0x30#8, 0x7D#8], hnil, h0, by decide, by decide⟩, ?_⟩
  rintro ⟨es, e, tail, -, -, -, h⟩
  have := congrArg List.head? h
  simp [headerSpelling] at this

/-- Nothing to read, and a first byte that opens no header. -/
theorem witness_ParseMalformedHeader :
    (¬ ∃ es rest, headerAccepted es ∧ unread State.reset = headerSpelling es ++ rest) ∧
    ¬ ∃ es rest, headerAccepted es ∧ unread (attached [0x41]) = headerSpelling es ++ rest := by
  constructor <;> rintro ⟨es, rest, -, h⟩ <;> have := congrArg List.head? h <;>
    simp [unread, State.reset, attached, bytes, headerSpelling] at this

theorem witness_ParseOfSerialIsIdentity :
    ∃ s t : State, Table.wf s.ft = true ∧ s.outN = 0#3 ∧ exec .serial s = .next t := by
  obtain ⟨t, ht⟩ := next_of_after (show (after (exec .serial (demo []))).isSome = true by decide)
  exact ⟨_, t, rfl, rfl, ht⟩

/-- Writing from a byte boundary; reading at the end, and inside the last byte. -/
theorem witness_BitOrderMostSignificantFirst :
    ((demo []).outN = 0#3 ∧ (demo []).outAcc = 0#8) ∧
    (State.reset.inPos ≤ State.reset.input.length ∧ (State.reset.inBit ≠ 0#3 → State.reset.inPos < 0)) ∧
    ∃ s : State, s.inBit = 7#3 ∧ s.inPos ≤ s.input.length ∧ (s.inBit ≠ 0#3 → s.inPos < s.input.length) :=
  ⟨⟨rfl, rfl⟩, ⟨le_refl _, fun h => absurd rfl h⟩, { attached [0x41] with inBit := 7#3 }, rfl, by decide, by decide⟩

theorem witness_EncodeAppendsPayload : ∃ s : State, s = demo [65, 66] ∧ s.outN = 0#3 ∧ s.outAcc = 0#8 ∧
    (∀ b ∈ s.input, codeLen s b.toNat ≠ 0) ∧ codeLen s 256 ≠ 0 := ⟨_, rfl, by decide⟩

/-- A byte, first and not first, and the sentinel. -/
theorem witness_EncodeUnknownSymbol :
    ((demo [67]).input[0]? = some 67#8 ∧ codeLen (demo [67]) 67 = 0 ∧
      ∀ b ∈ (demo [67]).input.take 0, codeLen (demo [67]) b.toNat ≠ 0) ∧
    ((demo [65, 67]).input[1]? = some 67#8 ∧ codeLen (demo [65, 67]) 67 = 0 ∧
      ∀ b ∈ (demo [65, 67]).input.take 1, codeLen (demo [65, 67]) b.toNat ≠ 0) ∧
    ∃ s : State, s = { attached [65] with codes := [(65, [false])] } ∧ (∀ b ∈ s.input, codeLen s b.toNat ≠ 0) ∧
      codeLen s 256 = 0 :=
  ⟨by decide, by decide, _, rfl, by decide⟩

/-- No byte, and five; the sentinel's codeword ends a byte, and does not. -/
theorem witness_DecodeFollowsCodewords :
    (leafPath (demo [0x40]) [false, true] 256 ∧ unreadBits (demo [0x40]) = [] ++ [false, true] ++ List.replicate 6 false) ∧
    ∃ ws : List (List Bool × Byte), ws = List.replicate 4 ([true], 65#8) ++ [([false, false], 66#8)] ∧
      (demo [0xF1]).Inv ∧ (demo [0xF1]).root ≠ 1023#10 ∧ (∀ e ∈ ws, leafPath (demo [0xF1]) e.1 e.2.toNat) ∧
      leafPath (demo [0xF1]) [false, true] 256 ∧
      unreadBits (demo [0xF1]) = ws.flatMap (fun e => e.1) ++ [false, true] ++ [] := by
  refine ⟨⟨⟨2#10, leaf 256 1, rfl, rfl, rfl, rfl⟩, by decide⟩, _, rfl, demo_inv _, by decide, ?_,
    ⟨2#10, leaf 256 1, rfl, rfl, rfl, rfl⟩, by decide⟩
  intro e he
  rcases List.mem_append.1 he with he | he
  · rw [List.eq_of_mem_replicate he]
    exact ⟨0#10, leaf 65 15, rfl, rfl, rfl, rfl⟩
  · rw [List.mem_singleton.1 he]
    exact ⟨1#10, leaf 66 1, rfl, rfl, rfl, rfl⟩

/-- A state for each of the ways `DecodeCorruptStream` tells apart: it succeeds, runs out, finds no branch. -/
theorem witness_DecodeCorruptStream :
    ((demo [0x40]).Inv ∧ (demo [0x40]).root ≠ 1023#10 ∧ passes .decode (demo [0x40]) = true) ∧
    ((demo []).Inv ∧ (demo []).root ≠ 1023#10 ∧ fails .decode (demo []) = true) ∧
    ((lone [0x20]).Inv ∧ (lone [0x20]).root ≠ 1023#10 ∧ fails .decode (lone [0x20]) = true) :=
  ⟨⟨demo_inv _, by decide⟩, ⟨demo_inv _, by decide⟩, ⟨lone_inv _, by decide⟩⟩

theorem witness_DecodeNoTree : State.reset.root = 1023#10 := rfl

theorem witness_DecodeWithoutSentinelFails :
    (lone [0x00]).Inv ∧ (lone [0x00]).root ≠ 1023#10 ∧ ftPresent (lone [0x00]) 256 = false := ⟨lone_inv _, by decide⟩

/-- Nothing of the payload left, and all but the last of two bytes left. -/
theorem witness_TruncatedPayloadIsDetected :
    (∃ (s t : State) (X : List Byte), s.Inv ∧ s.codes ≠ [] ∧ exec .encode s = .next t ∧ t.err = .ok ∧
      t.out = s.out ++ X ∧ 0 < X.length) ∧
    ∃ (s t : State) (X : List Byte), s.Inv ∧ s.codes ≠ [] ∧ exec .encode s = .next t ∧ t.err = .ok ∧
      t.out = s.out ++ X ∧ 1 < X.length := by
  refine ⟨⟨demo [], { demo [] with out := [0x40#8] }, [0x40#8], demo_inv _, by decide, rfl, rfl, rfl, by decide⟩,
    ⟨demo [65, 65, 65, 65, 66, 65], { demo [65, 65, 65, 65, 66, 65] with inPos := 6, out := [0xF2#8, 0x80#8] },
      [0xF2#8, 0x80#8], demo_inv _, by decide, rfl, rfl, rfl, by decide⟩⟩

theorem witness_DecodeOfEncodeIsIdentity : ∃ (s t : State) (X : List Byte), s.Inv ∧ s.codes ≠ [] ∧
    exec .encode s = .next t ∧ t.err = .ok ∧ t.out = s.out ++ X :=
  ⟨demo [65], { demo [65] with inPos := 1, out := [0xA0#8] }, [0xA0#8], demo_inv _, by decide, rfl, rfl, rfl⟩

/-- A clean run of each, and a failing stage. -/
theorem witness_CompositesEqualPrimitives :
    (runClean [.rewind, .freq, .build, .codes, .serial, .encode, .release] (attached [65])).isSome = true ∧
    (runClean [.parse, .build, .decode, .release]
      (attached [0x7B, 0x32, 0x35, 0x36, 0x3A, 0x31, 0x7D, 0x00])).isSome = true ∧
    ∃ t, runClean [.parse] (attached [0x7B, 0x7D]) = some t ∧ fails .build t = true := by
  refine ⟨by decide, by decide, ?_⟩
  obtain ⟨t, ht⟩ := Option.isSome_iff_exists.1
    (show (runClean [.parse] (attached [0x7B, 0x7D])).isSome = true by decide)
  refine ⟨t, ht, ?_⟩
  have h : ((runClean [.parse] (attached [0x7B, 0x7D])).map fun t => fails .build t) = some true := by decide
  rw [ht] at h
  exact Option.some_inj.1 h

/-- The empty input, and one byte value exactly `CMAX` times. -/
theorem witness_CompressAppendsStream :
    ((same 0).outN = 0#3 ∧ (same 0).outAcc = 0#8 ∧ countsFit (same 0).input) ∧
    ((same 4294967295).outN = 0#3 ∧ (same 4294967295).outAcc = 0#8 ∧ countsFit (same 4294967295).input) :=
  ⟨⟨rfl, rfl, countsFit_same (by omega)⟩, ⟨rfl, rfl, countsFit_same (le_refl _)⟩⟩

theorem witness_CompressCountOverflow : ∃ b : Byte, 4294967295 < (same 4294967296).input.count b :=
  witness_FreqCountOverflow

theorem witness_CompressDependsOnInputAlone : ∃ s s' t t' : State, s ≠ s' ∧ s.input = s'.input ∧ s.outN = 0#3 ∧
    s.outAcc = 0#8 ∧ s'.outN = 0#3 ∧ s'.outAcc = 0#8 ∧ exec .compress s = .next t ∧ exec .compress s' = .next t' := by
  obtain ⟨t, ht⟩ := next_of_after (show (after (exec .compress (demo [65]))).isSome = true by decide)
  obtain ⟨t', ht'⟩ := next_of_after (show (after (exec .compress (attached [65]))).isSome = true by decide)
  exact ⟨demo [65], attached [65], t, t', by decide, rfl, rfl, rfl, rfl, rfl, ht, ht'⟩

/-- The stream of 95_test_vectors.md V3's shape: `A` once, and the sentinel. -/
theorem witness_DecompressDecodesStream : ∃ (s v : State) (es : List (List Nat × List Nat)) (Y : List Byte)
    (ft : List (Nat × Count)) (nodes : List Node) (root : Handle) (ws : List (List Bool × Byte)) (w rest : List Bool),
    s.inBit = 0#3 ∧ s.outN = 0#3 ∧ s.inPos ≤ s.input.length ∧ headerAccepted es ∧ unread s = headerSpelling es ++ Y ∧
    tableOfHeader es ft ∧ buildTree (ftEntries ft) = some (nodes, root) ∧ v = { s with nodes := nodes, root := root } ∧
    (∀ e ∈ ws, leafPath v e.1 e.2.toNat) ∧ leafPath v w 256 ∧ streamBits Y = ws.flatMap (fun e => e.1) ++ w ++ rest := by
  refine ⟨attached [0x7B, 0x36, 0x35, 0x3A, 0x31, 0x2C, 0x32, 0x35, 0x36, 0x3A, 0x31, 0x7D, 0x40], _,
    [([6, 5], [1]), ([2, 5, 6], [1])], [0x40#8], [(65, 1#32), (256, 1#32)],
    [leaf 65 1, leaf 256 1, internal 2 0 1], 2#10, [([false], 65#8)], [true], List.replicate 6 false,
    rfl, rfl, by decide, by simp [headerAccepted, isNumeral, numeralValue], by decide, ⟨rfl, ?_⟩, by decide, rfl, ?_,
    ⟨1#10, leaf 256 1, rfl, rfl, rfl, rfl⟩, by decide⟩
  · intro sym c
    by_cases h65 : sym = 65
    · subst h65
      simp [Table.get, numeralValue]
    · by_cases h256 : sym = 256
      · subst h256
        simp [Table.get, numeralValue]
      · simp [Table.get, numeralValue, h65, h256, Ne.symm h65, Ne.symm h256]
  · intro e he
    rw [List.mem_singleton.1 he]
    exact ⟨0#10, leaf 65 1, rfl, rfl, rfl, rfl⟩

theorem witness_DecompressReleasesOnEveryPath : (demo [0x7B]).Inv ∧ State.reset.Inv := ⟨demo_inv _, reset_inv⟩

theorem witness_DecompressOfCompressIsIdentity :
    State.reset.outN = 0#3 ∧ State.reset.outAcc = 0#8 ∧ countsFit [] ∧ countsFit (unread (same 4294967295)) :=
  ⟨rfl, rfl, fun _ => Nat.zero_le _, countsFit_same (le_refl _)⟩

theorem witness_ReservedOpcodesAreIllegal :
    Instr.reservedF ∈ [Instr.reserved0, .reservedC, .reservedD, .reservedE, .reservedF] := by decide

theorem witness_OutputOnlyGrows : ∀ i ∈ Instr.all, ∃ t, exec i (demo [65]) = .next t := by
  intro i _
  cases i <;> exact next_of_after (by decide)

theorem witness_TableCommandsLeaveStreams :
    ∀ i ∈ [Instr.build, .codes, .release, .reserved0, .reservedC, .reservedD, .reservedE, .reservedF],
      ∃ t, exec i (demo [65]) = .next t := fun i _ => witness_OutputOnlyGrows i (by cases i <;> decide)

theorem witness_StreamCommandsLeaveTables :
    ∀ i ∈ [Instr.serial, .encode, .decode, .rewind, .freq, .parse], ∃ t, exec i (demo [65]) = .next t := fun i _ =>
  witness_OutputOnlyGrows i (by cases i <;> decide)

theorem witness_ResultsOfEachCommand : ∀ i ∈ Instr.all, ∃ t, exec i (demo [65]) = .next t := witness_OutputOnlyGrows

/-- A failure for each row of 60_exceptions.md R241 that a small input shows. -/
theorem witness_FailedCommandsLeave :
    ((demo [65]).Inv ∧ fails .parse (demo [65]) = true ∧ fails .decompress (demo [65]) = true) ∧
    (State.reset.Inv ∧ fails .build State.reset = true ∧ fails .codes State.reset = true ∧
      fails .decode State.reset = true ∧ fails .encode State.reset = true ∧ fails .reserved0 State.reset = true) :=
  ⟨⟨demo_inv _, by decide⟩, ⟨reset_inv, by decide⟩⟩

theorem witness_EveryCommandCompletes : (demo [65]).Inv ∧ (lone []).Inv ∧ State.reset.Inv :=
  ⟨demo_inv _, lone_inv _, reset_inv⟩

/-- The invariant holds with a command issued and the host about to act, and such a step answers a next state. -/
theorem witness_StepKeepsSafeState : ∃ s t : State, s.Inv ∧ step s = .next t ∧ s.issued = some 0x7#4 := by
  obtain ⟨t, ht⟩ := next_of_after (show (after (step { demo [0x40] with issued := some 0x7#4 })).isSome = true by decide)
  have h := demo_inv [0x40]
  exact ⟨{ demo [0x40] with issued := some 0x7#4 }, t,
    ⟨h.cursor, h.aligned, h.accumulator, h.flushed, h.table, h.tree, h.code⟩, ht, rfl⟩

theorem witness_RunsFromSafeStatesAreSafe : State.reset.Inv ∧ (demo [0x40]).Inv := ⟨reset_inv, demo_inv _⟩

end Sys2Proof.Tests.Slice0
end

/-!
PROOFS. The step of a busy block whose host lets the command run (00_scope.md R15, 10_state.md R21).
-/

namespace Sys2Proof.Machine

/-! ### The busy step, by what the host does -/

theorem busyStep_of_silent {s : State} {op : Opcode} (h : s.host = []) :
    busyStep op s = exec (decodeWord op) s := by simp [busyStep, h, runIssued]

/-- A host that waits is not taken from the list: the command runs at `s` itself. -/
theorem busyStep_of_waitIdle {s : State} {op : Opcode} {rest : List HostEvent} (h : s.host = .waitIdle :: rest) :
    busyStep op s = exec (decodeWord op) s := by simp [busyStep, h, hostWhileBusy, runIssued]

/-- Settles O6: a busy block takes the busy step, which runs the command both for a silent and for a waiting host. -/
theorem stepRunsIssuedCommand : Obligations.StepRunsIssuedCommand := by
  intro s op hop hhost
  rw [step_issued hop]
  rcases hhost with hsilent | hwait
  · exact busyStep_of_silent hsilent
  · obtain ⟨rest, hrest⟩ := List.head?_eq_some_iff.mp hwait
    exact busyStep_of_waitIdle hrest

end Sys2Proof.Machine

/-!
PROOFS. The safe state: the state after reset is one, and every step keeps it (10_state.md R24, R25, R36, R38). What the
host does first, then the bodies of the commands, by whether they write the tables, then the step.
-/

namespace Sys2Proof.Machine

/-! ### Reset, and what the host does -/

/-- Reset leaves a safe state, whatever the state before. -/
theorem resetBlock_inv (s : State) : (resetBlock s).Inv :=
  ⟨Nat.zero_le _, rfl, rfl, rfl, rfl, .inl ⟨rfl, rfl⟩, .inl rfl⟩

/-- Settles O55: the state after power-on is its own reset. -/
theorem resetIsSafeState : Obligations.ResetIsSafeState := resetBlock_inv State.reset

namespace State.Inv

variable {s t : State}

/-- The invariant of a state with the tables of a safe one: only its streams are to be checked. -/
theorem of_sameTables (h : s.Inv) (hft : t.ft = s.ft) (hnodes : t.nodes = s.nodes) (hroot : t.root = s.root)
    (hcodes : t.codes = s.codes) (cursor : t.inPos ≤ t.input.length) (aligned : t.inBit = 0#3)
    (accumulator : t.outAcc = 0#8) (flushed : t.outN = 0#3) : t.Inv where
  cursor := cursor
  aligned := aligned
  accumulator := accumulator
  flushed := flushed
  table := hft ▸ h.table
  tree := by rw [hft, hnodes, hroot]; exact h.tree
  code := by rw [hnodes, hroot, hcodes]; exact h.code

/-- The result and the end of `busy` are outside the invariant. -/
theorem complete (h : s.Inv) (r : ResultCode) : (complete s r).Inv :=
  h.of_sameTables rfl rfl rfl rfl h.cursor h.aligned h.accumulator h.flushed

theorem withHost (h : s.Inv) (rest : List HostEvent) : { s with host := rest }.Inv :=
  h.of_sameTables rfl rfl rfl rfl h.cursor h.aligned h.accumulator h.flushed

/-- A safe state stays safe with a table in canonical form in place of its own, once tree and code table are gone. -/
theorem withFreshTable (h : s.Inv) {ft : List (Nat × Count)} {p : Nat} (hft : Table.wf ft = true)
    (hp : p ≤ s.input.length) :
    { s with ft := ft, nodes := [], root := Config.nil, codes := [], inPos := p }.Inv :=
  ⟨hp, h.aligned, h.accumulator, h.flushed, hft, .inl ⟨rfl, rfl⟩, .inl rfl⟩

theorem withCodes (h : s.Inv) {codes : List (Nat × List Bool)}
    (hcodes : codes = [] ∨ (s.root ≠ Config.nil ∧ deriveCodes s.nodes s.root = .ok codes)) :
    { s with codes := codes }.Inv :=
  ⟨h.cursor, h.aligned, h.accumulator, h.flushed, h.table, h.tree, hcodes⟩

theorem release (h : s.Inv) : (release s).Inv := h.withFreshTable rfl h.cursor

/-- The tree of a safe state is a tree of its entries. -/
theorem treeOk (h : s.Inv) (hr : s.root ≠ Config.nil) : TreeOk (ftEntries s.ft) s.nodes s.root := by
  rcases h.tree with ⟨hnil, -⟩ | hbuilt
  · exact absurd hnil hr
  · exact buildTree_ok (ftEntries_length_le s.ft) hbuilt

theorem cursorOk (h : s.Inv) : cursorOk s := ⟨h.cursor, fun hb => absurd h.aligned hb⟩

/-- Reading some of the unread bytes keeps the cursor inside the input. -/
theorem read_le (h : s.Inv) {k : Nat} (hk : k ≤ (unread s).length) : s.inPos + k ≤ s.input.length := by
  have hcursor := h.cursor
  rw [unread_length, bytesLeft] at hk
  omega

/-- Every action of the host on an idle block keeps the safe state (20_memory.md R69, 70_reset_and_hazards.md R260). -/
theorem hostWhenIdle (h : s.Inv) (e : HostEvent) : (hostWhenIdle e s).Inv := by
  cases e with
  | attachIn bytes => exact h.of_sameTables rfl rfl rfl rfl (Nat.zero_le _) rfl h.accumulator h.flushed
  | attachOut => exact h.of_sameTables rfl rfl rfl rfl h.cursor h.aligned h.accumulator h.flushed
  | writeCmd op => exact h.of_sameTables rfl rfl rfl rfl h.cursor h.aligned h.accumulator h.flushed
  | waitIdle => exact h
  | readStatus => exact h
  | readOut => exact h
  | readDebug => exact h
  | reset => exact resetBlock_inv s

theorem idleStep (h : s.Inv) : (idleStep s).Inv := by
  unfold Machine.idleStep
  split
  · exact h
  · exact (h.withHost _).hostWhenIdle _

end State.Inv

/-! ### Stages that end in a safe state -/

/-- The body meets no fault, and the state it ends in is safe. -/
def Stage.EndsSafe (x : Stage) : Prop := ∃ t r, x = .done t r ∧ t.Inv

namespace Stage.EndsSafe

variable {x : Stage}

theorem andThen (h : x.EndsSafe) {next : State → Stage} (hnext : ∀ t : State, t.Inv → (next t).EndsSafe) :
    (x.andThen next).EndsSafe := by
  obtain ⟨t, r, rfl, ht⟩ := h
  by_cases hr : r = .ok
  · subst hr
    rw [andThen_ok]
    exact hnext t ht
  · exact ⟨t, r, andThen_error hr next, ht⟩

theorem releasing (h : x.EndsSafe) : x.releasing.EndsSafe := by
  obtain ⟨t, r, rfl, ht⟩ := h
  exact ⟨_, r, releasing_done t r, ht.release⟩

theorem inv (h : x.EndsSafe) {t : State} {r : ResultCode} (hx : x = .done t r) : t.Inv := by
  obtain ⟨t', r', rfl, ht⟩ := h
  cases hx
  exact ht

end Stage.EndsSafe

/-! ### The commands that write the tables -/

theorem freqBody_endsSafe {s : State} (h : s.Inv) : (freqBody s).EndsSafe := by
  rcases freqBody_spec s with ⟨-, ft, ⟨hwf, -⟩, he⟩ | ⟨k, b, hk, -, -, he⟩
  · exact ⟨_, _, he, h.withFreshTable hwf (h.read_le le_rfl)⟩
  · exact ⟨_, _, he, h.withFreshTable rfl (h.read_le (List.getElem?_eq_some_iff.1 hk).1)⟩

theorem buildBody_of_none {s : State} (h : buildTree (ftEntries s.ft) = none) :
    buildBody s = .done { s with nodes := [], root := Config.nil, codes := [] } .emptyAlphabet := by
  simp [buildBody, h]

theorem buildBody_of_some {s : State} {nodes : List Node} {root : Handle}
    (h : buildTree (ftEntries s.ft) = some (nodes, root)) :
    buildBody s = .done { s with nodes := nodes, root := root, codes := [] } .ok := by
  simp [buildBody, h]

theorem buildBody_endsSafe {s : State} (h : s.Inv) : (buildBody s).EndsSafe := by
  cases hb : buildTree (ftEntries s.ft) with
  | none => exact ⟨_, _, buildBody_of_none hb, h.withFreshTable h.table h.cursor⟩
  | some tree =>
    exact ⟨_, _, buildBody_of_some hb, h.cursor, h.aligned, h.accumulator, h.flushed, h.table, .inr hb, .inl rfl⟩

theorem codesBody_of_nil {s : State} (h : s.root = Config.nil) : codesBody s = .done { s with codes := [] } .noTree := by
  simp [codesBody, h]

theorem codesBody_of_ok {s : State} {codes : List (Nat × List Bool)} (h : s.root ≠ Config.nil)
    (hd : deriveCodes s.nodes s.root = .ok codes) : codesBody s = .done { s with codes := codes } .ok := by
  simp [codesBody, h, hd]

theorem codesBody_endsSafe {s : State} (h : s.Inv) : (codesBody s).EndsSafe := by
  by_cases hr : s.root = Config.nil
  · exact ⟨_, _, codesBody_of_nil hr, h.withCodes (.inl rfl)⟩
  · obtain ⟨codes, hd, -⟩ := (h.treeOk hr).deriveCodes_spec (ftEntries_wf s.ft)
    exact ⟨_, _, codesBody_of_ok hr hd, h.withCodes (.inr ⟨hr, hd⟩)⟩

theorem parseBody_endsSafe {s : State} (h : s.Inv) : (parseBody s).EndsSafe := by
  obtain ⟨table, k, hp⟩ : ∃ table k, parseText .opening [] (unread s) = (table, k) := ⟨_, _, rfl⟩
  have hk : k ≤ (unread s).length := by simpa [hp] using parseText_le (unread s) .opening []
  have hbody : parseBody s = .ofResult (parsed (release s) (table, k)) := by rw [parseBody_eq, hp]
  cases table with
  | none => exact ⟨_, _, hbody, h.withFreshTable rfl (h.read_le hk)⟩
  | some ft =>
    have hopening : Reading [] [] .opening := ⟨rfl, rfl⟩
    obtain ⟨es, -, ⟨hwf, -⟩, -⟩ := parseText_sound (unread s) hopening hp
    exact ⟨_, _, hbody, h.withFreshTable hwf (h.read_le hk)⟩

/-! ### The commands that leave the tables -/

theorem serialBody_endsSafe {s : State} (h : s.Inv) : (serialBody s).EndsSafe := by
  have hout := outBytes_of_flushed (headerText s.ft) h.flushed
  exact ⟨_, .ok, congrArg (Stage.done · .ok) hout,
    h.of_sameTables rfl rfl rfl rfl h.cursor h.aligned h.accumulator h.flushed⟩

theorem rewindBody_endsSafe {s : State} (h : s.Inv) : (rewindBody s).EndsSafe :=
  ⟨_, _, rfl, h.of_sameTables rfl rfl rfl rfl (Nat.zero_le _) rfl h.accumulator h.flushed⟩

/-- Whichever way ENCODE goes, it reads bytes of the input, writes bits and flushes (44_bitstream_codec.md R190, R192). -/
theorem encodeBody_eq_flushed (s : State) : ∃ p bits r, p ≤ s.input.length ∧
    encodeBody s = .done (outFlush (outBits { rewindCursor s with inPos := p } bits)) r := by
  have hu : unread (rewindCursor s) = s.input := unread_rewind s
  rcases encode_cases (rewindCursor s) s.input with ⟨hall, hend⟩ | ⟨k, b, hk, hb, hall⟩ | ⟨hall, hend⟩
  · exact ⟨_, _, _, by simp, congrArg Stage.ofResult (encodeLoop_ok s.input _ hu hall hend)⟩
  · have hlt := (List.getElem?_eq_some_iff.1 hk).1
    exact ⟨_, _, _, by simp; omega, congrArg Stage.ofResult (encodeLoop_unknown_byte s.input _ k b hu hk hb hall)⟩
  · exact ⟨_, _, _, by simp, congrArg Stage.ofResult (encodeLoop_unknown_sentinel s.input _ hu hall hend)⟩

theorem encodeBody_endsSafe {s : State} (h : s.Inv) : (encodeBody s).EndsSafe := by
  obtain ⟨p, bits, r, hp, he⟩ := encodeBody_eq_flushed s
  obtain ⟨X, -, hX⟩ := outFlush_outBits { rewindCursor s with inPos := p } h.flushed h.accumulator bits
  rw [hX] at he
  exact ⟨_, r, he, h.of_sameTables rfl rfl rfl rfl hp rfl h.accumulator h.flushed⟩

/-- DECODE reads no more bits than there are, whichever of its three ways it goes. -/
theorem TreeOk.decodeBits_read_le {es : List (Nat × Count)} {nodes : List Node} {root : Handle}
    (h : TreeOk es nodes root) (hwf : Table.wf es = true) (bits : List Bool) :
    (decodeBits nodes root root bits).2.1 ≤ bits.length := by
  cases decodeWay h hwf bits with
  | sentinel ws w rest hwords hlast heq =>
    rw [heq, decodeBits_sentinel h hwords hlast rest]
    simp
  | ranOut ws tail x n hwords hpath hnode hinner heq =>
    rw [heq, decodeBits_ranOut h hwords hpath hnode hinner]
  | noBranch ws tail hwords hsingle heq =>
    rw [heq, decodeBits_noBranch h hwords hsingle tail]
    simp

/-- After some of the bits left are read, the cursor rounded up to a byte is inside the input. -/
theorem decoded_cursor_le {s : State} (hc : cursorOk s) {read : Nat} (hread : read ≤ (unreadBits s).length) :
    (bitPos s + read + 7) / 8 ≤ s.input.length := by
  obtain ⟨hle, hlt⟩ := hc
  rw [unreadBits_length, bitsLeft] at hread
  unfold bitPos
  by_cases hbit : s.inBit = 0#3
  · simp only [hbit, BitVec.toNat_ofNat] at hread ⊢
    omega
  · have := hlt hbit
    have := s.inBit.isLt
    omega

theorem decodeBody_endsSafe {s : State} (h : s.Inv) : (decodeBody s).EndsSafe := by
  by_cases hr : s.root = Config.nil
  · exact ⟨s, .noTree, if_pos hr, h⟩
  · have htree := h.treeOk hr
    have hle := decoded_cursor_le h.cursorOk (htree.decodeBits_read_le (ftEntries_wf s.ft) (unreadBits s))
    exact ⟨_, _, decodeBody_eq htree h.flushed h.cursorOk,
      h.of_sameTables rfl rfl rfl rfl hle rfl h.accumulator h.flushed⟩

/-! ### Every command, every step -/

theorem compressStages_endsSafe {s : State} (h : s.Inv) : (compressStages s).EndsSafe :=
  (((((rewindBody_endsSafe h).andThen fun _ => freqBody_endsSafe).andThen fun _ => buildBody_endsSafe).andThen
    fun _ => codesBody_endsSafe).andThen fun _ => serialBody_endsSafe).andThen fun _ => encodeBody_endsSafe

theorem decompressStages_endsSafe {s : State} (h : s.Inv) : (decompressStages s).EndsSafe :=
  ((parseBody_endsSafe h).andThen fun _ => buildBody_endsSafe).andThen fun _ => decodeBody_endsSafe

/-- From a safe state every command's body ends, and in a safe state (10_state.md R36). -/
theorem bodyOf_endsSafe (i : Instr) {s : State} (h : s.Inv) : (bodyOf i s).EndsSafe := by
  cases i with
  | freq => exact freqBody_endsSafe h
  | build => exact buildBody_endsSafe h
  | codes => exact codesBody_endsSafe h
  | serial => exact serialBody_endsSafe h
  | parse => exact parseBody_endsSafe h
  | encode => exact encodeBody_endsSafe h
  | decode => exact decodeBody_endsSafe h
  | compress => exact (compressStages_endsSafe h).releasing
  | decompress => exact (decompressStages_endsSafe h).releasing
  | rewind => exact rewindBody_endsSafe h
  | release => exact ⟨_, _, rfl, h.release⟩
  | reserved0 | reservedC | reservedD | reservedE | reservedF => exact ⟨_, _, rfl, h⟩

theorem exec_keeps_inv {i : Instr} {s t : State} (h : s.Inv) (he : exec i s = .next t) : t.Inv := by
  obtain ⟨u, r, hbody, rfl⟩ := exec_next he
  exact ((bodyOf_endsSafe i h).inv hbody).complete r

/-- Settles O54, by what a step can be: the issued command to its end, an ignored action of the host, a reset, or an action
of the host on the idle block. -/
theorem stepKeepsSafeState : Obligations.StepKeepsSafeState := by
  intro s t h hstep
  rcases step_cases hstep with ⟨op, -, he⟩ | ⟨op, e, rest, -, -, rfl⟩ | ⟨op, rest, u, -, -, -, rfl⟩ | ⟨-, rfl⟩
  · exact exec_keeps_inv h he
  · exact h.withHost rest
  · exact resetBlock_inv _
  · exact h.idleStep

end Sys2Proof.Machine

/-!
PROOFS. What holds of the tree and of the code table of a safe state (10_state.md R22, R29, R31).
-/

namespace Sys2Proof.Machine

/-! ### The tree -/

/-- Settles O19, by the tree law of BUILD at the entries of the table. -/
theorem treeStructure : Obligations.TreeStructure := by
  intro s h hroot
  have htree := h.treeOk hroot
  refine ⟨htree.rootEq, htree.size, fun g n hn => htree.leaf_iff hn, fun g n hn hinner => (htree.child g n hn hinner).2,
    fun x hx => ?_, htree.sum⟩
  obtain ⟨g, n, hn, hinner, hchild⟩ := htree.parent x hx
  exact ⟨g, n, hn, hinner, hchild, fun g' n' hn' hinner' hchild' =>
    htree.unique x g' g hx ⟨n', hn', hinner', hchild'⟩ ⟨n, hn, hinner, hchild⟩⟩

/-! ### The code table -/

theorem State.Inv.root_ne_nil_of_codes {s : State} (h : s.Inv) (hc : s.codes ≠ []) : s.root ≠ Config.nil := by
  rcases h.code with hnone | ⟨hroot, -⟩
  · exact absurd hnone hc
  · exact hroot

/-- A code table that is there has exactly the paths of the present tree (10_state.md R36 (b), 42_code_deriver.md R161). -/
theorem State.Inv.get_codes_iff {s : State} (h : s.Inv) (hc : s.codes ≠ []) (sym : Nat) (w : List Bool) :
    Table.get s.codes sym = some w ↔ leafPath s w sym := by
  rcases h.code with hnone | ⟨hroot, hderived⟩
  · exact absurd hnone hc
  · obtain ⟨codes, hcodes, -, hget⟩ := (h.treeOk hroot).deriveCodes_spec (ftEntries_wf s.ft)
    obtain rfl : s.codes = codes := Except.ok.inj (hderived.symm.trans hcodes)
    exact hget sym w

theorem codeword_of_get {s : State} {sym : Nat} {w : List Bool} (h : Table.get s.codes sym = some w) :
    codeword s sym = w := by simp [codeword, h]

theorem get_codes_of_codeLen_pos {s : State} {sym : Nat} (h : 1 ≤ codeLen s sym) :
    Table.get s.codes sym = some (codeword s sym) := by
  unfold codeLen codeword at *
  cases hg : Table.get s.codes sym with
  | none => simp [hg] at h
  | some w => rfl

/-- A symbol has a codeword exactly when the codeword is a path to the symbol's leaf. -/
theorem State.Inv.codeLen_pos_iff {s : State} (h : s.Inv) (hc : s.codes ≠ []) (sym : Nat) :
    1 ≤ codeLen s sym ↔ leafPath s (codeword s sym) sym := by
  have htree := h.treeOk (h.root_ne_nil_of_codes hc)
  constructor
  · exact fun hlen => (h.get_codes_iff hc sym _).1 (get_codes_of_codeLen_pos hlen)
  · exact fun hpath => (htree.leafFrom_length (ftEntries_wf s.ft) hpath).1

/-- A symbol has an entry exactly when it has a codeword (42_code_deriver.md R163). -/
theorem State.Inv.ftPresent_iff_codeLen_pos {s : State} (h : s.Inv) (hc : s.codes ≠ []) (sym : Nat) :
    ftPresent s sym = true ↔ 1 ≤ codeLen s sym := by
  have htree := h.treeOk (h.root_ne_nil_of_codes hc)
  rw [ftEntries_of_wf h.table] at htree
  constructor
  · intro hpresent
    obtain ⟨c, hentry⟩ := Option.isSome_iff_exists.1 hpresent
    obtain ⟨w, hpath⟩ := htree.leafFrom_exists h.table hentry
    rw [h.codeLen_pos_iff hc, codeword_of_get ((h.get_codes_iff hc sym w).2 hpath)]
    exact hpath
  · intro hlen
    exact Option.isSome_iff_exists.2 (htree.leafFrom_get h.table ((h.codeLen_pos_iff hc sym).1 hlen))

/-- Settles O22: the codewords are the paths to the leaves of one tree. -/
theorem codewordsArePrefixFree : Obligations.CodewordsArePrefixFree := by
  intro s h hc
  have htree := h.treeOk (h.root_ne_nil_of_codes hc)
  refine ⟨fun sym _ => h.ftPresent_iff_codeLen_pos hc sym, fun sym => ?_, fun sym sym' hne hlen hlen' hprefix => ?_⟩
  · by_cases hlen : 1 ≤ codeLen s sym
    · exact (htree.leafFrom_length (ftEntries_wf s.ft) ((h.codeLen_pos_iff hc sym).1 hlen)).2
    · omega
  · exact hne (TreeOk.leafFrom_prefix ((h.codeLen_pos_iff hc sym).1 hlen) ((h.codeLen_pos_iff hc sym').1 hlen') hprefix)

end Sys2Proof.Machine

/-!
PROOFS. `STATUS`, the write to `CMD`, and the values after reset (10_state.md R32, R33, R38).
-/

namespace Sys2Proof.Machine

/-! ### The fields of `STATUS` -/

/-- Which field a bit of `STATUS` stands in. -/
theorem getLsbD_statusWord (s : State) (i : Nat) : (statusWord s).getLsbD i =
    if i < 1 then (BitVec.ofBool (busy s)).getLsbD i
    else if i - 1 < 3 then s.err.code.getLsbD (i - 1) else (BitVec.ofBool (eof s)).getLsbD (i - 1 - 3) := by
  have hlow := BitVec.getLsbD_append (x := BitVec.ofBool (eof s) ++ s.err.code) (y := BitVec.ofBool (busy s)) (i := i)
  rwa [BitVec.getLsbD_append (x := BitVec.ofBool (eof s)) (y := s.err.code)] at hlow

theorem statusWord_bit0 (s : State) : (statusWord s).getLsbD 0 = s.issued.isSome := by
  rw [getLsbD_statusWord]
  simp [busy]

theorem statusWord_err (s : State) : (statusWord s).extractLsb' 1 3 = s.err.code := by
  apply BitVec.eq_of_getLsbD_eq
  intro i hi
  rw [BitVec.getLsbD_extractLsb', getLsbD_statusWord]
  simp [hi]

theorem statusWord_bit4 (s : State) : (statusWord s).getLsbD 4 = decide (s.inPos = s.input.length) := by
  rw [getLsbD_statusWord]
  simp [eof, beq_eq_decide]
/-- Settles O5: each field of `STATUS` by the bits it stands in. -/
theorem statusWordFields : Obligations.StatusWordFields := fun s =>
  ⟨statusWord_bit0 s, statusWord_err s, statusWord_bit4 s, rfl, rfl, rfl, rfl, rfl, rfl, rfl, rfl⟩

/-! ### The write to `CMD` -/

theorem idleStep_of_host {s : State} {e : HostEvent} {rest : List HostEvent} (h : s.host = e :: rest) :
    idleStep s = hostWhenIdle e { s with host := rest } := by simp [idleStep, h]

/-- A busy block takes any action but waiting from the host's list. -/
theorem busyStep_of_host {s : State} {op : Opcode} {e : HostEvent} {rest : List HostEvent} (h : s.host = e :: rest)
    (he : e ≠ .waitIdle) : busyStep op s = hostWhileBusy e op { s with host := rest } := by simp [busyStep, h, he]

/-- Settles O7: the idle block samples the opcode, the busy one takes the write from the host's list and drops it. -/
theorem commandWriteIssuesOrIsIgnored : Obligations.CommandWriteIssuesOrIsIgnored := by
  intro s op rest hhost
  constructor
  · intro hidle
    rw [step_idle hidle, idleStep_of_host hhost]
    rfl
  · intro hbusy
    obtain ⟨op', hop'⟩ := Option.ne_none_iff_exists'.1 hbusy
    rw [step_issued hop', busyStep_of_host hhost (by simp)]
    rfl

/-! ### After reset -/

/-- The rows of 10_state.md R38's table that are not fields of the state: entries, codewords, `n_nodes` and `eof`. -/
theorem resetBlock_values (s : State) :
    (∀ sym, ftPresent (resetBlock s) sym = false ∧ ftCount (resetBlock s) sym = 0#32 ∧ codeLen (resetBlock s) sym = 0 ∧
      codeBits (resetBlock s) sym = 0#256) ∧
    nNodes (resetBlock s) = 0 ∧ (eof (resetBlock s) = true ↔ (resetBlock s).input = []) := by
  refine ⟨fun sym => ⟨rfl, rfl, rfl, rfl⟩, rfl, ?_⟩
  simp [eof, eq_comm (a := 0)]

/-- Settles O9: power-on is a reset too, of a block with empty streams. -/
theorem resetValues : Obligations.ResetValues := by
  refine ⟨fun s t ht => ?_, fun s => ⟨rfl, rfl⟩, rfl, rfl⟩
  obtain ⟨u, rfl⟩ : ∃ u, t = resetBlock u := by
    rcases ht with ht | ht
    · exact ⟨s, ht⟩
    · exact ⟨State.reset, ht⟩
  obtain ⟨htables, hnodes, heof⟩ := resetBlock_values u
  exact ⟨htables, hnodes, rfl, rfl, rfl, rfl, rfl, rfl, rfl, heof⟩

end Sys2Proof.Machine

/-!
PROOFS. The two streams (20_memory.md): attaching them, the order of their bits, and what every command keeps of them.
-/

namespace Sys2Proof.Machine

/-! ### Attaching -/

theorem step_idle_of_host {s : State} {e : HostEvent} {rest : List HostEvent} (hidle : s.issued = none)
    (hhost : s.host = e :: rest) : step s = .next (hostWhenIdle e { s with host := rest }) := by
  rw [step_idle hidle, idleStep_of_host hhost]

theorem step_busy_of_host {s : State} {e : HostEvent} {rest : List HostEvent} (hbusy : s.issued ≠ none)
    (hhost : s.host = e :: rest) (he : e ≠ .waitIdle) : ∃ op, step s = hostWhileBusy e op { s with host := rest } := by
  obtain ⟨op, hop⟩ := Option.ne_none_iff_exists'.1 hbusy
  exact ⟨op, (step_issued hop).trans (busyStep_of_host hhost he)⟩

/-- Settles O8: the idle block takes the stream; the busy one has the host's action before it and refuses it by name. -/
theorem attachOnlyWhileIdle : Obligations.AttachOnlyWhileIdle := by
  intro s bytes rest
  refine ⟨step_idle_of_host, step_idle_of_host, fun hbusy hhost => ?_, fun hbusy hhost => ?_⟩
  · obtain ⟨op, hrefused⟩ := step_busy_of_host hbusy hhost (by simp)
    exact hrefused
  · obtain ⟨op, hrefused⟩ := step_busy_of_host hbusy hhost (by simp)
    exact hrefused

/-! ### Bit order -/

/-- `InBit()` answers the head of the unread bits and leaves the rest, also at the end, where there is no head. -/
theorem inBitOp_head_tail {s : State} (hs : cursorOk s) :
    (inBitOp s).1 = (unreadBits s).head? ∧ unreadBits (inBitOp s).2 = (unreadBits s).tail := by
  rcases inBitOp_eq hs with ⟨hend, hread⟩ | ⟨b, hread, hbits⟩
  · simp [hread, hend]
  · simp [hread, hbits]

/-- Settles O29: the packing of written bits and the head and tail of unread ones. -/
theorem bitOrderMostSignificantFirst : Obligations.BitOrderMostSignificantFirst :=
  ⟨fun s P hn hacc => outFlush_outBits s hn hacc P, fun _ hle hlt => inBitOp_head_tail ⟨hle, hlt⟩⟩

/-! ### `OUT` only grows -/

/-- What a command keeps of the streams: `OUT` grows at its end; `IN` and the model's own fields stay
(20_memory.md R60, R63). -/
structure State.GrowsTo (s t : State) : Prop where
  out : s.out <+: t.out
  input : t.input = s.input
  host : t.host = s.host
  draws : t.draws = s.draws

namespace State.GrowsTo

variable {s t u : State}

/-- `OUT`, `IN` and the model's own fields are the same: only tables, cursor, accumulator or `STATUS` differ. -/
theorem of_sameStreams (hout : t.out = s.out) (hinput : t.input = s.input) (hhost : t.host = s.host)
    (hdraws : t.draws = s.draws) : s.GrowsTo t := ⟨hout ▸ List.prefix_rfl, hinput, hhost, hdraws⟩

theorem refl (s : State) : s.GrowsTo s := of_sameStreams rfl rfl rfl rfl

theorem trans (h : s.GrowsTo t) (h' : t.GrowsTo u) : s.GrowsTo u :=
  ⟨h.out.trans h'.out, h'.input.trans h.input, h'.host.trans h.host, h'.draws.trans h.draws⟩

theorem outFlush (s : State) : s.GrowsTo (outFlush s) := ⟨outFlush_prefix s, by simp, by simp, by simp⟩

theorem outByte (s : State) (b : Byte) : s.GrowsTo (outByte s b) := ⟨outByte_prefix s b, by simp, by simp, by simp⟩

theorem outBytes (s : State) (bs : List Byte) : s.GrowsTo (outBytes s bs) :=
  ⟨outBytes_prefix s bs, by simp, by simp, by simp⟩

theorem outBits (s : State) (bits : List Bool) : s.GrowsTo (outBits s bits) :=
  ⟨outBits_prefix s bits, by simp, by simp, by simp⟩

theorem advanceBit (s : State) : s.GrowsTo (advanceBit s) := of_sameStreams (by simp) (by simp) (by simp) (by simp)

theorem inAlign (s : State) : s.GrowsTo (inAlign s) := of_sameStreams (by simp) (by simp) (by simp) (by simp)

theorem release (s : State) : s.GrowsTo (release s) := of_sameStreams rfl rfl rfl rfl

theorem complete (s : State) (r : ResultCode) : s.GrowsTo (complete s r) := of_sameStreams rfl rfl rfl rfl

end State.GrowsTo

/-- Where the body ends with a result, it ends in a state that `s` grows to; of a fault nothing is said. -/
def Stage.GrowsFrom (s : State) (x : Stage) : Prop := ∀ t r, x = .done t r → s.GrowsTo t

namespace Stage.GrowsFrom

variable {s u : State} {x : Stage}

theorem done {r : ResultCode} (h : s.GrowsTo u) : (Stage.done u r).GrowsFrom s := by
  rintro t r' ⟨⟩
  exact h

theorem stop (s : State) (f : Fault) : (Stage.stop f).GrowsFrom s := fun _ _ h => nomatch h

theorem after (h : s.GrowsTo u) (hx : x.GrowsFrom u) : x.GrowsFrom s := fun t r ht => h.trans (hx t r ht)

theorem andThen (h : x.GrowsFrom s) {next : State → Stage} (hnext : ∀ u : State, (next u).GrowsFrom u) :
    (x.andThen next).GrowsFrom s := by
  intro t r ht
  rcases andThen_done ht with ⟨u, hx, hu⟩ | ⟨hx, -⟩
  · exact (h u .ok hx).trans (hnext u t r hu)
  · exact h t r hx

theorem releasing (h : x.GrowsFrom s) : x.releasing.GrowsFrom s := by
  intro t r ht
  obtain ⟨u, hx, rfl⟩ := releasing_eq_done ht
  exact (h u r hx).trans (.release u)

end Stage.GrowsFrom

/-! ### The commands that leave `OUT` -/

theorem freqBody_growsFrom (s : State) : (freqBody s).GrowsFrom s := by
  rcases freqBody_spec s with ⟨-, ft, -, he⟩ | ⟨k, b, -, -, -, he⟩
  · exact he ▸ .done (.of_sameStreams rfl rfl rfl rfl)
  · exact he ▸ .done (.of_sameStreams rfl rfl rfl rfl)

theorem buildBody_growsFrom (s : State) : (buildBody s).GrowsFrom s := by
  cases hb : buildTree (ftEntries s.ft) with
  | none => exact buildBody_of_none hb ▸ .done (.of_sameStreams rfl rfl rfl rfl)
  | some tree => exact buildBody_of_some hb ▸ .done (.of_sameStreams rfl rfl rfl rfl)

/-- CODES may meet a fault of the walk here: the tree of an arbitrary state need not be one of BUILD. -/
theorem codesBody_growsFrom (s : State) : (codesBody s).GrowsFrom s := by
  by_cases hr : s.root = Config.nil
  · exact codesBody_of_nil hr ▸ .done (.of_sameStreams rfl rfl rfl rfl)
  · cases hd : deriveCodes s.nodes s.root with
    | error f =>
      have hstop : codesBody s = .stop f := by simp [codesBody, hr, hd]
      exact hstop ▸ .stop s f
    | ok codes => exact codesBody_of_ok hr hd ▸ .done (.of_sameStreams rfl rfl rfl rfl)

theorem parseBody_growsFrom (s : State) : (parseBody s).GrowsFrom s := by
  rw [parseBody_eq]
  rcases parseText .opening [] (unread s) with ⟨_ | ft, k⟩
  · exact .done (.of_sameStreams rfl rfl rfl rfl)
  · exact .done (.of_sameStreams rfl rfl rfl rfl)

theorem rewindBody_growsFrom (s : State) : (rewindBody s).GrowsFrom s := .done (.of_sameStreams rfl rfl rfl rfl)

/-! ### The commands that write `OUT` -/

theorem serialBody_growsFrom (s : State) : (serialBody s).GrowsFrom s := .done (.outBytes s _)

theorem encodeBody_growsFrom (s : State) : (encodeBody s).GrowsFrom s := by
  obtain ⟨p, bits, r, -, he⟩ := encodeBody_eq_flushed s
  have hcursor : s.GrowsTo { rewindCursor s with inPos := p } := .of_sameStreams rfl rfl rfl rfl
  exact he ▸ .done ((hcursor.trans (.outBits _ bits)).trans (.outFlush _))

/-- Wherever the cursor stands, `InBit()` answers nothing or one bit. -/
theorem inBitOp_cases (s : State) : inBitOp s = (none, s) ∨ ∃ b, inBitOp s = (some b, advanceBit s) := by
  unfold inBitOp
  split
  · exact .inl rfl
  · exact .inr ⟨_, rfl⟩

/-- All one turn of DECODE's loop can do, on any tree (44_bitstream_codec.md R194, R196): end before or after taking a bit,
or go on, with a byte of output at a leaf. -/
theorem decodeLoop_succ_cases (n : Nat) (cur : Handle) (s : State) :
    decodeLoop (n + 1) cur s = decodeCorrupt s ∨
    decodeLoop (n + 1) cur s = decodeCorrupt (advanceBit s) ∨
    (∃ f, decodeLoop (n + 1) cur s = .stop f) ∨
    decodeLoop (n + 1) cur s = .done (inAlign (advanceBit s)) .ok ∨
    (∃ h b, decodeLoop (n + 1) cur s = decodeLoop n h (outByte (advanceBit s) b)) ∨
    ∃ h, decodeLoop (n + 1) cur s = decodeLoop n h (advanceBit s) := by
  rcases inBitOp_cases s with hread | ⟨b, hread⟩
  · exact .inl (by simp [decodeLoop, hread])
  right
  cases hnode : (advanceBit s).nodes[cur.toNat]? with
  | none => exact .inr (.inl ⟨.unusedNode cur, by simp only [decodeLoop, hread, hnode]⟩)
  | some node =>
    obtain ⟨nxt, hnxt⟩ : ∃ nxt, (if b then node.c1 else node.c0) = nxt := ⟨_, rfl⟩
    by_cases hnil : nxt = Config.nil
    · exact .inl (by simp only [decodeLoop, hread, hnode, hnxt, if_pos hnil])
    cases hchild : (advanceBit s).nodes[nxt.toNat]? with
    | none => exact .inr (.inl ⟨.unusedNode nxt, by simp only [decodeLoop, hread, hnode, hnxt, if_neg hnil, hchild]⟩)
    | some child =>
      have hturn : decodeLoop (n + 1) cur s =
          if child.leaf then
            if child.sym.toNat = Config.sentinel then .done (inAlign (advanceBit s)) .ok
            else decodeLoop n (advanceBit s).root (outByte (advanceBit s) (child.sym.setWidth 8))
          else decodeLoop n nxt (advanceBit s) := by
        simp only [decodeLoop, hread, hnode, hnxt, if_neg hnil, hchild]
      by_cases hleaf : child.leaf = true
      · rw [if_pos hleaf] at hturn
        by_cases hend : child.sym.toNat = Config.sentinel
        · exact .inr (.inr (.inl (hturn.trans (if_pos hend))))
        · exact .inr (.inr (.inr (.inl ⟨_, _, hturn.trans (if_neg hend)⟩)))
      · exact .inr (.inr (.inr (.inr ⟨nxt, hturn.trans (if_neg hleaf)⟩)))

theorem decodeCorrupt_growsFrom (s : State) : (decodeCorrupt s).GrowsFrom s := .done (.inAlign s)

theorem decodeLoop_growsFrom (n : Nat) : ∀ (cur : Handle) (s : State), (decodeLoop n cur s).GrowsFrom s := by
  induction n with
  | zero => exact fun _ s => decodeCorrupt_growsFrom s
  | succ n ih =>
    intro cur s
    have hbit : s.GrowsTo (advanceBit s) := .advanceBit s
    rcases decodeLoop_succ_cases n cur s with he | he | ⟨f, he⟩ | he | ⟨h, b, he⟩ | ⟨h, he⟩
    · exact he ▸ decodeCorrupt_growsFrom s
    · exact he ▸ .after hbit (decodeCorrupt_growsFrom _)
    · exact he ▸ .stop s f
    · exact he ▸ .done (hbit.trans (.inAlign _))
    · exact he ▸ .after (hbit.trans (.outByte _ b)) (ih h _)
    · exact he ▸ .after hbit (ih h _)

theorem decodeBody_growsFrom (s : State) : (decodeBody s).GrowsFrom s := by
  unfold decodeBody
  split
  · exact .done (.refl s)
  · exact decodeLoop_growsFrom _ _ s

theorem compressStages_growsFrom (s : State) : (compressStages s).GrowsFrom s :=
  (((((rewindBody_growsFrom s).andThen freqBody_growsFrom).andThen buildBody_growsFrom).andThen
    codesBody_growsFrom).andThen serialBody_growsFrom).andThen encodeBody_growsFrom

theorem decompressStages_growsFrom (s : State) : (decompressStages s).GrowsFrom s :=
  ((parseBody_growsFrom s).andThen buildBody_growsFrom).andThen decodeBody_growsFrom

/-! ### Every command -/

theorem bodyOf_growsFrom (i : Instr) (s : State) : (bodyOf i s).GrowsFrom s := by
  cases i with
  | freq => exact freqBody_growsFrom s
  | build => exact buildBody_growsFrom s
  | codes => exact codesBody_growsFrom s
  | serial => exact serialBody_growsFrom s
  | parse => exact parseBody_growsFrom s
  | encode => exact encodeBody_growsFrom s
  | decode => exact decodeBody_growsFrom s
  | compress => exact (compressStages_growsFrom s).releasing
  | decompress => exact (decompressStages_growsFrom s).releasing
  | rewind => exact rewindBody_growsFrom s
  | release => exact .done (.release s)
  | reserved0 | reservedC | reservedD | reservedE | reservedF => exact .done (.refl s)

/-- Settles O48: a command is its body, which only appends to `OUT`, and the writing of its result. -/
theorem outputOnlyGrows : Obligations.OutputOnlyGrows := by
  intro i s t he
  obtain ⟨u, r, hbody, rfl⟩ := exec_next he
  obtain ⟨hout, hinput, hhost, hdraws⟩ := (bodyOf_growsFrom i s u r hbody).trans (.complete u r)
  exact ⟨hout, hinput, hhost, hdraws⟩

end Sys2Proof.Machine

/-!
PROOFS. The encodings of 30_encoding.md: the opcode map, the records of the debug view, and programs (R90 to R92, R110,
R112, R115).
-/

namespace Sys2Proof

/-! ### Command words -/

/-- Settles O1: each word by its row of the map. -/
theorem opcodeMapDecodes : Obligations.OpcodeMapDecodes :=
  ⟨rfl, rfl, rfl, rfl, rfl, rfl, rfl, rfl, rfl, rfl, rfl, rfl, rfl, rfl, rfl, rfl⟩

theorem encode_decodeWord : ∀ w : Opcode, encode (decodeWord w) = w := by decide

theorem decodeWord_encode (i : Instr) : decodeWord (encode i) = i := by cases i <;> rfl

/-- The upper four bits of a byte are 0 where its value is that of a 4-bit word. -/
theorem commandByteWf_iff (b : Byte) : commandByteWf b = true ↔ b.toNat < 16 := by
  have hb : b.toNat < 256 := b.isLt
  have hupper : (b.extractLsb' 4 4).toNat = b.toNat / 16 := by
    rw [BitVec.extractLsb'_toNat, Nat.shiftRight_eq_div_pow]
    omega
  rw [commandByteWf, beq_iff_eq, ← BitVec.toNat_inj, hupper, BitVec.toNat_ofNat]
  omega

theorem decode_of_lt {b : Byte} (h : b.toNat < 16) (rest : List Byte) :
    decode (b :: rest) = .ok (decodeWord (b.setWidth 4), rest) := if_pos ((commandByteWf_iff b).2 h)

theorem decode_of_ge {b : Byte} (h : 16 ≤ b.toNat) (rest : List Byte) :
    decode (b :: rest) = .error (.upperBitsSet b) :=
  if_neg fun hwf => absurd ((commandByteWf_iff b).1 hwf) (Nat.not_lt.2 h)

theorem encodeByte_toNat (i : Instr) : (encodeByte i).toNat = (encode i).toNat :=
  BitVec.toNat_setWidth_of_le (by decide)

theorem encodeByte_setWidth (i : Instr) : (encodeByte i).setWidth 4 = encode i :=
  (BitVec.setWidth_setWidth_of_le _ (by decide)).trans (BitVec.setWidth_eq _)

/-- The byte of a command decodes to it (30_encoding.md R90). -/
theorem decode_encodeByte (i : Instr) (rest : List Byte) : decode (encodeByte i :: rest) = .ok (i, rest) := by
  have hlt : (encodeByte i).toNat < 16 := encodeByte_toNat i ▸ (encode i).isLt
  rw [decode_of_lt hlt, encodeByte_setWidth, decodeWord_encode]

/-- Settles O2: words by the map, bytes by whether their value is that of a word. -/
theorem decodeEncodeAgree : Obligations.DecodeEncodeAgree :=
  ⟨encode_decodeWord, fun i rest _ => decode_encodeByte i rest, fun _ rest h => decode_of_ge h rest⟩

end Sys2Proof

namespace Sys2Proof.Machine

/-! ### The node record -/

/-- The fields of a packed node, each from its bits (30_encoding.md R110). -/
theorem Node.pack_fields (n : Node) : (Node.pack n).getLsbD 70 = n.leaf ∧ (Node.pack n).extractLsb' 61 9 = n.sym ∧
    (Node.pack n).extractLsb' 20 41 = n.freq ∧ (Node.pack n).extractLsb' 10 10 = n.c0 ∧
    (Node.pack n).extractLsb' 0 10 = n.c1 := by
  unfold Node.pack
  refine ⟨?_, ?_, ?_, ?_, BitVec.extractLsb'_append_eq_right⟩
  · simp only [BitVec.getLsbD_append]
    simp
  · iterate 3 rw [BitVec.extractLsb'_append_eq_of_le (by decide)]
    exact BitVec.extractLsb'_append_eq_right
  · iterate 2 rw [BitVec.extractLsb'_append_eq_of_le (by decide)]
    exact BitVec.extractLsb'_append_eq_right
  · rw [BitVec.extractLsb'_append_eq_of_le (by decide)]
    exact BitVec.extractLsb'_append_eq_right

theorem Node.unpack_pack (n : Node) : Node.unpack (Node.pack n) = n := by
  obtain ⟨hleaf, hsym, hfreq, hc0, hc1⟩ := n.pack_fields
  simp only [Node.unpack, hleaf, hsym, hfreq, hc0, hc1]

/-- The five fields tile the 71 bits. -/
theorem Node.pack_unpack (w : BitVec 71) : Node.pack (Node.unpack w) = w := by
  have hleaf : BitVec.ofBool (w.getLsbD 70) = w.extractLsb' 70 1 := by
    ext i hi
    simp [show i = 0 by omega]
  simp only [Node.pack, Node.unpack, hleaf]
  iterate 4 rw [BitVec.extractLsb'_append_extractLsb'_eq_extractLsb' (by decide)]
  exact BitVec.extractLsb'_eq_self

/-- Settles O3: the fields by their bits, which are all the bits there are. -/
theorem nodeRecordLayout : Obligations.NodeRecordLayout := ⟨Node.unpack_pack, Node.pack_unpack, Node.pack_fields⟩

/-! ### The code-table entry -/

/-- The number with the given bits, bit 0 first, has them. -/
theorem testBit_foldr_bits (bits : List Bool) (i : Nat) :
    (bits.foldr (fun (b : Bool) n => 2 * n + b.toNat) 0).testBit i = bits.getD i false := by
  induction bits generalizing i with
  | nil => simp
  | cons b bits ih =>
    rw [List.foldr_cons, ← Nat.bit_val]
    cases i with
    | zero => simp
    | succ i => rw [Nat.testBit_bit_succ, ih, List.getD_cons_succ]

/-- Element `i` of a bit string is bit `i` of its bit field; above them the field is 0 (30_encoding.md R112). -/
theorem getLsbD_bitField {w : Nat} {bits : List Bool} (h : bits.length ≤ w) (i : Nat) :
    (bitField w bits).getLsbD i = bits.getD i false := by
  rw [bitField, BitVec.getLsbD_ofNat, testBit_foldr_bits]
  by_cases hi : i < w
  · simp [hi]
  · rw [List.getD_eq_default _ _ (by omega), Bool.and_false]

/-- Settles O4: the codeword as a bit field, and the two parts of the entry. -/
theorem codeEntryLayout : Obligations.CodeEntryLayout := fun _ _ hlen =>
  ⟨getLsbD_bitField hlen, BitVec.extractLsb'_append_eq_left, BitVec.extractLsb'_append_eq_right⟩

/-! ### Programs -/

theorem programEvents_commands_cons (i : Instr) (p : List Instr) :
    programEvents ((i :: p).map .command) = .writeCmd (encode i) :: .waitIdle :: programEvents (p.map .command) := rfl

theorem programCommands_commands (p : List Instr) : programCommands (p.map .command) = p := by
  simp [programCommands, List.filterMap_map]

/-- Settles O57, by induction on the commands: each line writes its opcode and waits. -/
theorem programIssuesItsOpcodes : Obligations.ProgramIssuesItsOpcodes := by
  intro p
  refine ⟨rfl, ?_, programCommands_commands p⟩
  induction p with
  | nil => rfl
  | cons i p ih =>
    rw [programEvents_commands_cons]
    exact congrArg (encode i :: ·) ih

end Sys2Proof.Machine

/-!
PROOFS. What ENCODE appends (30_encoding.md R99), and the composites as sequences of primitives (R116): `STATUS` is no
input of any command, so it does not matter that a primitive writes it and a stage of a composite does not.
-/

namespace Sys2Proof.Machine

/-! ### ENCODE -/

/-- Settles O30: ENCODE's loop from the beginning of the input, and the packing of written bits. -/
theorem encodeAppendsPayload : Obligations.EncodeAppendsPayload := by
  intro s hn hacc hall hend
  obtain ⟨X, hX, hflush⟩ := outFlush_outBits { rewindCursor s with inPos := s.input.length } hn hacc
    (payload s s.input ++ codeword s 256)
  have hloop := encodeLoop_ok s.input (rewindCursor s) (unread_rewind s) hall hend
  rw [rewindCursor_inPos, Nat.zero_add] at hloop
  have hbody : encodeBody s = .ofResult (outFlush (outBits { rewindCursor s with inPos := s.input.length }
      (payload s s.input ++ codeword s 256)), .ok) := congrArg Stage.ofResult hloop
  refine ⟨X, hX, ?_⟩
  rw [exec_eq_finish, bodyOf, hbody, hflush]
  rfl

/-! ### Stages in a row -/

/-- The stage with its state changed, a fault left as it is. -/
def Stage.mapState (f : State → State) : Stage → Stage
  | .done s r => .done (f s) r
  | .stop e => .stop e

/-- The bodies of commands one after another, as far as they raise nothing (45_composite_and_control.md R210, R213). -/
def runStages : List Instr → State → Stage
  | [], s => .done s .ok
  | i :: is, s => (bodyOf i s).andThen (runStages is)

theorem andThen_assoc (x : Stage) (f g : State → Stage) :
    (x.andThen f).andThen g = x.andThen fun s => (f s).andThen g := by
  cases x with
  | stop e => rfl
  | done s r =>
    by_cases hr : r = .ok
    · rw [hr, andThen_ok, andThen_ok]
    · rw [andThen_error hr, andThen_error hr, andThen_error hr]

theorem andThen_finished (x : Stage) : (x.andThen fun s => .done s .ok) = x := by
  cases x with
  | stop e => rfl
  | done s r =>
    by_cases hr : r = .ok
    · rw [hr, andThen_ok]
    · rw [andThen_error hr]

theorem runStages_append (is js : List Instr) (s : State) :
    runStages (is ++ js) s = (runStages is s).andThen (runStages js) := by
  induction is generalizing s with
  | nil => exact (andThen_ok s _).symm
  | cons i is ih => simp only [List.cons_append, runStages, andThen_assoc, ← ih]

theorem compressStages_eq (s : State) :
    compressStages s = runStages [.rewind, .freq, .build, .codes, .serial, .encode] s := by
  simp only [compressStages, runStages, andThen_assoc, andThen_finished, bodyOf]

theorem decompressStages_eq (s : State) : decompressStages s = runStages [.parse, .build, .decode] s := by
  simp only [decompressStages, runStages, andThen_assoc, andThen_finished, bodyOf]

/-! ### The stream primitives do not read `STATUS` -/

section
variable (s : State) (q : ResultCode)

theorem inByte_complete : inByte (complete s q) = Prod.map id (complete · q) (inByte s) := by
  simp only [inByte, complete_input, complete_inPos]
  split <;> rfl

theorem advanceBit_complete : advanceBit (complete s q) = complete (advanceBit s) q := by
  by_cases h : s.inBit.toNat + 1 = 8 <;> simp [advanceBit, complete, h]

theorem inBitOp_complete : inBitOp (complete s q) = Prod.map id (complete · q) (inBitOp s) := by
  simp only [inBitOp, complete_input, complete_inPos, advanceBit_complete]
  split <;> rfl

theorem inAlign_complete : inAlign (complete s q) = complete (inAlign s) q := by
  by_cases h : s.inBit = 0#3 <;> simp [inAlign, complete, h]

theorem outFlush_complete : outFlush (complete s q) = complete (outFlush s) q := by
  by_cases h : s.outN = 0#3 <;> simp [outFlush, complete, h]

theorem outByte_complete (b : Byte) : outByte (complete s q) b = complete (outByte s b) q := by
  simp only [outByte, outFlush_complete]
  rfl

theorem outBytes_complete (bs : List Byte) : outBytes (complete s q) bs = complete (outBytes s bs) q := by
  induction bs generalizing s with
  | nil => rfl
  | cons b bs ih => exact (congrArg (outBytes · bs) (outByte_complete s q b)).trans (ih (outByte s b))

theorem outBit_complete (b : Bool) : outBit (complete s q) b = complete (outBit s b) q := by
  by_cases h : s.outN.toNat + 1 = 8 <;> simp [outBit, complete, h]

theorem outBits_complete (bits : List Bool) : outBits (complete s q) bits = complete (outBits s bits) q := by
  induction bits generalizing s with
  | nil => rfl
  | cons b bits ih => exact (congrArg (outBits · bits) (outBit_complete s q b)).trans (ih (outBit s b))

theorem emit_complete (sym : Nat) : emit (complete s q) sym = (emit s sym).map (complete · q) := by
  have hlen : codeLen (complete s q) sym = codeLen s sym := rfl
  have hword : codeword (complete s q) sym = codeword s sym := rfl
  rw [emit_eq, emit_eq, hlen, hword, outBits_complete]
  split <;> rfl

end

/-! ### No command reads `STATUS` -/

theorem decodeBody_of_nil {s : State} (h : s.root = Config.nil) : decodeBody s = .done s .noTree := if_pos h

theorem decodeBody_of_root {s : State} (h : s.root ≠ Config.nil) :
    decodeBody s = decodeLoop (bitsLeft s) s.root s := if_neg h

section
variable (q : ResultCode)

theorem freqLoop_complete (n : Nat) (s : State) :
    freqLoop n (complete s q) = Prod.map (complete · q) id (freqLoop n s) := by
  induction n generalizing s with
  | zero => rfl
  | succ n ih =>
    simp only [freqLoop, inByte_complete]
    rcases inByte s with ⟨_ | b, t⟩
    · rfl
    · have hcount : ftCount (complete t q) b.toNat = ftCount t b.toNat := rfl
      by_cases hmax : (ftCount t b.toNat).toNat = Config.cmax
      · simp only [Prod.map, id, hcount, if_pos hmax]
        rfl
      · simp only [Prod.map, id, hcount, if_neg hmax]
        exact ih (ftStore t b.toNat (ftCount t b.toNat + 1#32))

theorem freqBody_complete (s : State) : freqBody (complete s q) = (freqBody s).mapState (complete · q) :=
  congrArg Stage.ofResult (freqLoop_complete q (bytesLeft s) (release s))

theorem buildBody_complete (s : State) : buildBody (complete s q) = (buildBody s).mapState (complete · q) := by
  cases hb : buildTree (ftEntries s.ft) with
  | none =>
    rw [buildBody_of_none hb, buildBody_of_none (s := complete s q) hb]
    rfl
  | some tree =>
    rw [buildBody_of_some hb, buildBody_of_some (s := complete s q) hb]
    rfl

theorem codesBody_complete (s : State) : codesBody (complete s q) = (codesBody s).mapState (complete · q) := by
  by_cases hr : s.root = Config.nil
  · rw [codesBody_of_nil hr, codesBody_of_nil (s := complete s q) hr]
    rfl
  · cases hd : deriveCodes s.nodes s.root with
    | error f => simp [codesBody, hr, hd, Stage.mapState]
    | ok codes =>
      rw [codesBody_of_ok hr hd, codesBody_of_ok (s := complete s q) hr hd]
      rfl

theorem serialBody_complete (s : State) : serialBody (complete s q) = (serialBody s).mapState (complete · q) :=
  congrArg (Stage.done · .ok) (outBytes_complete s q (headerText s.ft))

theorem parseBody_complete (s : State) : parseBody (complete s q) = (parseBody s).mapState (complete · q) := by
  have hu : unread (complete s q) = unread s := rfl
  rw [parseBody_eq, parseBody_eq, hu]
  rcases parseText .opening [] (unread s) with ⟨_ | ft, k⟩ <;> rfl

theorem encodeUnknown_complete (s : State) :
    encodeUnknown (complete s q) = Prod.map (complete · q) id (encodeUnknown s) :=
  congrArg (·, ResultCode.unknownSymbol) (outFlush_complete s q)

theorem encodeEnd_complete (s : State) : encodeEnd (complete s q) = Prod.map (complete · q) id (encodeEnd s) := by
  simp only [encodeEnd, emit_complete]
  cases emit s Config.sentinel with
  | none => exact encodeUnknown_complete q s
  | some t => exact congrArg (·, ResultCode.ok) (outFlush_complete t q)

theorem encodeLoop_complete (n : Nat) (s : State) :
    encodeLoop n (complete s q) = Prod.map (complete · q) id (encodeLoop n s) := by
  induction n generalizing s with
  | zero => exact encodeEnd_complete q s
  | succ n ih =>
    simp only [encodeLoop, inByte_complete]
    rcases inByte s with ⟨_ | b, t⟩
    · exact encodeEnd_complete q t
    · simp only [Prod.map, id, emit_complete]
      cases emit t b.toNat with
      | none => exact encodeUnknown_complete q t
      | some u => exact ih u

theorem encodeBody_complete (s : State) : encodeBody (complete s q) = (encodeBody s).mapState (complete · q) :=
  congrArg Stage.ofResult (encodeLoop_complete q s.input.length (rewindCursor s))

theorem decodeCorrupt_complete (s : State) :
    decodeCorrupt (complete s q) = (decodeCorrupt s).mapState (complete · q) :=
  congrArg (Stage.done · .corruptStream) (inAlign_complete s q)

theorem decodeLoop_complete (n : Nat) (cur : Handle) (s : State) :
    decodeLoop n cur (complete s q) = (decodeLoop n cur s).mapState (complete · q) := by
  induction n generalizing cur s with
  | zero => exact decodeCorrupt_complete q s
  | succ n ih =>
    simp only [decodeLoop, inBitOp_complete]
    rcases inBitOp s with ⟨_ | b, t⟩
    · exact decodeCorrupt_complete q t
    simp only [Prod.map, id, complete_nodes, complete_root]
    cases t.nodes[cur.toNat]? with
    | none => rfl
    | some node =>
      simp only
      generalize (if b then node.c1 else node.c0) = nxt
      by_cases hnil : nxt = Config.nil
      · simp only [if_pos hnil]
        exact decodeCorrupt_complete q t
      simp only [if_neg hnil]
      cases t.nodes[nxt.toNat]? with
      | none => rfl
      | some child =>
        by_cases hleaf : child.leaf = true
        · by_cases hend : child.sym.toNat = Config.sentinel
          · simp only [if_pos hleaf, if_pos hend, inAlign_complete]
            rfl
          · simp only [if_pos hleaf, if_neg hend, outByte_complete]
            exact ih t.root _
        · simp only [if_neg hleaf]
          exact ih nxt t

theorem decodeBody_complete (s : State) : decodeBody (complete s q) = (decodeBody s).mapState (complete · q) := by
  by_cases hr : s.root = Config.nil
  · rw [decodeBody_of_nil hr, decodeBody_of_nil (s := complete s q) hr]
    rfl
  · rw [decodeBody_of_root hr, decodeBody_of_root (s := complete s q) hr]
    exact decodeLoop_complete q (bitsLeft s) s.root s

theorem andThen_mapState_complete {f : State → Stage} (hf : ∀ s, f (complete s q) = (f s).mapState (complete · q))
    (x : Stage) : (x.mapState (complete · q)).andThen f = (x.andThen f).mapState (complete · q) := by
  cases x with
  | stop e => rfl
  | done s r =>
    by_cases hr : r = .ok
    · rw [hr, andThen_ok]
      exact (andThen_ok _ f).trans (hf s)
    · rw [andThen_error hr]
      exact andThen_error hr f

theorem releasing_mapState_complete (x : Stage) :
    (x.mapState (complete · q)).releasing = x.releasing.mapState (complete · q) := by cases x <;> rfl

theorem compressStages_complete (s : State) :
    compressStages (complete s q) = (compressStages s).mapState (complete · q) := by
  have hrewind : rewindBody (complete s q) = (rewindBody s).mapState (complete · q) := rfl
  rw [compressStages, hrewind, andThen_mapState_complete q (freqBody_complete q),
    andThen_mapState_complete q (buildBody_complete q), andThen_mapState_complete q (codesBody_complete q),
    andThen_mapState_complete q (serialBody_complete q), andThen_mapState_complete q (encodeBody_complete q),
    compressStages]

theorem decompressStages_complete (s : State) :
    decompressStages (complete s q) = (decompressStages s).mapState (complete · q) := by
  rw [decompressStages, parseBody_complete, andThen_mapState_complete q (buildBody_complete q),
    andThen_mapState_complete q (decodeBody_complete q), decompressStages]

/-- What a command does with everything but `STATUS` does not depend on `STATUS`. -/
theorem bodyOf_complete (i : Instr) (s : State) : bodyOf i (complete s q) = (bodyOf i s).mapState (complete · q) := by
  cases i with
  | freq => exact freqBody_complete q s
  | build => exact buildBody_complete q s
  | codes => exact codesBody_complete q s
  | serial => exact serialBody_complete q s
  | parse => exact parseBody_complete q s
  | encode => exact encodeBody_complete q s
  | decode => exact decodeBody_complete q s
  | compress =>
    exact (congrArg Stage.releasing (compressStages_complete q s)).trans (releasing_mapState_complete q _)
  | decompress =>
    exact (congrArg Stage.releasing (decompressStages_complete q s)).trans (releasing_mapState_complete q _)
  | rewind | release | reserved0 | reservedC | reservedD | reservedE | reservedF => rfl

theorem runStages_complete (is : List Instr) (s : State) :
    runStages is (complete s q) = (runStages is s).mapState (complete · q) := by
  induction is generalizing s with
  | nil => rfl
  | cons i is ih => rw [runStages, bodyOf_complete, andThen_mapState_complete q ih, runStages]

end

/-- A command's result overwrites `STATUS`, so its meaning does not depend on it at all. -/
theorem exec_complete (i : Instr) (s : State) (q : ResultCode) : exec i (complete s q) = exec i s := by
  rw [exec_eq_finish, exec_eq_finish, bodyOf_complete]
  cases bodyOf i s <;> rfl

/-! ### The composites -/

theorem runClean_cons (i : Instr) (is : List Instr) {s t : State} {r : ResultCode} (h : bodyOf i s = .done t r) :
    runClean (i :: is) s = if r = .ok then runClean is (complete t r) else none := by
  rw [runClean, exec_eq_finish, h]
  rfl

theorem runClean_cons_of_stop (i : Instr) (is : List Instr) {s : State} {f : Fault} (h : bodyOf i s = .stop f) :
    runClean (i :: is) s = none := by simp only [runClean, exec_eq_finish, h, finish_stop]

theorem mapState_eq_done {f : State → State} {x : Stage} {t : State} {r : ResultCode} (h : x.mapState f = .done t r) :
    ∃ s, x = .done s r ∧ t = f s := by
  cases x with
  | stop e => simp [Stage.mapState] at h
  | done s q =>
    cases h
    exact ⟨s, rfl, rfl⟩

/-- Commands that complete with `OK` one after another do, `STATUS` apart, what their bodies do as stages. -/
theorem runStages_of_runClean (is : List Instr) {s t : State} (h : runClean is s = some t) :
    ∃ u, runStages is s = .done u .ok ∧ complete t .ok = complete u .ok := by
  induction is generalizing s with
  | nil =>
    cases h
    exact ⟨_, rfl, rfl⟩
  | cons i is ih =>
    cases hbody : bodyOf i s with
    | stop f =>
      rw [runClean_cons_of_stop i is hbody] at h
      cases h
    | done v r =>
      rw [runClean_cons i is hbody] at h
      split at h
      case isFalse => cases h
      case isTrue hr =>
        subst hr
        obtain ⟨u, hu, htu⟩ := ih h
        rw [runStages_complete] at hu
        obtain ⟨w, hw, rfl⟩ := mapState_eq_done hu
        exact ⟨w, by rw [runStages, hbody, andThen_ok, hw], htu⟩

theorem runClean_append (is js : List Instr) (s : State) :
    runClean (is ++ js) s = (runClean is s).bind (runClean js) := by
  induction is generalizing s with
  | nil => rfl
  | cons i is ih =>
    cases hbody : bodyOf i s with
    | stop f =>
      rw [List.cons_append, runClean_cons_of_stop i _ hbody, runClean_cons_of_stop i is hbody]
      rfl
    | done v r =>
      rw [List.cons_append, runClean_cons i _ hbody, runClean_cons i is hbody]
      split
      · exact ih (complete v r)
      · rfl

/-- Stages that do not fail, then RELEASE, end as the commands do. -/
theorem finish_releasing_of_runClean {prims : List Instr} {s t : State}
    (h : runClean (prims ++ [.release]) s = some t) : finish (runStages prims s).releasing = .next t := by
  rw [runClean_append, Option.bind_eq_some_iff] at h
  obtain ⟨v, hv, ht⟩ := h
  obtain ⟨u, hu, hvu⟩ := runStages_of_runClean prims hv
  have htv : t = release (complete v .ok) := (Option.some.inj ht).symm
  rw [hu, htv, hvu]
  rfl

/-- A stage that fails after others that did not ends the composite with its state released and its result. -/
theorem finish_releasing_of_failure {before : List Instr} {j : Instr} {s t u : State}
    (hclean : runClean before s = some t) (he : exec j t = .next u) (herr : u.err ≠ .ok) (left : List Instr) :
    finish (runStages (before ++ j :: left) s).releasing = .next (release u) := by
  obtain ⟨v, hv, htv⟩ := runStages_of_runClean before hclean
  rw [← exec_complete j t .ok, htv, exec_complete] at he
  obtain ⟨w, r, hbody, rfl⟩ := exec_next he
  rw [complete_err] at herr
  rw [runStages_append, hv, andThen_ok, runStages, hbody, andThen_error herr]
  rfl

/-- A composite is its stages and then `Release()` on every path (45_composite_and_control.md R210, R213). -/
theorem exec_composite {i : Instr} {stages : List Instr}
    (h : (i = .compress ∧ stages = [.rewind, .freq, .build, .codes, .serial, .encode, .release]) ∨
      (i = .decompress ∧ stages = [.parse, .build, .decode, .release])) :
    ∃ prims, stages = prims ++ [.release] ∧ ∀ s, exec i s = finish (runStages prims s).releasing := by
  rcases h with ⟨rfl, rfl⟩ | ⟨rfl, rfl⟩
  · exact ⟨[.rewind, .freq, .build, .codes, .serial, .encode], rfl, fun s => by rw [← compressStages_eq]; rfl⟩
  · exact ⟨[.parse, .build, .decode], rfl, fun s => by rw [← decompressStages_eq]; rfl⟩

theorem exec_release_err {s t : State} (h : exec .release s = .next t) : t.err = .ok := by
  cases h
  rfl

/-- Settles O38: what a composite's stages do is what its commands do, `STATUS` apart, which the last one writes. -/
theorem compositesEqualPrimitives : Obligations.CompositesEqualPrimitives := by
  intro i stages hcomposite
  obtain ⟨prims, rfl, hexec⟩ := exec_composite hcomposite
  refine ⟨fun s t hclean => (hexec s).trans (finish_releasing_of_runClean hclean), ?_⟩
  intro before left j s t u hsplit hclean he herr
  rw [hexec]
  rcases List.eq_nil_or_concat' left with rfl | ⟨left, k, rfl⟩
  · have hj : Instr.release = j := (List.append_singleton_inj.1 hsplit).2
    exact absurd (exec_release_err (hj ▸ he)) herr
  · have hprims : prims = before ++ j :: left :=
      (List.append_singleton_inj.1 (hsplit.trans (List.append_assoc before (j :: left) [k]).symm)).1
    rw [hprims]
    exact finish_releasing_of_failure hclean he herr left

end Sys2Proof.Machine

/-!
PROOFS. FREQ (40_frequency_accumulator.md): it counts the unread bytes when every count fits, and fails otherwise; the
two exclude each other, and which it is depends on the counts alone.
-/

namespace Sys2Proof.Machine

/-! ### The table of a byte sequence -/

/-- Only the symbols proper have entries. -/
theorem tableOfBytes_length_le {bs : List Byte} {ft : List (Nat × Count)} (h : tableOfBytes bs ft) :
    ft.length ≤ 257 := by
  obtain ⟨hwf, -, -⟩ := h
  exact ftEntries_of_wf hwf ▸ ftEntries_length_le ft

/-- The sentinel's entry is there (40_frequency_accumulator.md R132). -/
theorem tableOfBytes_length_pos {bs : List Byte} {ft : List (Nat × Count)} (h : tableOfBytes bs ft) : 1 ≤ ft.length := by
  obtain ⟨-, hsentinel, -⟩ := h
  exact List.length_pos_of_mem (Table.mem_of_get hsentinel)

theorem tableOfBytes_unique {bs : List Byte} {ft ft' : List (Nat × Count)} (h : tableOfBytes bs ft)
    (h' : tableOfBytes bs ft') : ft = ft' := by
  obtain ⟨hwf, hsentinel, hbyte⟩ := h
  obtain ⟨hwf', hsentinel', hbyte'⟩ := h'
  refine Table.ext hwf hwf' fun sym => ?_
  rcases Nat.lt_trichotomy sym 256 with hlt | rfl | hgt
  · have hsym : (BitVec.ofNat 8 sym).toNat = sym := Nat.mod_eq_of_lt hlt
    rw [← hsym, hbyte, hbyte']
  · rw [hsentinel, hsentinel']
  · rw [Table.get_of_ge hwf hgt, Table.get_of_ge hwf' hgt]

/-- The order of the bytes does not matter (40_frequency_accumulator.md R135). -/
theorem tableOfBytes_perm {bs bs' : List Byte} {ft : List (Nat × Count)} (hp : bs.Perm bs') (h : tableOfBytes bs ft) :
    tableOfBytes bs' ft := by
  obtain ⟨hwf, hsentinel, hbyte⟩ := h
  exact ⟨hwf, hsentinel, fun b => by rw [hbyte, hp.count_eq]⟩

theorem countsFit_perm {bs bs' : List Byte} (hp : bs.Perm bs') (h : countsFit bs) : countsFit bs' := fun b =>
  hp.count_eq b ▸ h b

/-- A byte whose value occurred `CMAX` times before it is one too many. -/
theorem not_countsFit_of_getElem? {bs : List Byte} {k : Nat} {b : Byte} (hk : bs[k]? = some b)
    (hc : (bs.take k).count b = 4294967295) : ¬ countsFit bs := by
  intro h
  have hnext : (bs.take (k + 1)).count b = 4294967295 + 1 := by simp [List.take_add_one, hk, hc]
  have hle : (bs.take (k + 1)).count b ≤ bs.count b := (List.take_sublist _ _).count_le b
  have hfits := h b
  omega

/-! ### The body and the command -/

/-- With counts that fit FREQ reads to the end (40_frequency_accumulator.md R131, R132). -/
theorem freqBody_of_countsFit {s : State} (h : countsFit (unread s)) :
    ∃ ft, tableOfBytes (unread s) ft ∧
      freqBody s = .done { s with ft := ft, nodes := [], root := Config.nil, codes := [],
                                  inPos := s.inPos + (unread s).length } .ok := by
  rcases freqBody_spec s with ⟨-, hdone⟩ | ⟨k, b, hk, hc, -⟩
  · exact hdone
  · exact absurd h (not_countsFit_of_getElem? hk hc)

/-- With a count that does not fit FREQ stops at the byte that is one too many (40_frequency_accumulator.md R133). -/
theorem freqBody_of_not_countsFit {s : State} (h : ¬ countsFit (unread s)) :
    ∃ k b, (unread s)[k]? = some b ∧ ((unread s).take k).count b = 4294967295 ∧ countsFit ((unread s).take k) ∧
      freqBody s = .done { s with ft := [], nodes := [], root := Config.nil, codes := [], inPos := s.inPos + k + 1 }
        .countOverflow := by
  rcases freqBody_spec s with ⟨hfits, -⟩ | hoverflow
  · exact absurd hfits h
  · exact hoverflow

theorem exec_freq_of_done {s u : State} {r : ResultCode} (h : freqBody s = .done u r) :
    exec .freq s = .next (complete u r) := congrArg finish h

/-- Settles O12: the counts fit, so FREQ's loop ends at the end of `IN` with the table of the unread bytes. -/
theorem freqCountsUnreadBytes : Obligations.FreqCountsUnreadBytes := by
  intro s hcursor hfits
  obtain ⟨ft, htable, hdone⟩ := freqBody_of_countsFit hfits
  have hend : s.inPos + (unread s).length = s.input.length := by
    rw [unread_length]
    exact Nat.add_sub_cancel' hcursor
  rw [hend] at hdone
  exact ⟨ft, htable, tableOfBytes_length_pos htable, tableOfBytes_length_le htable, exec_freq_of_done hdone⟩

/-- Settles O13: the counts do not fit, so FREQ's loop stops at the first byte that is one too many. -/
theorem freqCountOverflow : Obligations.FreqCountOverflow := by
  rintro s ⟨b, hb⟩
  obtain ⟨k, c, hk, hcount, hfits, hdone⟩ := freqBody_of_not_countsFit fun h => Nat.not_lt.2 (h b) hb
  exact ⟨k, c, hk, hcount, hfits, exec_freq_of_done hdone⟩

/-- What a completed FREQ says of the table and the result, by whether the counts fit. -/
theorem exec_freq_table {s t : State} (h : exec .freq s = .next t) :
    (countsFit (unread s) ∧ tableOfBytes (unread s) t.ft ∧ t.err = .ok) ∨
      (¬ countsFit (unread s) ∧ t.ft = [] ∧ t.err = .countOverflow) := by
  by_cases hfits : countsFit (unread s)
  · obtain ⟨ft, htable, hdone⟩ := freqBody_of_countsFit hfits
    cases h.symm.trans (exec_freq_of_done hdone)
    exact .inl ⟨hfits, htable, rfl⟩
  · obtain ⟨k, b, -, -, -, hdone⟩ := freqBody_of_not_countsFit hfits
    cases h.symm.trans (exec_freq_of_done hdone)
    exact .inr ⟨hfits, rfl, rfl⟩

/-- Settles O14: whether the counts fit, and the table when they do, are the same for a permutation. -/
theorem freqDependsOnMultiset : Obligations.FreqDependsOnMultiset := by
  intro s s' t t' hperm he he'
  rcases exec_freq_table he with ⟨hfits, htable, herr⟩ | ⟨hfits, hft, herr⟩ <;>
    rcases exec_freq_table he' with ⟨hfits', htable', herr'⟩ | ⟨hfits', hft', herr'⟩
  · exact ⟨tableOfBytes_unique (tableOfBytes_perm hperm htable) htable', herr.trans herr'.symm⟩
  · exact absurd (countsFit_perm hperm hfits) hfits'
  · exact absurd (countsFit_perm hperm.symm hfits') hfits
  · exact ⟨hft.trans hft'.symm, herr.trans herr'.symm⟩

end Sys2Proof.Machine

/-!
PROOFS. BUILD (41_tree_builder.md): what it does by the tree of the table's entries, which are none, one, or more; and the
frame of the commands that write tables only.
-/

namespace Sys2Proof.Machine

/-! ### The entries of a table -/

theorem get_eq_none_of_ftPresent {s : State} {sym : Nat} (h : ftPresent s sym = false) : Table.get s.ft sym = none :=
  Option.isNone_iff_eq_none.1 (by simpa [ftPresent] using h)

theorem ftEntries_eq_nil {s : State} (h : ∀ sym < 257, ftPresent s sym = false) : ftEntries s.ft = [] :=
  (ftEntries_congr fun sym hsym => get_eq_none_of_ftPresent (h sym hsym)).trans ftEntries_nil

theorem ftEntries_eq_singleton {s : State} {sym : Nat} {c : Count} (hsym : sym < 257)
    (hget : Table.get s.ft sym = some c) (hother : ∀ sym' < 257, sym' ≠ sym → ftPresent s sym' = false) :
    ftEntries s.ft = [(sym, c)] := by
  have hwf : Table.wf [(sym, c)] = true := decide_eq_true hsym
  rw [← ftEntries_of_wf hwf]
  refine ftEntries_congr fun sym' hsym' => ?_
  by_cases heq : sym' = sym
  · simp [heq, hget, Table.get]
  · simp [heq, get_eq_none_of_ftPresent (hother sym' hsym' heq), Table.get]

/-! ### BUILD by its tree -/

theorem exec_build_of_none {s : State} (h : buildTree (ftEntries s.ft) = none) :
    exec .build s = .next { s with nodes := [], root := Config.nil, codes := [], err := .emptyAlphabet,
                                   issued := none } := congrArg finish (buildBody_of_none h)

theorem exec_build_of_some {s : State} {nodes : List Node} {root : Handle}
    (h : buildTree (ftEntries s.ft) = some (nodes, root)) :
    exec .build s = .next { s with nodes := nodes, root := root, codes := [], err := .ok, issued := none } :=
  congrArg finish (buildBody_of_some h)

/-- Settles O18: equal entries give one `buildTree`, and BUILD's tables and result are read off it. -/
theorem buildDependsOnTableAlone : Obligations.BuildDependsOnTableAlone := by
  intro s s' t t' hget he he'
  have hentries : ftEntries s.ft = ftEntries s'.ft := ftEntries_congr hget
  cases hb : buildTree (ftEntries s.ft) with
  | none =>
    cases he.symm.trans (exec_build_of_none hb)
    cases he'.symm.trans (exec_build_of_none (hentries ▸ hb))
    exact ⟨rfl, rfl, rfl, rfl⟩
  | some tree =>
    cases he.symm.trans (exec_build_of_some hb)
    cases he'.symm.trans (exec_build_of_some (hentries ▸ hb))
    exact ⟨rfl, rfl, rfl, rfl⟩

/-! ### No entry -/

theorem exec_build_of_no_entry {s : State} (h : ftEntries s.ft = []) :
    exec .build s = .next { s with nodes := [], root := Config.nil, codes := [], err := .emptyAlphabet,
                                   issued := none } :=
  exec_build_of_none (congrArg buildTree h)

theorem exec_build_of_ft_nil {s : State} (h : s.ft = []) : ∃ t, exec .build s = .next t ∧ t.err = .emptyAlphabet :=
  ⟨_, exec_build_of_no_entry ((congrArg ftEntries h).trans ftEntries_nil), rfl⟩

theorem exec_release_ft {s t : State} (h : exec .release s = .next t) : t.ft = [] := by
  cases h
  rfl

/-- The header of no entry is accepted, and leaves the table without one (43_header_serializer_parser.md R175, R178). -/
theorem exec_parse_of_empty_header {s : State} {rest : List Byte} (h : unread s = [0x7B#8, 0x7D#8] ++ rest) :
    ∃ t, exec .parse s = .next t ∧ t.err = .ok ∧ t.ft = [] := by
  have hread : parseText .opening [] (unread s) = (some [], 2) := by
    rw [h]
    rfl
  have hbody : parseBody s = .ofResult (parsed (release s) (some [], 2)) := by rw [parseBody_eq, hread]
  exact ⟨_, congrArg finish hbody, rfl, rfl⟩

/-- DECOMPRESS ends with the result of BUILD where PARSE succeeded and BUILD did not (45_composite_and_control.md R213). -/
theorem exec_decompress_of_build_fails {s t u : State} (hparse : exec .parse s = .next t) (hok : t.err = .ok)
    (hbuild : exec .build t = .next u) (herr : u.err ≠ .ok) : exec .decompress s = .next (release u) := by
  have hclean : runClean [.parse] s = some t := by simp [runClean, hparse, hok]
  exact (compositesEqualPrimitives .decompress _ (.inr ⟨rfl, rfl⟩)).2 [.parse] [.decode, .release] .build s t u rfl
    hclean hbuild herr

/-- Settles O15: each of the ways the statement names leaves a table without an entry. -/
theorem buildEmptyAlphabet : Obligations.BuildEmptyAlphabet := by
  refine ⟨fun s hnone => exec_build_of_no_entry (ftEntries_eq_nil hnone), fun s t ht => exec_build_of_ft_nil ?_,
    fun s rest hheader => ?_⟩
  · rcases ht with rfl | hrelease
    · rfl
    · exact exec_release_ft hrelease
  · obtain ⟨t, hparse, hok, hft⟩ := exec_parse_of_empty_header hheader
    obtain ⟨u, hbuild, herr⟩ := exec_build_of_ft_nil hft
    exact ⟨t, u, release u, hparse, hok, hbuild, herr,
      exec_decompress_of_build_fails hparse hok hbuild (by simp [herr]), herr⟩

/-! ### One entry -/

/-- The nodes of the degenerate tree: the leaf, and the root with the leaf on its 0-branch (41_tree_builder.md R145). -/
def degenerateNodes (sym : Nat) (c : Count) : List Node :=
  [leafNode sym c, internalNode c.toNat (handleOf 0) Config.nil]

theorem buildTree_singleton (sym : Nat) (c : Count) :
    buildTree [(sym, c)] = some (degenerateNodes sym c, handleOf 1) := rfl

/-- The records of the degenerate tree, field by field (30_encoding.md R110). -/
theorem degenerateNodes_eq (sym : Nat) (c : Count) : degenerateNodes sym c =
    [⟨true, BitVec.ofNat 9 sym, c.setWidth 41, 1023#10, 1023#10⟩, ⟨false, 257#9, c.setWidth 41, 0#10, 1023#10⟩] := by
  simp [degenerateNodes, leafNode, internalNode, handleOf, Config.nil, Config.noSymbol]

/-- The walk from the degenerate root meets the leaf under 0 and nothing under 1 (42_code_deriver.md R160). -/
theorem deriveCodes_degenerate {sym : Nat} (h : sym < 257) (c : Count) :
    deriveCodes (degenerateNodes sym c) (handleOf 1) = .ok [(sym, [false])] := by
  have hmod : sym % 512 = sym := Nat.mod_eq_of_lt (by omega)
  simp [deriveCodes, degenerateNodes, walk, leafNode, internalNode, handleOf, Config.maxLen, Config.nil, codeStore,
    Table.set, hmod]

/-- A bit whose branch is empty stops the walk of DECODE (44_bitstream_codec.md R196). -/
theorem decodeLoop_of_nil_branch {n : Nat} {cur : Handle} {s t : State} {bit : Bool} {node : Node}
    (hbit : inBitOp s = (some bit, t)) (hnode : t.nodes[cur.toNat]? = some node)
    (hnil : (if bit then node.c1 else node.c0) = Config.nil) : decodeLoop (n + 1) cur s = decodeCorrupt t := by
  simp [decodeLoop, hbit, hnode, hnil]

theorem getElem?_inPos_of_unread {s : State} {b : Byte} {rest : List Byte} (h : unread s = b :: rest) :
    s.input[s.inPos]? = some b := by
  have hhead : (unread s)[0]? = some b := by rw [h]; rfl
  rwa [unread, List.getElem?_drop, Nat.add_zero] at hhead

/-- At a byte boundary the next bit is bit 7 of the next byte (20_memory.md R62). -/
theorem inBitOp_of_aligned {s : State} {b : Byte} {rest : List Byte} (h : unread s = b :: rest)
    (haligned : s.inBit = 0#3) : inBitOp s = (some (b.getLsbD 7), { s with inBit := 1#3 }) := by
  simp [inBitOp, getElem?_inPos_of_unread h, advanceBit, haligned]

theorem inAlign_of_inBit_one {s : State} (haligned : s.inBit = 0#3) :
    inAlign { s with inBit := 1#3 } = { s with inPos := s.inPos + 1 } := by
  simp [inAlign, haligned]

theorem bitsLeft_of_unread {s : State} {b : Byte} {rest : List Byte} (h : unread s = b :: rest)
    (haligned : s.inBit = 0#3) : ∃ n, bitsLeft s = n + 1 := by
  have hlt := inPos_lt_of_unread h
  refine Nat.exists_eq_add_one.2 ?_
  simp only [bitsLeft, haligned, BitVec.toNat_ofNat]
  omega

/-- DECODE of a first bit whose branch at the root is empty: `CorruptStream`, one byte on, nothing emitted
(44_bitstream_codec.md R196). -/
theorem decodeBody_of_nil_branch {s : State} {b : Byte} {rest : List Byte} {node : Node} (hroot : s.root ≠ Config.nil)
    (hnode : s.nodes[s.root.toNat]? = some node) (hunread : unread s = b :: rest) (haligned : s.inBit = 0#3)
    (hnil : (if b.getLsbD 7 then node.c1 else node.c0) = Config.nil) :
    decodeBody s = .done { s with inPos := s.inPos + 1 } .corruptStream := by
  obtain ⟨n, hn⟩ := bitsLeft_of_unread hunread haligned
  rw [decodeBody, if_neg hroot, hn, decodeLoop_of_nil_branch (inBitOp_of_aligned hunread haligned) hnode hnil,
    decodeCorrupt, inAlign_of_inBit_one haligned]

theorem root_ne_nil_of_degenerate {s : State} (hroot : s.root = handleOf 1) : s.root ≠ Config.nil := by
  rw [hroot]
  decide

section
variable {s : State} {sym : Nat} {c : Count} (hnodes : s.nodes = degenerateNodes sym c) (hroot : s.root = handleOf 1)
include hnodes hroot

theorem exec_codes_of_degenerate (hsym : sym < 257) :
    exec .codes s = .next { s with codes := [(sym, [false])], err := .ok, issued := none } := by
  have hderived : deriveCodes s.nodes s.root = .ok [(sym, [false])] := by
    rw [hnodes, hroot, deriveCodes_degenerate hsym]
  exact congrArg finish (codesBody_of_ok (root_ne_nil_of_degenerate hroot) hderived)

theorem exec_decode_of_degenerate {b : Byte} {rest : List Byte} (hone : b.getLsbD 7 = true)
    (hunread : unread s = b :: rest) (haligned : s.inBit = 0#3) :
    exec .decode s = .next { s with inPos := s.inPos + 1, err := .corruptStream, issued := none } := by
  have hnode : s.nodes[s.root.toNat]? = some (internalNode c.toNat (handleOf 0) Config.nil) := by
    rw [hnodes, hroot]
    rfl
  exact congrArg finish (decodeBody_of_nil_branch (root_ne_nil_of_degenerate hroot) hnode hunread haligned
    (if_pos hone))

end

/-- Settles O16: the entries are the one entry, whose tree is `degenerateNodes` with root 1. -/
theorem buildDegenerateTree : Obligations.BuildDegenerateTree := by
  intro s sym c hsym hget hother
  have hbuild := exec_build_of_some (ftEntries_eq_singleton hsym hget hother ▸ buildTree_singleton sym c)
  exact ⟨_, hbuild, by rw [degenerateNodes_eq]; rfl, exec_codes_of_degenerate rfl rfl hsym,
    fun b rest hone hunread haligned => exec_decode_of_degenerate rfl rfl hone hunread haligned⟩

/-! ### Two entries or more -/

/-- Settles O17: the greedy tree of the merge loop, whose leaves and merges are those of the statement. -/
theorem buildMergesGreedily : Obligations.BuildMergesGreedily := by
  intro s hmany
  rcases buildTree_spec (ftEntries s.ft) (ftEntries_length_le s.ft) with ⟨hnil, -⟩ | ⟨sym, c, hone, -⟩ | ⟨-, nodes, hb, hg⟩
  · simp [hnil] at hmany
  · simp [hone] at hmany
  · have hlen : nodes.length = 2 * (ftEntries s.ft).length - 1 := Nat.eq_sub_of_add_eq hg.len
    exact ⟨nodes, exec_build_of_some hb, hlen, hg.leaf, fun h hge hlt => hg.merges h hge (hlen ▸ hlt)⟩

/-! ### The frame of the commands that write tables only -/

theorem exec_build_frame {s t : State} (h : exec .build s = .next t) :
    ∃ nodes root r, t = { s with nodes := nodes, root := root, codes := [], err := r, issued := none } := by
  cases hb : buildTree (ftEntries s.ft) with
  | none =>
    cases h.symm.trans (exec_build_of_none hb)
    exact ⟨_, _, _, rfl⟩
  | some tree =>
    cases h.symm.trans (exec_build_of_some hb)
    exact ⟨_, _, _, rfl⟩

theorem exec_codes_frame {s t : State} (h : exec .codes s = .next t) :
    ∃ codes r, t = { s with codes := codes, err := r, issued := none } := by
  obtain ⟨u, r, hbody, rfl⟩ := exec_next h
  change codesBody s = .done u r at hbody
  by_cases hroot : s.root = Config.nil
  · cases (codesBody_of_nil hroot).symm.trans hbody
    exact ⟨_, _, rfl⟩
  · cases hd : deriveCodes s.nodes s.root with
    | error f => simp [codesBody, hroot, hd] at hbody
    | ok codes =>
      cases (codesBody_of_ok hroot hd).symm.trans hbody
      exact ⟨_, _, rfl⟩

/-- Settles O49: the next state of each command is the old one with tables and `STATUS` written; RELEASE alone writes the
frequency table, and CODES writes no table but its own. -/
theorem tableCommandsLeaveStreams : Obligations.TableCommandsLeaveStreams := by
  intro i s t hi he
  cases i with
  | build =>
    obtain ⟨nodes, root, r, rfl⟩ := exec_build_frame he
    simp
  | codes =>
    obtain ⟨codes, r, rfl⟩ := exec_codes_frame he
    simp
  | release =>
    cases he
    simp
  | reserved0 | reservedC | reservedD | reservedE | reservedF =>
    cases he
    simp
  | freq | serial | parse | encode | decode | compress | decompress | rewind => simp at hi

end Sys2Proof.Machine

/-!
PROOFS. CODES: the paths of the tree it records, and its end without a tree (42_code_deriver.md R161, R164).
-/

namespace Sys2Proof.Machine

theorem exec_codes_of_nil {s : State} (h : s.root = Config.nil) :
    exec .codes s = .next { s with codes := [], err := .noTree, issued := none } :=
  congrArg finish (codesBody_of_nil h)

theorem exec_codes_of_ok {s : State} {codes : List (Nat × List Bool)} (h : s.root ≠ Config.nil)
    (hd : deriveCodes s.nodes s.root = .ok codes) :
    exec .codes s = .next { s with codes := codes, err := .ok, issued := none } :=
  congrArg finish (codesBody_of_ok h hd)

/-- Settles O20: the tree of a safe state is one of BUILD, on which the walk ends with the path to each leaf. -/
theorem codesRecordsPaths : Obligations.CodesRecordsPaths := by
  intro s h hroot
  obtain ⟨codes, hderived, hwf, hget⟩ := (h.treeOk hroot).deriveCodes_spec (ftEntries_wf s.ft)
  exact ⟨codes, exec_codes_of_ok hroot hderived, hwf, fun sym bits => (hget sym bits).trans (leafPath_iff s bits sym).symm⟩

/-- Settles O21: CODES clears its table before it finds the root NIL. -/
theorem codesNoTree : Obligations.CodesNoTree := fun _ => exec_codes_of_nil

end Sys2Proof.Machine

/-!
PROOFS. SERIAL and PARSE (43_header_serializer_parser.md): SERIAL writes the canonical header, PARSE accepts exactly the
grammar of 30_encoding.md R95, the canonical header is in it, and a failing PARSE stops at the first byte that no header can
have there. Then the frame of the commands that leave the tables, and of those that emit nothing.
-/

namespace Sys2Proof.Machine

/-! ### SERIAL -/

/-- The first byte written flushes what is pending (20_memory.md R64). -/
theorem outBytes_cons_flush (s : State) (b : Byte) (bs : List Byte) :
    outBytes s (b :: bs) = { outFlush s with out := (outFlush s).out ++ b :: bs } := by
  have hstart : outBytes s (b :: bs) = outBytes (outByte s b) bs := rfl
  have hflushed : (outByte s b).outN = 0#3 := outFlush_outN s
  rw [hstart, outBytes_of_flushed bs hflushed]
  simp [outByte]

/-- SERIAL flushes and appends the header (43_header_serializer_parser.md R170). -/
theorem exec_serial (s : State) :
    exec .serial s = .next { outFlush s with out := (outFlush s).out ++ headerText s.ft, err := .ok, issued := none } :=
  congrArg (fun u => Host.Outcome.next (complete u .ok)) (outBytes_cons_flush s chOpen _)

theorem exec_serial_of_flushed {s : State} (h : s.outN = 0#3) :
    exec .serial s = .next { s with out := s.out ++ headerText s.ft, err := .ok, issued := none } := by
  rw [exec_serial, outFlush_of_flushed h]

/-- Settles O23: the text SERIAL writes is the canonical header, after a flush. -/
theorem serialAppendsHeader : Obligations.SerialAppendsHeader := by
  intro s
  rw [← headerText_eq]
  refine ⟨exec_serial_of_flushed, fun hpending => ?_⟩
  rw [exec_serial, outFlush, if_neg hpending]

/-! ### The length of a header -/

theorem decimal_length_le {v k : Nat} (hk : 0 < k) (h : v < 10 ^ k) : (decimal v).length ≤ k := by
  unfold decimal
  split
  · exact hk
  · simpa using (Nat.digits_length_le_iff (by omega) v).2 h

/-- A symbol has at most 3 digits and a count at most 10 (43_header_serializer_parser.md R172). -/
theorem entryText_length_le {e : Nat × Count} (h : e.1 < 257) : (entryText e).length ≤ 14 := by
  have hsym : (decimal e.1).length ≤ 3 := decimal_length_le (by omega) (by omega)
  have hcount : (decimal e.2.toNat).length ≤ 10 := decimal_length_le (by omega) (by have := e.2.isLt; omega)
  simp only [entryText, dec_eq_decimal, List.length_append, List.length_cons]
  omega

/-- With a comma between them, entries take at most 15 bytes each, the last one 14. -/
theorem entriesText_length_le (es : List (Nat × Count)) (h : ∀ e ∈ es, e.1 < 257) :
    (entriesText es).length ≤ 15 * es.length - 1 := by
  induction es with
  | nil => exact Nat.zero_le _
  | cons e es ih =>
    have he := entryText_length_le (h e (by simp))
    cases es with
    | nil => exact he
    | cons e' es =>
      have hrest := ih fun x hx => h x (List.mem_cons_of_mem e hx)
      simp only [entriesText, List.length_append, List.length_cons] at hrest ⊢
      omega

theorem headerText_length (ft : List (Nat × Count)) :
    (headerText ft).length = (entriesText (ftEntries ft)).length + 2 := by simp [headerText]

/-- Settles O24: the two braces, and at most 257 entries between them. -/
theorem serialHeaderLength : Obligations.SerialHeaderLength := by
  intro s t hn he
  cases (exec_serial_of_flushed hn).symm.trans he
  have hentries : (entriesText (ftEntries s.ft)).length ≤ 15 * (ftEntries s.ft).length - 1 :=
    entriesText_length_le _ fun e hmem => ((mem_ftEntries s.ft e.1 e.2).1 hmem).1
  have hcount := ftEntries_length_le s.ft
  refine ⟨?_, ?_, fun hempty => ?_⟩
  · simp only [List.length_append, headerText_length]
    omega
  · simp only [List.length_append, headerText_length]
    omega
  · simp only [hempty, headerText, ftEntries_nil]
    rfl

/-! ### PARSE -/

theorem exec_parse_of_accepted {s : State} {ft : List (Nat × Count)} {k : Nat}
    (h : parseText .opening [] (unread s) = (some ft, k)) :
    exec .parse s = .next { s with ft := ft, nodes := [], root := 1023#10, codes := [], inPos := s.inPos + k,
                                   err := .ok, issued := none } := by
  rw [exec_eq_finish, bodyOf, parseBody_eq, h]
  rfl

theorem exec_parse_of_failed {s : State} {k : Nat} (h : parseText .opening [] (unread s) = (none, k)) :
    exec .parse s = .next { s with ft := [], nodes := [], root := 1023#10, codes := [], inPos := s.inPos + k,
                                   err := .malformedHeader, issued := none } := by
  rw [exec_eq_finish, bodyOf, parseBody_eq, h]
  rfl

/-- Settles O25: the header is read up to its closing brace, and its table is what PARSE leaves. -/
theorem parseAcceptsHeader : Obligations.ParseAcceptsHeader := by
  intro s es rest haccepted hunread
  obtain ⟨ft, htable, hread⟩ := parseText_complete haccepted rest
  exact ⟨ft, htable, exec_parse_of_accepted (hunread ▸ hread)⟩

/-- Text that PARSE accepts begins with a header of the grammar. -/
theorem header_of_accepted {text : List Byte} {ft : List (Nat × Count)} {k : Nat}
    (h : parseText .opening [] text = (some ft, k)) :
    ∃ es rest, headerAccepted es ∧ text = headerSpelling es ++ rest := by
  have hopening : Reading [] [] .opening := ⟨rfl, rfl⟩
  obtain ⟨es, haccepted, -, hspelled⟩ := parseText_sound text hopening h
  rw [List.nil_append] at hspelled
  exact ⟨es, text.drop k, haccepted, by rw [← hspelled, List.take_append_drop]⟩

/-- Settles O26: PARSE completes with `OK` just when its reading of the text succeeds. -/
theorem parseAcceptsExactlyTheGrammar : Obligations.ParseAcceptsExactlyTheGrammar := by
  intro s
  constructor
  · rintro ⟨t, he, hok⟩
    rcases hread : parseText .opening [] (unread s) with ⟨_ | ft, k⟩
    · cases (exec_parse_of_failed hread).symm.trans he
      cases hok
    · exact header_of_accepted hread
  · rintro ⟨es, rest, haccepted, hunread⟩
    obtain ⟨ft, -, he⟩ := parseAcceptsHeader s es rest haccepted hunread
    exact ⟨_, he, rfl⟩

/-! ### Where PARSE fails: every byte before the last one read begins a header -/

theorem headerAccepted_single {e : List Nat × List Nat} (h1 : isNumeral e.1) (h2 : isNumeral e.2)
    (hs : numeralValue e.1 ≤ 256) (hc : numeralValue e.2 ≤ 4294967295) : headerAccepted [e] :=
  headerAccepted_snoc headerAccepted_nil h1 h2 hs hc (by simp)

/-- Complete entries and the beginning of one more begin a header. -/
theorem headerBegun_of_entry {es : List (List Nat × List Nat)} {e : List Nat × List Nat} {part left : List Byte}
    (hes : headerAccepted es) (he : headerAccepted [e]) (hsplit : part ++ left = spell e) :
    headerBegun (chOpen :: spellings es ++ part) := by
  refine ⟨es, e, left ++ [chClose], hes, he, by simp, ?_⟩
  rw [headerSpelling_snoc, ← hsplit]
  simp

theorem isNumeral_zero : isNumeral [0] := isNumeral_single (by omega)

/-- An entry whose count is not read yet can have the count 0. -/
theorem headerAccepted_count_zero {ds : List Nat} (h : isNumeral ds) (hs : numeralValue ds ≤ 256) :
    headerAccepted [(ds, [0])] := headerAccepted_single h isNumeral_zero hs (Nat.zero_le 4294967295)

/-- What PARSE has read short of the closing brace begins a header. -/
theorem Reading.headerBegun {ft : List (Nat × Count)} {text : List Byte} {st : ParseState} (h : Reading ft text st)
    (hst : st ≠ .done) : headerBegun text := by
  have hzero : headerAccepted [([0], [0])] := headerAccepted_count_zero isNumeral_zero (Nat.zero_le 256)
  cases st with
  | opening =>
    obtain ⟨rfl, -⟩ := h
    exact ⟨[], ([0], [0]), _, headerAccepted_nil, hzero, by decide, rfl⟩
  | first =>
    obtain ⟨rfl, -⟩ := h
    exact headerBegun_of_entry (es := []) (part := []) headerAccepted_nil hzero rfl
  | sym v =>
    obtain ⟨es, ds, hes, -, hds, rfl, hle, rfl⟩ := h
    exact headerBegun_of_entry (left := [chColon] ++ numeralText [0]) hes (headerAccepted_count_zero hds hle)
      (List.append_assoc _ _ _).symm
  | count0 sym =>
    obtain ⟨es, ds, hes, -, hds, rfl, hle, rfl⟩ := h
    rw [List.append_assoc]
    exact headerBegun_of_entry (left := numeralText [0]) hes (headerAccepted_count_zero hds hle) rfl
  | count sym v =>
    obtain ⟨es, ds, cs, hes, -, hds, rfl, hle, hcs, rfl, hcle, rfl⟩ := h
    exact headerBegun_of_entry (left := []) hes (headerAccepted_single (e := (ds, cs)) hds hcs hle hcle)
      (List.append_nil _)
  | next =>
    obtain ⟨es, hes, -, rfl⟩ := h
    rw [← List.append_nil (chOpen :: spellings es)]
    exact headerBegun_of_entry hes hzero rfl
  | done => exact absurd rfl hst

/-- Before the last byte it reads, PARSE has seen the beginning of a header (43_header_serializer_parser.md R179). -/
theorem headerBegun_before_end (bs : List Byte) : ∀ {st : ParseState} {ft : List (Nat × Count)} {text : List Byte},
    Reading ft text st → st ≠ .done → ∀ j < (parseText st ft bs).2, headerBegun (text ++ bs.take j) := by
  induction bs with
  | nil => exact fun _ _ j hj => absurd hj (Nat.not_lt_zero j)
  | cons b bs ih =>
    intro st ft text hr hst j hj
    cases j with
    | zero => simpa using hr.headerBegun hst
    | succ j =>
      cases hmove : parseStep st b ft with
      | none => simp [parseText, hmove] at hj
      | some moved =>
        obtain ⟨st', ft'⟩ := moved
        by_cases hd : st' = .done
        · simp [parseText, hmove, hd] at hj
        · rw [parseText_cons bs hmove hd] at hj
          simpa using ih (hr.step hmove) hd j (Nat.lt_of_succ_lt_succ hj)

/-! ### Where PARSE fails: with the last byte read, no header is begun -/

/-- PARSE without success ran out of bytes, or failed at a byte whatever stands after it. -/
theorem parseText_none (bs : List Byte) : ∀ {st : ParseState} {ft : List (Nat × Count)} {k : Nat},
    parseText st ft bs = (none, k) →
    k = bs.length ∨ ∀ more, parseText st ft (bs.take k ++ more) = (none, k) := by
  induction bs with
  | nil =>
    rintro st ft k ⟨⟩
    exact .inl rfl
  | cons b bs ih =>
    intro st ft k h
    cases hmove : parseStep st b ft with
    | none =>
      obtain rfl : k = 1 := by simpa [parseText, hmove] using h.symm
      exact .inr fun more => by simp [parseText, hmove]
    | some moved =>
      obtain ⟨st', ft'⟩ := moved
      by_cases hd : st' = .done
      · simp [parseText, hmove, hd] at h
      · rw [parseText_cons bs hmove hd] at h
        obtain ⟨r, j, hrest⟩ : ∃ r j, parseText st' ft' bs = (r, j) := ⟨_, _, rfl⟩
        rw [hrest] at h
        cases h
        rcases ih hrest with rfl | hfailed
        · exact .inl rfl
        · refine .inr fun more => ?_
          rw [List.take_succ_cons, List.cons_append, parseText_cons _ hmove hd, hfailed]
          rfl

theorem headerAccepted_symbol_new {es left : List (List Nat × List Nat)} {e : List Nat × List Nat}
    (h : headerAccepted (es ++ e :: left)) : ∀ e' ∈ es, numeralValue e'.1 ≠ numeralValue e.1 := by
  obtain ⟨-, hdistinct⟩ := h
  rw [List.map_append, List.nodup_append] at hdistinct
  obtain ⟨-, -, hapart⟩ := hdistinct
  exact fun e' he' => hapart _ (List.mem_map_of_mem he') _ (by simp)

/-- Entries with a comma after each are read, whatever comes then. -/
theorem parseText_spellings (rest : List Byte) (left : List (List Nat × List Nat)) : ∀ {st : ParseState}
    (es : List (List Nat × List Nat)) (ft : List (Nat × Count)),
    (st = .first ∨ st = .next) → headerAccepted (es ++ left) → tableOfHeader es ft →
    ∃ st' ft', (st' = .first ∨ st' = .next) ∧
      parseText st ft (spellings left ++ rest) = later (spellings left).length (parseText st' ft' rest) := by
  induction left with
  | nil => exact fun {st} es ft hst _ _ => ⟨st, ft, hst, rfl⟩
  | cons e left ih =>
    intro st es ft hst ha ht
    obtain ⟨h1, h2, hs, hc⟩ := ha.1 e (by simp)
    have hnew := headerAccepted_symbol_new ha
    obtain ⟨st', ft', hst', hrest⟩ := ih (st := .next) (es ++ [e]) _ (.inr rfl) (by simpa using ha)
      (tableOfHeader_snoc ht e hs hnew)
    have hcomma : parseStep (.count (numeralValue e.1) (numeralValue e.2)) chComma ft =
        some (.next, Table.set ft (numeralValue e.1) (BitVec.ofNat 32 (numeralValue e.2))) := by
      simp [parseStep, show digitOf chComma = none by decide, commit_eq ht hnew]
    have htext : spellings (e :: left) ++ rest = spell e ++ chComma :: (spellings left ++ rest) := by simp [spellings]
    refine ⟨st', ft', hst', ?_⟩
    rw [htext, parseText_entry hst ft e _ h1 h2 hs hc, parseText_cons _ hcomma (by simp), hrest, later_later, later_later]
    congr 1
    simp [spellings]
    omega

/-- One byte is read, whether it fails or not. -/
theorem parseText_single_read (st : ParseState) (ft : List (Nat × Count)) (b : Byte) : (parseText st ft [b]).2 = 1 := by
  rw [parseText]
  split
  · rfl
  · split <;> rfl

/-- A header whose last entry may repeat a symbol is read to its closing brace, where the repetition shows
(43_header_serializer_parser.md R177). -/
theorem parseText_reads_header {es : List (List Nat × List Nat)} {e : List Nat × List Nat} (hes : headerAccepted es)
    (he : headerAccepted [e]) :
    (parseText .opening [] (headerSpelling (es ++ [e]))).2 = (headerSpelling (es ++ [e])).length := by
  have hopen : parseStep .opening chOpen [] = some (.first, []) := rfl
  obtain ⟨h1, h2, hs, hc⟩ := he.1 e (by simp)
  obtain ⟨st, ft, hst, hread⟩ := parseText_spellings (spell e ++ [chClose]) es [] [] (.inl rfl) hes tableOfHeader_nil
  rw [headerSpelling_snoc, List.append_assoc, List.cons_append, parseText_cons _ hopen (by simp), hread,
    parseText_entry hst ft e _ h1 h2 hs hc]
  simp only [later, parseText_single_read, List.length_append, List.length_cons, List.length_nil]
  omega

/-- Bytes that begin a header do not make PARSE fail: with the right bytes after them it reads on. -/
theorem headerBegun.read_on {text : List Byte} (h : headerBegun text) :
    ∃ more, text.length < (parseText .opening [] (text ++ more)).2 := by
  obtain ⟨es, e, tail, hes, he, htail, hspelled⟩ := h
  refine ⟨tail, ?_⟩
  rw [hspelled, parseText_reads_header hes he, ← hspelled, List.length_append]
  exact Nat.lt_add_of_pos_right (List.length_pos_iff.2 htail)

/-- Settles O27: PARSE's reading fails; what it read before begins a header, and with the byte it failed at it does not,
since a begun header could be read on. -/
theorem parseMalformedHeader : Obligations.ParseMalformedHeader := by
  intro s hno
  rcases hread : parseText .opening [] (unread s) with ⟨_ | ft, k⟩
  · have hk : k ≤ (unread s).length := by simpa [hread] using parseText_le (unread s) .opening []
    refine ⟨k, hk, fun j hj => ?_, ?_, exec_parse_of_failed hread⟩
    · have hopening : Reading [] [] .opening := ⟨rfl, rfl⟩
      exact headerBegun_before_end (unread s) hopening (by simp) j (by rwa [hread])
    · refine (parseText_none _ hread).imp_right fun hfailed hbegun => ?_
      obtain ⟨more, hmore⟩ := hbegun.read_on
      rw [hfailed, List.length_take_of_le hk] at hmore
      exact Nat.lt_irrefl k hmore
  · exact absurd (header_of_accepted hread) hno

/-! ### The canonical header is a header of the grammar -/

/-- The digits of `Dec(v)`, most significant first (43_header_serializer_parser.md R171). -/
def decimalDigits (v : Nat) : List Nat := if v = 0 then [0] else (Nat.digits 10 v).reverse

theorem decimal_eq_numeralText (v : Nat) : decimal v = numeralText (decimalDigits v) := by
  unfold decimal decimalDigits
  split <;> rfl

theorem isNumeral_decimalDigits (v : Nat) : isNumeral (decimalDigits v) := by
  unfold decimalDigits
  split
  · exact isNumeral_zero
  · rename_i hv
    have hdigits : Nat.digits 10 v ≠ [] := Nat.digits_ne_nil_iff_ne_zero.2 hv
    exact ⟨by simpa using hdigits, fun d hd => Nat.digits_lt_base (by omega) (List.mem_reverse.1 hd)⟩

theorem numeralValue_decimalDigits (v : Nat) : numeralValue (decimalDigits v) = v := by
  unfold decimalDigits numeralValue
  split
  · rename_i hv
    simp [hv]
  · calc (Nat.digits 10 v).reverse.foldl (fun v d => 10 * v + d) 0
        = Nat.ofDigits 10 (Nat.digits 10 v) := by simp [Nat.ofDigits_eq_foldr, Nat.add_comm]
      _ = v := Nat.ofDigits_digits 10 v

/-- A table's entry as SERIAL spells it. -/
def entryDigits (e : Nat × Count) : List Nat × List Nat := (decimalDigits e.1, decimalDigits e.2.toNat)

/-- A table's entries as SERIAL spells them, ascending by symbol. -/
def tableDigits (ft : List (Nat × Count)) : List (List Nat × List Nat) := (ftEntries ft).map entryDigits

theorem headerText_eq_spelling (ft : List (Nat × Count)) : headerText ft = headerSpelling (tableDigits ft) := by
  simp [headerText, entriesText_eq, headerSpelling, tableDigits, entryDigits, decimal_eq_numeralText, chOpen, chClose,
    chColon, chComma, Function.comp_def]

theorem headerAccepted_tableDigits (ft : List (Nat × Count)) : headerAccepted (tableDigits ft) := by
  constructor
  · intro e he
    obtain ⟨⟨sym, c⟩, hmem, rfl⟩ := List.mem_map.1 he
    have hsym : sym < 257 := ((mem_ftEntries ft sym c).1 hmem).1
    have hcount := c.isLt
    refine ⟨isNumeral_decimalDigits _, isNumeral_decimalDigits _, ?_, ?_⟩
    · simp only [entryDigits, numeralValue_decimalDigits]
      omega
    · simp only [entryDigits, numeralValue_decimalDigits]
      omega
  · have hsymbols : (tableDigits ft).map (fun e => numeralValue e.1) = (ftEntries ft).map (·.1) := by
      simp [tableDigits, entryDigits, numeralValue_decimalDigits, Function.comp_def]
    rw [hsymbols, List.Nodup, List.pairwise_map]
    exact (ftEntries_pairwise ft).imp Nat.ne_of_lt

theorem tableOfHeader_tableDigits {ft : List (Nat × Count)} (h : Table.wf ft = true) :
    tableOfHeader (tableDigits ft) ft := by
  refine ⟨h, fun sym c => ?_⟩
  rw [tableDigits, ftEntries_of_wf h, ← Table.mem_iff_get h]
  simp [entryDigits, numeralValue_decimalDigits]

/-- A header has one table. -/
theorem tableOfHeader_unique {es : List (List Nat × List Nat)} {ft ft' : List (Nat × Count)} (h : tableOfHeader es ft)
    (h' : tableOfHeader es ft') : ft = ft' :=
  Table.ext h.1 h'.1 fun sym => Option.ext fun c => (h.2 sym c).trans (h'.2 sym c).symm

/-- Settles O28: SERIAL's text spells a header of the grammar, PARSE accepts it, and the table it describes is the one
SERIAL wrote. -/
theorem parseOfSerialIsIdentity : Obligations.ParseOfSerialIsIdentity := by
  intro s t rest hwf hn he
  cases (exec_serial_of_flushed hn).symm.trans he
  simp only [headerText_eq_spelling, List.drop_left, List.length_append, Nat.add_sub_cancel_left]
  obtain ⟨ft, htable, hparse⟩ := parseAcceptsHeader (attachIn _ (headerSpelling (tableDigits s.ft) ++ rest)) _ rest
    (headerAccepted_tableDigits s.ft) rfl
  rw [hparse, tableOfHeader_unique htable (tableOfHeader_tableDigits hwf), attachIn_inPos, Nat.zero_add]

/-! ### The frame of the stream commands -/

/-- The three tables are the same. -/
structure State.SameTables (s t : State) : Prop where
  ft : t.ft = s.ft
  nodes : t.nodes = s.nodes
  root : t.root = s.root
  codes : t.codes = s.codes

namespace State.SameTables

variable {s t u : State}

theorem refl (s : State) : s.SameTables s := ⟨rfl, rfl, rfl, rfl⟩

theorem trans (h : s.SameTables t) (h' : t.SameTables u) : s.SameTables u :=
  ⟨h'.ft.trans h.ft, h'.nodes.trans h.nodes, h'.root.trans h.root, h'.codes.trans h.codes⟩

theorem advanceBit (s : State) : s.SameTables (advanceBit s) := ⟨by simp, by simp, by simp, by simp⟩

theorem inAlign (s : State) : s.SameTables (inAlign s) := ⟨by simp, by simp, by simp, by simp⟩

theorem outByte (s : State) (b : Byte) : s.SameTables (outByte s b) := ⟨by simp, by simp, by simp, by simp⟩

theorem outBytes (s : State) (bs : List Byte) : s.SameTables (outBytes s bs) := ⟨by simp, by simp, by simp, by simp⟩

end State.SameTables

theorem encodeBody_sameTables {s u : State} {r : ResultCode} (h : encodeBody s = .done u r) : s.SameTables u := by
  obtain ⟨p, bits, q, -, he⟩ := encodeBody_eq_flushed s
  cases he.symm.trans h
  exact ⟨by simp, by simp, by simp, by simp⟩

/-- DECODE's loop writes no table, on any tree. -/
theorem decodeLoop_sameTables (n : Nat) : ∀ {cur : Handle} {s u : State} {r : ResultCode},
    decodeLoop n cur s = .done u r → s.SameTables u := by
  induction n with
  | zero =>
    rintro cur s u r ⟨⟩
    exact .inAlign s
  | succ n ih =>
    intro cur s u r h
    have hbit : s.SameTables (advanceBit s) := .advanceBit s
    rcases decodeLoop_succ_cases n cur s with he | he | ⟨f, he⟩ | he | ⟨hd, b, he⟩ | ⟨hd, he⟩
    · cases he.symm.trans h
      exact .inAlign s
    · cases he.symm.trans h
      exact hbit.trans (.inAlign _)
    · cases he.symm.trans h
    · cases he.symm.trans h
      exact hbit.trans (.inAlign _)
    · exact (hbit.trans (.outByte _ b)).trans (ih (he.symm.trans h))
    · exact hbit.trans (ih (he.symm.trans h))

theorem decodeBody_sameTables {s u : State} {r : ResultCode} (h : decodeBody s = .done u r) : s.SameTables u := by
  by_cases hroot : s.root = Config.nil
  · cases (decodeBody_of_nil hroot).symm.trans h
    exact .refl s
  · exact decodeLoop_sameTables _ ((decodeBody_of_root hroot).symm.trans h)

/-- SERIAL, ENCODE, DECODE and REWIND write no table. -/
theorem exec_sameTables {i : Instr} {s t : State} (hi : i ∈ [Instr.serial, .encode, .decode, .rewind])
    (h : exec i s = .next t) : s.SameTables t := by
  obtain ⟨u, r, hbody, rfl⟩ := exec_next h
  suffices hu : s.SameTables u from hu.trans ⟨rfl, rfl, rfl, rfl⟩
  cases i with
  | serial =>
    cases hbody
    exact .outBytes s _
  | encode => exact encodeBody_sameTables hbody
  | decode => exact decodeBody_sameTables hbody
  | rewind =>
    cases hbody
    exact ⟨rfl, rfl, rfl, rfl⟩
  | freq | build | codes | parse | compress | decompress | release | reserved0 | reservedC | reservedD | reservedE
  | reservedF => simp at hi

/-- FREQ and PARSE write the tables and move the cursor by whole bytes, whether they fail or not. -/
theorem exec_freq_parse_frame {i : Instr} {s t : State} (hi : i = .freq ∨ i = .parse) (h : exec i s = .next t) :
    ∃ ft p r, t = { s with ft := ft, nodes := [], root := Config.nil, codes := [], inPos := p, err := r,
                           issued := none } := by
  rcases hi with rfl | rfl
  · rcases freqBody_spec s with ⟨-, ft, -, he⟩ | ⟨k, b, -, -, -, he⟩
    · cases h.symm.trans (exec_freq_of_done he)
      exact ⟨_, _, _, rfl⟩
    · cases h.symm.trans (exec_freq_of_done he)
      exact ⟨_, _, _, rfl⟩
  · rcases hread : parseText .opening [] (unread s) with ⟨_ | ft, k⟩
    · cases h.symm.trans (exec_parse_of_failed hread)
      exact ⟨_, _, _, rfl⟩
    · cases h.symm.trans (exec_parse_of_accepted hread)
      exact ⟨_, _, _, rfl⟩

/-- Settles O50: the frames of the six commands; that none writes `IN` is O48. -/
theorem streamCommandsLeaveTables : Obligations.StreamCommandsLeaveTables := by
  constructor
  · intro i s t hi he
    obtain ⟨hft, hnodes, hroot, hcodes⟩ := exec_sameTables hi he
    obtain ⟨-, hinput, -, -⟩ := outputOnlyGrows i s t he
    refine ⟨hft, hnodes, hroot, hcodes, hinput, ?_⟩
    rintro rfl
    cases (exec_serial s).symm.trans he
    simp
  · intro i s t hi he
    cases i with
    | freq | parse =>
      obtain ⟨ft, p, r, rfl⟩ := exec_freq_parse_frame (by simp) he
      simp [Config.nil]
    | rewind =>
      cases he
      simp
    | build | codes | serial | encode | decode | compress | decompress | release | reserved0 | reservedC | reservedD
    | reservedE | reservedF => simp at hi

end Sys2Proof.Machine

/-!
PROOFS. ENCODE and DECODE (44_bitstream_codec.md): ENCODE without a needed codeword, the three ways of DECODE on the tree of
a safe state, and DECODE of what ENCODE appended, whole and cut off.
-/

namespace Sys2Proof.Machine

/-! ### ENCODE -/

/-- ENCODE from what its loop wrote: the bits stand in `OUT` packed and padded (30_encoding.md R99, R100). -/
theorem exec_encode_of_loop {s : State} (hn : s.outN = 0#3) (hacc : s.outAcc = 0#8) {p : Nat} {bits : List Bool}
    {r : ResultCode}
    (hloop : encodeLoop s.input.length (rewindCursor s) = (outFlush (outBits { rewindCursor s with inPos := p } bits), r)) :
    ∃ X, Packs bits X ∧
      exec .encode s = .next { s with inPos := p, inBit := 0#3, out := s.out ++ X, err := r, issued := none } := by
  obtain ⟨X, hX, hflush⟩ := outFlush_outBits { rewindCursor s with inPos := p } hn hacc bits
  refine ⟨X, hX, ?_⟩
  rw [exec_eq_finish, bodyOf, encodeBody, hloop, hflush]
  rfl

/-- Settles O31: ENCODE's loop at the first byte without a codeword, and at the sentinel. -/
theorem encodeUnknownSymbol : Obligations.EncodeUnknownSymbol := by
  intro s hn hacc
  constructor
  · intro k b hk hb hall
    have hloop := encodeLoop_unknown_byte s.input (rewindCursor s) k b (unread_rewind s) hk hb hall
    rw [rewindCursor_inPos, Nat.zero_add] at hloop
    exact exec_encode_of_loop hn hacc hloop
  · intro hall hend
    have hloop := encodeLoop_unknown_sentinel s.input (rewindCursor s) (unread_rewind s) hall hend
    rw [rewindCursor_inPos, Nat.zero_add] at hloop
    exact exec_encode_of_loop hn hacc hloop

/-! ### DECODE -/

theorem exec_decode_of_nil {s : State} (h : s.root = Config.nil) :
    exec .decode s = .next { s with err := .noTree, issued := none } := congrArg finish (decodeBody_of_nil h)

/-- Settles O34: the root is tested before a bit is read. -/
theorem decodeNoTree : Obligations.DecodeNoTree := fun _ => exec_decode_of_nil

/-- From a byte boundary DECODE counts whole bytes from the cursor. -/
theorem decoded_of_aligned {s : State} (h : s.inBit = 0#3) (bs : List Byte) (read : Nat) :
    decoded s bs read = { s with inPos := s.inPos + (read + 7) / 8, out := s.out ++ bs } := by
  have hpos : (bitPos s + read + 7) / 8 = s.inPos + (read + 7) / 8 := by
    rw [bitPos, h, show (0#3).toNat = 0 from rfl]
    omega
  rw [decoded, hpos, ← h]

section
variable {s : State} (h : s.Inv) (hroot : s.root ≠ Config.nil)
include h hroot

/-- DECODE in a safe state with a tree, from what the walk makes of the unread bits. -/
theorem exec_decode_of_bits {bs : List Byte} {read : Nat} {r : ResultCode}
    (hbits : decodeBits s.nodes s.root s.root (unreadBits s) = (bs, read, r)) :
    exec .decode s = .next { s with inPos := s.inPos + (read + 7) / 8, out := s.out ++ bs, err := r, issued := none } := by
  rw [exec_eq_finish, bodyOf, decodeBody_eq (h.treeOk hroot) h.flushed h.cursorOk, hbits, decoded_of_aligned h.aligned]
  rfl

/-- Reading every unread bit takes the cursor to the end of `IN`. -/
theorem exec_decode_of_all_bits {bs : List Byte} {r : ResultCode}
    (hbits : decodeBits s.nodes s.root s.root (unreadBits s) = (bs, (unreadBits s).length, r)) :
    exec .decode s = .next { s with inPos := s.input.length, out := s.out ++ bs, err := r, issued := none } := by
  have hend : s.inPos + ((unreadBits s).length + 7) / 8 = s.input.length := by
    have hcursor := h.cursor
    rw [unreadBits_length, bitsLeft, h.aligned, show (0#3).toNat = 0 from rfl]
    omega
  rw [exec_decode_of_bits h hroot hbits, hend]

end

/-- Settles O32: codewords and then the sentinel's are what `decodeBits` follows. -/
theorem decodeFollowsCodewords : Obligations.DecodeFollowsCodewords := by
  intro s ws w rest h hroot hws hw hunread
  exact exec_decode_of_bits h hroot (hunread ▸ decodeBits_sentinel (h.treeOk hroot) hws hw rest)

/-- Settles O33: the unread bits go one of the three ways of a walk, and each ends as described. -/
theorem decodeCorruptStream : Obligations.DecodeCorruptStream := by
  intro s h hroot
  have htree := h.treeOk hroot
  cases decodeWay htree (ftEntries_wf s.ft) (unreadBits s) with
  | sentinel ws w rest hws hw heq =>
    exact ⟨_, decodeFollowsCodewords s ws w rest h hroot hws hw heq, .inl ⟨ws, w, rest, hws, hw, heq, rfl⟩⟩
  | ranOut ws tail x n hws hpath hnode hinner heq =>
    have hbits := decodeBits_ranOut htree hws hpath hnode hinner
    rw [← heq] at hbits
    exact ⟨_, exec_decode_of_all_bits h hroot hbits,
      .inr ⟨ws, tail, hws, .inl ⟨heq, ⟨x, n, hpath, hnode, hinner⟩, rfl⟩⟩⟩
  | noBranch ws tail hws hsingle heq =>
    have hbits := decodeBits_noBranch htree hws hsingle tail
    rw [← heq] at hbits
    exact ⟨_, exec_decode_of_bits h hroot hbits, .inr ⟨ws, tail, hws, .inr ⟨heq, htree.pair hsingle, rfl⟩⟩⟩

/-- A symbol with a leaf in the tree of a safe state has an entry. -/
theorem State.Inv.ftPresent_of_leafPath {s : State} (h : s.Inv) (hroot : s.root ≠ Config.nil) {w : List Bool} {sym : Nat}
    (hw : leafPath s w sym) : ftPresent s sym = true := by
  have htree := h.treeOk hroot
  rw [ftEntries_of_wf h.table] at htree
  exact Option.isSome_iff_exists.2 (htree.leafFrom_get h.table hw)

/-- Settles O35: DECODE ends with `OK` only at the sentinel's leaf, and a symbol without an entry has none. -/
theorem decodeWithoutSentinelFails : Obligations.DecodeWithoutSentinelFails := by
  intro s h hroot habsent
  obtain ⟨t, ht, hway⟩ := decodeCorruptStream s h hroot
  refine ⟨t, ht, ?_⟩
  rcases hway with ⟨ws, w, rest, -, hw, -, -⟩ | ⟨ws, tail, -, ⟨-, -, rfl⟩ | ⟨-, -, rfl⟩⟩
  · cases habsent.symm.trans (h.ftPresent_of_leafPath hroot hw)
  · rfl
  · rfl

/-! ### What ENCODE appended -/

/-- Bytes with their codewords, as DECODE reads them back. -/
def codedBytes (s : State) (bs : List Byte) : List (List Bool × Byte) := bs.map fun b => (codeword s b.toNat, b)

@[simp] theorem codedBytes_flatMap (s : State) (bs : List Byte) :
    (codedBytes s bs).flatMap (fun e => e.1) = payload s bs := by simp [codedBytes, payload, List.flatMap_map]

@[simp] theorem codedBytes_map (s : State) (bs : List Byte) : (codedBytes s bs).map (fun e => e.2) = bs := by
  rw [codedBytes, List.map_map]
  exact List.map_id bs

/-- `X` is the payload of the input of `s` (44_bitstream_codec.md R193), in codewords that are paths in the tree of `t`. -/
structure PayloadFor (s t : State) (X : List Byte) : Prop where
  packs : Packs (payload s s.input ++ codeword s 256) X
  words : ∀ e ∈ codedBytes s s.input, leafPath t e.1 e.2.toNat
  last : leafPath t (codeword s 256) 256

/-- ENCODE ends with `OK` only where every codeword it needs is there (44_bitstream_codec.md R192). -/
theorem codeLen_ne_zero_of_exec_encode_ok {s t : State} (hn : s.outN = 0#3) (hacc : s.outAcc = 0#8)
    (he : exec .encode s = .next t) (hok : t.err = .ok) :
    (∀ b ∈ s.input, codeLen s b.toNat ≠ 0) ∧ codeLen s 256 ≠ 0 := by
  obtain ⟨hbyte, hsentinel⟩ := encodeUnknownSymbol s hn hacc
  rcases encode_cases s s.input with hall | ⟨k, b, hk, hb, hall⟩ | ⟨hall, hend⟩
  · exact hall
  · obtain ⟨X, -, hX⟩ := hbyte k b hk hb hall
    cases he.symm.trans hX
    cases hok
  · obtain ⟨X, -, hX⟩ := hsentinel hall hend
    cases he.symm.trans hX
    cases hok

/-- A successful ENCODE in a safe state with a code table appends the payload and leaves the tree (R193). -/
theorem payloadFor_of_exec_encode_ok {s t : State} {X : List Byte} (h : s.Inv) (hc : s.codes ≠ [])
    (he : exec .encode s = .next t) (hok : t.err = .ok) (hout : t.out = s.out ++ X) : PayloadFor s t X := by
  obtain ⟨hall, hend⟩ := codeLen_ne_zero_of_exec_encode_ok h.flushed h.accumulator he hok
  have hpath : ∀ sym, codeLen s sym ≠ 0 → leafPath s (codeword s sym) sym := fun sym hlen =>
    (h.codeLen_pos_iff hc sym).1 (Nat.one_le_iff_ne_zero.2 hlen)
  obtain ⟨Y, hY, hencode⟩ := encodeAppendsPayload s h.flushed h.accumulator hall hend
  cases he.symm.trans hencode
  obtain rfl : Y = X := List.append_cancel_left hout
  refine ⟨hY, fun e hmem => ?_, hpath 256 hend⟩
  obtain ⟨b, hb, rfl⟩ := List.mem_map.1 hmem
  exact hpath b.toNat (hall b hb)

theorem State.Inv.attachIn {s : State} (h : s.Inv) (bytes : List Byte) : (attachIn s bytes).Inv :=
  h.hostWhenIdle (.attachIn bytes)

@[simp] theorem unreadBits_attachIn (s : State) (bytes : List Byte) : unreadBits (attachIn s bytes) = streamBits bytes :=
  rfl

theorem root_ne_nil_of_exec_encode {s t : State} (h : s.Inv) (hc : s.codes ≠ []) (he : exec .encode s = .next t) :
    t.root ≠ Config.nil := by
  rw [(exec_sameTables (by simp) he).root]
  exact h.root_ne_nil_of_codes hc

/-- Settles O37: the appended bytes are the codewords of the input and of the sentinel, then padding, and DECODE follows
them. -/
theorem decodeOfEncodeIsIdentity : Obligations.DecodeOfEncodeIsIdentity := by
  intro s t X Z h hc he hok hout
  obtain ⟨hpacks, hwords, hlast⟩ := payloadFor_of_exec_encode_ok h hc he hok hout
  obtain ⟨pad, hpad⟩ := hpacks.streamBits_eq
  have hroot := root_ne_nil_of_exec_encode h hc he
  have hunread : unreadBits (attachIn t (X ++ Z)) =
      (codedBytes s s.input).flatMap (fun e => e.1) ++ codeword s 256 ++ (pad ++ streamBits Z) := by
    rw [unreadBits_attachIn, streamBits_append, hpad, codedBytes_flatMap, List.append_assoc]
  have hdecode := decodeFollowsCodewords (attachIn t (X ++ Z)) (codedBytes s s.input) _ _
    ((exec_keeps_inv h he).attachIn _) hroot hwords hlast hunread
  rw [codedBytes_flatMap, codedBytes_map, ← hpacks.1, attachIn_inPos, Nat.zero_add] at hdecode
  exact hdecode

/-! ### A payload cut off -/

/-- Fewer bytes than a bit string packs into hold a proper beginning of it. -/
theorem Packs.streamBits_take {P : List Bool} {X : List Byte} (h : Packs P X) {k : Nat} (hk : k < X.length) :
    ∃ more, streamBits (X.take k) ++ more = P ∧ more ≠ [] := by
  obtain ⟨pad, hpad⟩ := h.streamBits_eq
  have hlength : (streamBits (X.take k)).length < P.length := by
    have hbytes := h.1
    rw [streamBits_length, List.length_take]
    omega
  have htake : streamBits (X.take k) <+: P ++ pad :=
    ⟨streamBits (X.drop k), by rw [← streamBits_append, List.take_append_drop, hpad]⟩
  obtain ⟨more, hmore⟩ := List.prefix_of_prefix_length_le htake (List.prefix_append P pad) hlength.le
  refine ⟨more, hmore, ?_⟩
  rintro rfl
  rw [← hmore, List.append_nil] at hlength
  exact lt_irrefl _ hlength

section
variable {es : List (Nat × Count)} {nodes : List Node} {root : Handle} (h : TreeOk es nodes root)
  {ws ws' : List (List Bool × Byte)} {w' : List Bool} (hws : ∀ e ∈ ws, leafFrom nodes root e.1 e.2.toNat)
  (hws' : ∀ e ∈ ws', leafFrom nodes root e.1 e.2.toNat) (hw' : leafFrom nodes root w' 256)
include h hws hws' hw'

/-- Codewords at the beginning of a coded byte string are those of its first bytes: both readings are what `decodeBits`
makes of the bits. -/
theorem bytes_prefix_of_coded {more : List Bool}
    (heq : ws.flatMap (fun e => e.1) ++ more = ws'.flatMap (fun e => e.1) ++ w') :
    ws.map (fun e => e.2) <+: ws'.map (fun e => e.2) := by
  have hread := decodeBits_sentinel h hws' hw' []
  rw [List.append_nil, ← heq, decodeBits_words h more ws hws] at hread
  exact ⟨_, congrArg Prod.fst hread⟩

/-- A coded byte string ends with its first sentinel's codeword. -/
theorem nothing_after_sentinel {w more : List Bool} (hw : leafFrom nodes root w 256)
    (heq : ws.flatMap (fun e => e.1) ++ w ++ more = ws'.flatMap (fun e => e.1) ++ w') : more = [] := by
  have hread := decodeBits_sentinel h hws' hw' []
  rw [List.append_nil, ← heq, decodeBits_sentinel h hws hw more] at hread
  have hlength := congrArg (fun r => r.2.1) hread
  simpa using hlength

end

/-- Settles O36: fewer bytes than the payload's hold a proper beginning of its bits, whose reading ends before the
sentinel's codeword. -/
theorem truncatedPayloadIsDetected : Obligations.TruncatedPayloadIsDetected := by
  intro s t X k h hc he hok hout hk
  obtain ⟨hpacks, hwords, hlast⟩ := payloadFor_of_exec_encode_ok h hc he hok hout
  have ht := exec_keeps_inv h he
  have hroot := root_ne_nil_of_exec_encode h hc he
  have htree := ht.treeOk hroot
  obtain ⟨more, hmore, hne⟩ := hpacks.streamBits_take hk
  rw [← codedBytes_flatMap] at hmore
  have hemitted : ∀ {ws : List (List Bool × Byte)} {tail : List Bool}, (∀ e ∈ ws, leafPath t e.1 e.2.toNat) →
      streamBits (X.take k) = ws.flatMap (fun e => e.1) ++ tail →
      ∃ n, ws.map (fun e => e.2) = s.input.take n := by
    intro ws tail hws heq
    rw [heq, List.append_assoc] at hmore
    have hprefix := bytes_prefix_of_coded htree hws hwords hlast hmore
    rw [codedBytes_map] at hprefix
    exact ⟨_, List.prefix_iff_eq_take.1 hprefix⟩
  obtain ⟨v, hv, hway⟩ := decodeCorruptStream (attachIn t (X.take k)) (ht.attachIn _) hroot
  rcases hway with ⟨ws, w, rest, hws, hw, heq, -⟩ | ⟨ws, tail, hws, ⟨heq, -, rfl⟩ | ⟨heq, -, rfl⟩⟩
  · rw [unreadBits_attachIn] at heq
    rw [heq, List.append_assoc] at hmore
    exact absurd (List.append_eq_nil_iff.1 (nothing_after_sentinel htree hws hwords hlast hw hmore)).2 hne
  · obtain ⟨n, hn⟩ := hemitted hws heq
    exact ⟨_, n, hv, rfl, congrArg (t.out ++ ·) hn⟩
  · obtain ⟨n, hn⟩ := hemitted hws heq
    exact ⟨_, n, hv, rfl, congrArg (t.out ++ ·) hn⟩

end Sys2Proof.Machine

/-!
PROOFS. The composites and housekeeping commands (45_composite_and_control.md): REWIND and RELEASE; what COMPRESS appends,
and how it fails; what DECOMPRESS reads, and that it releases its tables on every path; and `decompress(compress(b)) == b`.
-/

namespace Sys2Proof.Machine

/-! ### REWIND and RELEASE -/

/-- Settles O45: the cursor is all REWIND writes. -/
theorem rewindResult : Obligations.RewindResult := fun _ => rfl

/-- Settles O46: the three tables are all RELEASE writes. -/
theorem releaseResult : Obligations.ReleaseResult := fun _ => rfl

/-! ### Stages in a row -/

theorem runClean_cons_of_exec {i : Instr} {s t : State} (h : exec i s = .next t) (hok : t.err = .ok) (is : List Instr) :
    runClean (i :: is) s = runClean is t := by simp only [runClean, h, if_pos hok]

/-- The last stage of a composite ends it, well or not: its state is released and its result stays. -/
theorem finish_releasing_of_last {before : List Instr} {j : Instr} {s t u : State} (hclean : runClean before s = some t)
    (he : exec j t = .next u) : finish (runStages (before ++ [j]) s).releasing = .next (release u) := by
  obtain ⟨v, hv, htv⟩ := runStages_of_runClean before hclean
  rw [← exec_complete j t .ok, htv, exec_complete] at he
  obtain ⟨w, r, hbody, rfl⟩ := exec_next he
  have hlast : runStages [j] v = .done w r := (andThen_finished (bodyOf j v)).trans hbody
  rw [runStages_append, hv, andThen_ok, hlast]
  rfl

/-! ### The tree and the codewords of a table -/

theorem tableOfBytes_get_of_mem {bs : List Byte} {ft : List (Nat × Count)} (h : tableOfBytes bs ft) {b : Byte}
    (hb : b ∈ bs) : ∃ c, Table.get ft b.toNat = some c := by
  obtain ⟨-, -, hbyte⟩ := h
  have hcount : bs.count b ≠ 0 := (List.count_pos_iff.2 hb).ne'
  exact ⟨_, (hbyte b).trans (if_neg hcount)⟩

/-- A path to a leaf is no empty codeword: the root is an internal node (41_tree_builder.md R143, R145). -/
theorem length_ne_zero_of_leafFrom {ft : List (Nat × Count)} {nodes : List Node} {root : Handle}
    (hbuild : buildTree (ftEntries ft) = some (nodes, root)) {w : List Bool} {sym : Nat}
    (hw : leafFrom nodes root w sym) : w.length ≠ 0 :=
  Nat.one_le_iff_ne_zero.1 ((buildTree_ok (ftEntries_length_le ft) hbuild).leafFrom_length (ftEntries_wf ft) hw).1

/-- The table of a byte sequence has a tree, and the tree a code table: it has the sentinel's entry. -/
theorem tableOfBytes_tree {bs : List Byte} {ft : List (Nat × Count)} (h : tableOfBytes bs ft) :
    ∃ nodes root cs, buildTree (ftEntries ft) = some (nodes, root) ∧ deriveCodes nodes root = .ok cs := by
  have hwf := h.1
  have hne : ftEntries ft ≠ [] := by
    rw [ftEntries_of_wf hwf]
    exact List.ne_nil_of_length_pos (tableOfBytes_length_pos h)
  have hlength := ftEntries_length_le ft
  obtain ⟨⟨nodes, root⟩, hbuild⟩ := Option.ne_none_iff_exists'.1 (mt (buildTree_eq_none hlength).1 hne)
  obtain ⟨cs, hcodes, -⟩ := (buildTree_ok hlength hbuild).deriveCodes_spec (ftEntries_wf ft)
  exact ⟨nodes, root, cs, hbuild, hcodes⟩

section
variable {bs : List Byte} {ft : List (Nat × Count)} {nodes : List Node} {root : Handle} {cs : List (Nat × List Bool)}
  (hbuild : buildTree (ftEntries ft) = some (nodes, root)) (hcodes : deriveCodes nodes root = .ok cs)
include hbuild hcodes

/-- The codeword of a symbol with an entry is the path to its leaf (42_code_deriver.md R161, R163). -/
theorem leafFrom_codeword (hwf : Table.wf ft = true) {sym : Nat} {c : Count} (hget : Table.get ft sym = some c) :
    leafFrom nodes root ((Table.get cs sym).getD []) sym := by
  have htree := buildTree_ok (ftEntries_length_le ft) hbuild
  obtain ⟨cs', hcodes', -, hpaths⟩ := htree.deriveCodes_spec (ftEntries_wf ft)
  obtain rfl : cs = cs' := Except.ok.inj (hcodes.symm.trans hcodes')
  rw [ftEntries_of_wf hwf] at htree
  obtain ⟨w, hw⟩ := htree.leafFrom_exists hwf hget
  rw [(hpaths sym w).2 hw]
  exact hw

theorem leafFrom_codeword_of_mem (htable : tableOfBytes bs ft) {b : Byte} (hb : b ∈ bs) :
    leafFrom nodes root ((Table.get cs b.toNat).getD []) b.toNat := by
  obtain ⟨c, hget⟩ := tableOfBytes_get_of_mem htable hb
  exact leafFrom_codeword hbuild hcodes htable.1 hget

theorem leafFrom_codeword_sentinel (htable : tableOfBytes bs ft) :
    leafFrom nodes root ((Table.get cs 256).getD []) 256 := by
  obtain ⟨hwf, hsentinel, -⟩ := htable
  exact leafFrom_codeword hbuild hcodes hwf hsentinel

end

/-! ### COMPRESS -/

theorem exec_compress (s : State) :
    exec .compress s = finish (runStages [.rewind, .freq, .build, .codes, .serial, .encode] s).releasing := by
  rw [← compressStages_eq]
  rfl

/-- The state in which COMPRESS starts its last stage, ENCODE: the tables made, the header written. -/
def headerWritten (s : State) (ft : List (Nat × Count)) (nodes : List Node) (root : Handle)
    (cs : List (Nat × List Bool)) : State :=
  { s with ft := ft, nodes := nodes, root := root, codes := cs, inPos := s.input.length, inBit := 0#3,
           out := s.out ++ canonicalHeader ft, err := .ok, issued := none }

/-- BUILD, CODES and SERIAL in a row, from a table with a tree. -/
theorem runClean_build_codes_serial {t : State} {nodes : List Node} {root : Handle} {cs : List (Nat × List Bool)}
    (hn : t.outN = 0#3) (hbuild : buildTree (ftEntries t.ft) = some (nodes, root))
    (hcodes : deriveCodes nodes root = .ok cs) :
    runClean [.build, .codes, .serial] t =
      some { t with nodes := nodes, root := root, codes := cs, out := t.out ++ canonicalHeader t.ft, err := .ok,
                    issued := none } := by
  have hroot := (buildTree_ok (ftEntries_length_le t.ft) hbuild).root_ne_nil
  calc runClean [.build, .codes, .serial] t
      = runClean [.codes, .serial] { t with nodes := nodes, root := root, codes := [], err := .ok, issued := none } :=
        runClean_cons_of_exec (exec_build_of_some hbuild) rfl _
    _ = runClean [.serial] { t with nodes := nodes, root := root, codes := cs, err := .ok, issued := none } :=
        runClean_cons_of_exec (exec_codes_of_ok hroot hcodes) rfl _
    _ = _ := runClean_cons_of_exec ((serialAppendsHeader _).1 (by exact hn)) rfl _

/-- The stages of COMPRESS before ENCODE, each by what its command does. -/
theorem runClean_headerWritten {s : State} (hn : s.outN = 0#3) (hfits : countsFit s.input) :
    ∃ ft nodes root cs, tableOfBytes s.input ft ∧ buildTree (ftEntries ft) = some (nodes, root) ∧
      deriveCodes nodes root = .ok cs ∧
      runClean [.rewind, .freq, .build, .codes, .serial] s = some (headerWritten s ft nodes root cs) := by
  obtain ⟨ft, htable, -, -, hfreq⟩ := freqCountsUnreadBytes
    { s with inPos := 0, inBit := 0#3, err := .ok, issued := none } (Nat.zero_le _) hfits
  obtain ⟨nodes, root, cs, hbuild, hcodes⟩ := tableOfBytes_tree htable
  refine ⟨ft, nodes, root, cs, htable, hbuild, hcodes, ?_⟩
  rw [runClean_cons_of_exec (rewindResult s) rfl, runClean_cons_of_exec hfreq rfl]
  exact runClean_build_codes_serial hn hbuild hcodes

/-- Settles O39: the stages before ENCODE write the header, and ENCODE finds every codeword it needs. -/
theorem compressAppendsStream : Obligations.CompressAppendsStream := by
  intro s hn hacc hfits
  obtain ⟨ft, nodes, root, cs, htable, hbuild, hcodes, hclean⟩ := runClean_headerWritten hn hfits
  have hbytes : ∀ b ∈ s.input, codeLen (headerWritten s ft nodes root cs) b.toNat ≠ 0 := fun b hb =>
    length_ne_zero_of_leafFrom hbuild (leafFrom_codeword_of_mem hbuild hcodes htable hb)
  have hsentinel : codeLen (headerWritten s ft nodes root cs) 256 ≠ 0 :=
    length_ne_zero_of_leafFrom hbuild (leafFrom_codeword_sentinel hbuild hcodes htable)
  obtain ⟨X, hX, hencode⟩ := encodeAppendsPayload (headerWritten s ft nodes root cs) hn hacc hbytes hsentinel
  exact ⟨ft, nodes, root, cs, X, htable, hbuild, hcodes, hX,
    (exec_compress s).trans (finish_releasing_of_last hclean hencode)⟩

/-- Settles O40: FREQ is the stage that fails, from the beginning of `IN`. -/
theorem compressCountOverflow : Obligations.CompressCountOverflow := by
  intro s hoverflow
  obtain ⟨k, b, hk, hcount, hfits, hfreq⟩ := freqCountOverflow
    { s with inPos := 0, inBit := 0#3, err := .ok, issued := none } hoverflow
  have hclean : runClean [.rewind] s = some { s with inPos := 0, inBit := 0#3, err := .ok, issued := none } :=
    runClean_cons_of_exec (rewindResult s) rfl []
  have hcompress := (compositesEqualPrimitives .compress _ (.inl ⟨rfl, rfl⟩)).2 [.rewind]
    [.build, .codes, .serial, .encode, .release] .freq s _ _ rfl hclean hfreq (by simp)
  rw [Nat.zero_add] at hcompress
  exact ⟨k, b, hk, hcount, hfits, hcompress⟩

/-- Settles O41: the table of `IN` fixes tree, codewords and header, and a bit string packs in one way; with a count that
does not fit nothing is appended. -/
theorem compressDependsOnInputAlone : Obligations.CompressDependsOnInputAlone := by
  intro s s' t t' hinput hn hacc hn' hacc' he he'
  by_cases hfits : countsFit s.input
  · obtain ⟨ft, nodes, root, cs, X, htable, hbuild, hcodes, hX, hs⟩ := compressAppendsStream s hn hacc hfits
    obtain ⟨ft', nodes', root', cs', X', htable', hbuild', hcodes', hX', hs'⟩ :=
      compressAppendsStream s' hn' hacc' (hinput ▸ hfits)
    rw [← hinput] at htable' hX'
    obtain rfl := tableOfBytes_unique htable htable'
    cases hbuild.symm.trans hbuild'
    cases hcodes.symm.trans hcodes'
    obtain rfl := hX.unique hX'
    cases he.symm.trans hs
    cases he'.symm.trans hs'
    simp
  · have hover : ∃ b : Byte, 4294967295 < s.input.count b := by simpa [countsFit] using hfits
    obtain ⟨k, b, -, -, -, hs⟩ := compressCountOverflow s hover
    obtain ⟨k', b', -, -, -, hs'⟩ := compressCountOverflow s' (hinput ▸ hover)
    cases he.symm.trans hs
    cases he'.symm.trans hs'
    simp

/-! ### DECOMPRESS -/

theorem exec_decompress (s : State) :
    exec .decompress s = finish (runStages [.parse, .build, .decode] s).releasing := by
  rw [← decompressStages_eq]
  rfl

theorem exec_decompress_of_parse_fails {s t : State} (hparse : exec .parse s = .next t) (herr : t.err ≠ .ok) :
    exec .decompress s = .next (release t) :=
  (compositesEqualPrimitives .decompress _ (.inr ⟨rfl, rfl⟩)).2 [] [.build, .decode, .release] .parse s s t rfl rfl
    hparse herr

/-- The state in which DECOMPRESS starts its last stage, DECODE: a header of `k` bytes read, its table's tree built. -/
def treeBuilt (s : State) (k : Nat) (ft : List (Nat × Count)) (nodes : List Node) (root : Handle) : State :=
  { s with ft := ft, nodes := nodes, root := root, codes := [], inPos := s.inPos + k, err := .ok, issued := none }

section
variable {s v : State} {k : Nat} {ft : List (Nat × Count)} {nodes : List Node} {root : Handle}
  (hparse : exec .parse s = .next { s with ft := ft, nodes := [], root := 1023#10, codes := [], inPos := s.inPos + k,
                                           err := .ok, issued := none })
  (hbuild : buildTree (ftEntries ft) = some (nodes, root))
include hparse hbuild

theorem runClean_treeBuilt : runClean [.parse, .build] s = some (treeBuilt s k ft nodes root) :=
  (runClean_cons_of_exec hparse rfl _).trans (runClean_cons_of_exec (exec_build_of_some hbuild) rfl [])

theorem State.Inv.treeBuilt (h : s.Inv) : (treeBuilt s k ft nodes root).Inv :=
  exec_keeps_inv (exec_keeps_inv h hparse) (exec_build_of_some hbuild)

/-- DECOMPRESS ends with the result of DECODE where PARSE and BUILD succeeded. -/
theorem exec_decompress_of_decode (hdecode : exec .decode (Machine.treeBuilt s k ft nodes root) = .next v) :
    exec .decompress s = .next (release v) :=
  (exec_decompress s).trans (finish_releasing_of_last (runClean_treeBuilt hparse hbuild) hdecode)

end

/-- From a byte boundary DECODE follows codewords up to the sentinel's in any tree of BUILD, whatever the other registers
hold (44_bitstream_codec.md R194, R197). -/
theorem exec_decode_of_words {es : List (Nat × Count)} {s : State} (htree : TreeOk es s.nodes s.root)
    (haligned : s.inBit = 0#3) (hn : s.outN = 0#3) (hcursor : s.inPos ≤ s.input.length)
    {ws : List (List Bool × Byte)} {w rest : List Bool} (hws : ∀ e ∈ ws, leafFrom s.nodes s.root e.1 e.2.toNat)
    (hw : leafFrom s.nodes s.root w 256) (hunread : unreadBits s = ws.flatMap (fun e => e.1) ++ w ++ rest) :
    exec .decode s = .next { s with inPos := s.inPos + ((ws.flatMap (fun e => e.1) ++ w).length + 7) / 8,
                                    out := s.out ++ ws.map (fun e => e.2), err := .ok, issued := none } := by
  rw [exec_eq_finish, bodyOf, decodeBody_eq htree hn ⟨hcursor, fun hbit => absurd haligned hbit⟩, hunread,
    decodeBits_sentinel htree hws hw rest, decoded_of_aligned haligned]
  rfl

/-- Past the header the unread bytes are those after it. -/
theorem drop_of_unread {s : State} {text Y : List Byte} (h : unread s = text ++ Y) :
    s.input.drop (s.inPos + text.length) = Y := by
  rw [← List.drop_drop, ← unread, h, List.drop_left]

/-- Settles O42: PARSE leaves the header's table, BUILD its tree, and DECODE follows the codewords in it. -/
theorem decompressDecodesStream : Obligations.DecompressDecodesStream := by
  rintro s _ es Y ft nodes root ws w rest haligned hn hcursor haccepted hunread htable hbuild rfl hws hw hbits
  obtain ⟨ft', htable', hparse⟩ := parseAcceptsHeader s es Y haccepted hunread
  obtain rfl := tableOfHeader_unique htable htable'
  have htree := buildTree_ok (ftEntries_length_le ft) hbuild
  have hpast : s.inPos + (headerSpelling es).length ≤ s.input.length := by
    have hlength := congrArg List.length hunread
    rw [unread_length, bytesLeft, List.length_append] at hlength
    omega
  have hunreadBits : unreadBits (treeBuilt s (headerSpelling es).length ft nodes root) = streamBits Y := by
    rw [← drop_of_unread hunread, unreadBits]
    simp [treeBuilt, haligned, unread]
  exact exec_decompress_of_decode hparse hbuild
    (exec_decode_of_words (s := treeBuilt s _ ft nodes root) htree haligned hn hpast hws hw (hunreadBits.trans hbits))

/-- DECODE in a safe state with a tree moves the cursor forward and ends in one of two ways. -/
theorem exec_decode_forward {s t : State} (h : s.Inv) (hroot : s.root ≠ Config.nil) (he : exec .decode s = .next t) :
    s.inPos ≤ t.inPos ∧ (t.err = .ok ∨ t.err = .corruptStream) := by
  obtain ⟨u, hu, hway⟩ := decodeCorruptStream s h hroot
  cases hu.symm.trans he
  rcases hway with ⟨ws, w, rest, -, -, -, rfl⟩ | ⟨ws, tail, -, ⟨-, -, rfl⟩ | ⟨-, -, rfl⟩⟩
  · exact ⟨Nat.le_add_right _ _, .inl rfl⟩
  · exact ⟨h.cursor, .inr rfl⟩
  · exact ⟨Nat.le_add_right _ _, .inr rfl⟩

/-- From a safe state DECOMPRESS releases what the last of its stages to run left: the cursor has moved forward, and the
result is one of 60_exceptions.md R230. -/
theorem exec_decompress_releases {s : State} (h : s.Inv) :
    ∃ u, exec .decompress s = .next (release u) ∧ s.inPos ≤ u.inPos ∧ mayEndWith .decompress u.err = true := by
  rcases hread : parseText .opening [] (unread s) with ⟨_ | ft, k⟩
  · exact ⟨_, exec_decompress_of_parse_fails (exec_parse_of_failed hread) (by simp), Nat.le_add_right _ _, rfl⟩
  have hparse := exec_parse_of_accepted hread
  rcases hb : buildTree (ftEntries ft) with _ | ⟨nodes, root⟩
  · exact ⟨_, exec_decompress_of_build_fails hparse rfl (exec_build_of_none hb) (by simp), Nat.le_add_right _ _, rfl⟩
  have hinv := h.treeBuilt hparse hb
  have hroot : root ≠ Config.nil := (buildTree_ok (ftEntries_length_le ft) hb).root_ne_nil
  obtain ⟨v, hdecode, -⟩ := decodeCorruptStream _ hinv hroot
  obtain ⟨hforward, herr⟩ := exec_decode_forward hinv hroot hdecode
  refine ⟨v, exec_decompress_of_decode hparse hb hdecode, (Nat.le_add_right _ k).trans hforward, ?_⟩
  rcases herr with herr | herr <;> simp [mayEndWith, herr]

theorem exec_issued {i : Instr} {s t : State} (h : exec i s = .next t) : t.issued = none := by
  obtain ⟨u, r, -, rfl⟩ := exec_next h
  rfl

/-- Settles O43: DECOMPRESS ends released on each of its paths, and in a safe state. -/
theorem decompressReleasesOnEveryPath : Obligations.DecompressReleasesOnEveryPath := by
  intro s h
  obtain ⟨u, he, hforward, herr⟩ := exec_decompress_releases h
  obtain ⟨hout, -⟩ := outputOnlyGrows _ _ _ he
  have hinv := exec_keeps_inv h he
  exact ⟨release u, he, rfl, rfl, rfl, rfl, hinv.aligned, hinv.flushed, exec_issued he, hout, hforward, hinv.cursor,
    herr⟩

/-! ### `decompress(compress(b)) == b` -/

theorem canonicalHeader_eq_spelling (ft : List (Nat × Count)) : canonicalHeader ft = headerSpelling (tableDigits ft) := by
  rw [← headerText_eq, headerText_eq_spelling]

section
variable {bs X : List Byte} {ft : List (Nat × Count)} {nodes : List Node} {root : Handle} {cs : List (Nat × List Bool)}
  (htable : tableOfBytes bs ft) (hbuild : buildTree (ftEntries ft) = some (nodes, root))
  (hcodes : deriveCodes nodes root = .ok cs)
include htable hbuild hcodes

/-- The codewords of a byte sequence are paths in the tree of its table, whatever else the state holds. -/
theorem leafFrom_of_mem_codedBytes {s : State} {e : List Bool × Byte} (he : e ∈ codedBytes { s with codes := cs } bs) :
    leafFrom nodes root e.1 e.2.toNat := by
  obtain ⟨b, hb, rfl⟩ := List.mem_map.1 he
  exact leafFrom_codeword_of_mem hbuild hcodes htable hb

/-- DECOMPRESS of what COMPRESS appends for `bs` (30_encoding.md R98, R99), whatever bytes `Z` follow: the header is one of
the grammar, and the payload is codewords of its table's tree up to the sentinel's, then padding. -/
theorem exec_decompress_of_encoded {s : State} {Z : List Byte}
    (hX : Packs (bs.flatMap (fun b => (Table.get cs b.toNat).getD []) ++ (Table.get cs 256).getD []) X)
    (haligned : s.inBit = 0#3) (hn : s.outN = 0#3) (hcursor : s.inPos ≤ s.input.length)
    (hunread : unread s = canonicalHeader ft ++ (X ++ Z)) :
    exec .decompress s =
      .next { s with ft := [], nodes := [], root := 1023#10, codes := [],
                     inPos := s.inPos + (canonicalHeader ft ++ X).length, out := s.out ++ bs, err := .ok,
                     issued := none } := by
  have hpayload : (codedBytes { s with codes := cs } bs).flatMap (fun e => e.1) =
      bs.flatMap fun b => (Table.get cs b.toNat).getD [] := codedBytes_flatMap { s with codes := cs } bs
  obtain ⟨pad, hpad⟩ := hX.streamBits_eq
  have hbits : streamBits (X ++ Z) = (codedBytes { s with codes := cs } bs).flatMap (fun e => e.1) ++
      (Table.get cs 256).getD [] ++ (pad ++ streamBits Z) := by
    rw [streamBits_append, hpad, hpayload, List.append_assoc]
  rw [canonicalHeader_eq_spelling] at hunread ⊢
  have hdecompress := decompressDecodesStream s _ (tableDigits ft) (X ++ Z) ft nodes root _ _ _ haligned hn hcursor
    (headerAccepted_tableDigits ft) hunread (tableOfHeader_tableDigits htable.1) hbuild rfl
    (fun _ => leafFrom_of_mem_codedBytes htable hbuild hcodes) (leafFrom_codeword_sentinel hbuild hcodes htable) hbits
  rw [hpayload, ← hX.1, codedBytes_map, Nat.add_assoc, ← List.length_append] at hdecompress
  exact hdecompress

end

/-- Settles O44: what COMPRESS appends to the empty `OUT` is what DECOMPRESS reads back. -/
theorem decompressOfCompressIsIdentity : Obligations.DecompressOfCompressIsIdentity := by
  intro s b Z hn hacc hfits
  obtain ⟨ft, nodes, root, cs, X, htable, hbuild, hcodes, hX, hcompress⟩ :=
    compressAppendsStream (attachOut (attachIn s b)) hn hacc hfits
  refine ⟨_, _, hcompress, rfl, exec_decompress_of_encoded (Z := Z) htable hbuild hcodes hX rfl hn (Nat.zero_le _) ?_, rfl,
    rfl, ?_⟩
  · simp [unread, attachIn, attachOut]
  · simp

end Sys2Proof.Machine

/-!
PROOFS. Errors (60_exceptions.md): the next state of each command that fails, from any state; then which results a command
may complete with (R230), what a failed command leaves (R241), and the reserved opcodes (R237).
-/

namespace Sys2Proof.Machine

/-! ### A primitive that fails -/

section
variable {s t : State}

theorem exec_freq_failed (he : exec .freq s = .next t) (herr : t.err ≠ .ok) :
    ∃ p, t = { s with ft := [], nodes := [], root := Config.nil, codes := [], inPos := p, err := .countOverflow,
                      issued := none } := by
  rcases freqBody_spec s with ⟨-, ft, -, hdone⟩ | ⟨k, b, -, -, -, hdone⟩
  · cases he.symm.trans (exec_freq_of_done hdone)
    exact absurd rfl herr
  · cases he.symm.trans (exec_freq_of_done hdone)
    exact ⟨_, rfl⟩

theorem exec_build_failed (he : exec .build s = .next t) (herr : t.err ≠ .ok) :
    t = { s with nodes := [], root := Config.nil, codes := [], err := .emptyAlphabet, issued := none } := by
  cases hb : buildTree (ftEntries s.ft) with
  | none => exact Host.Outcome.next.inj (he.symm.trans (exec_build_of_none hb))
  | some tree =>
    cases he.symm.trans (exec_build_of_some hb)
    exact absurd rfl herr

theorem exec_codes_failed (he : exec .codes s = .next t) (herr : t.err ≠ .ok) :
    t = { s with codes := [], err := .noTree, issued := none } := by
  by_cases hroot : s.root = Config.nil
  · exact Host.Outcome.next.inj (he.symm.trans (exec_codes_of_nil hroot))
  · cases hd : deriveCodes s.nodes s.root with
    | error f =>
      have hstop : codesBody s = .stop f := by simp [codesBody, hroot, hd]
      cases he.symm.trans (congrArg finish hstop)
    | ok codes =>
      cases he.symm.trans (exec_codes_of_ok hroot hd)
      exact absurd rfl herr

theorem exec_parse_failed (he : exec .parse s = .next t) (herr : t.err ≠ .ok) :
    ∃ p, t = { s with ft := [], nodes := [], root := Config.nil, codes := [], inPos := p, err := .malformedHeader,
                      issued := none } := by
  rcases hread : parseText .opening [] (unread s) with ⟨_ | ft, k⟩
  · cases he.symm.trans (exec_parse_of_failed hread)
    exact ⟨_, rfl⟩
  · cases he.symm.trans (exec_parse_of_accepted hread)
    exact absurd rfl herr

/-- ENCODE does not fail where every byte of `IN` and the sentinel have a codeword, whatever bits are pending. -/
theorem exec_encode_ok (hall : ∀ b ∈ s.input, codeLen s b.toNat ≠ 0) (hend : codeLen s 256 ≠ 0) :
    ∃ u, exec .encode s = .next u ∧ u.err = .ok :=
  ⟨_, congrArg (finish ∘ Stage.ofResult) (encodeLoop_ok s.input (rewindCursor s) (unread_rewind s) hall hend), rfl⟩

theorem exec_encode_failed (he : exec .encode s = .next t) (herr : t.err ≠ .ok) : t.err = .unknownSymbol := by
  have hunread := unread_rewind s
  rcases encode_cases s s.input with ⟨hall, hend⟩ | ⟨k, b, hk, hb, hall⟩ | ⟨hall, hend⟩
  · obtain ⟨u, hu, hok⟩ := exec_encode_ok hall hend
    cases he.symm.trans hu
    exact absurd hok herr
  · have hloop := encodeLoop_unknown_byte s.input (rewindCursor s) k b hunread hk hb hall
    cases he.symm.trans (congrArg (finish ∘ Stage.ofResult) hloop)
    rfl
  · have hloop := encodeLoop_unknown_sentinel s.input (rewindCursor s) hunread hall hend
    cases he.symm.trans (congrArg (finish ∘ Stage.ofResult) hloop)
    rfl

/-- DECODE's loop has one error, on any tree (44_bitstream_codec.md R196). -/
theorem decodeLoop_failed (n : Nat) : ∀ {cur : Handle} {s u : State} {r : ResultCode},
    decodeLoop n cur s = .done u r → r ≠ .ok → r = .corruptStream := by
  induction n with
  | zero =>
    rintro cur s u r ⟨⟩ -
    rfl
  | succ n ih =>
    intro cur s u r h hr
    rcases decodeLoop_succ_cases n cur s with he | he | ⟨f, he⟩ | he | ⟨hd, b, he⟩ | ⟨hd, he⟩
    · cases he.symm.trans h
      rfl
    · cases he.symm.trans h
      rfl
    · cases he.symm.trans h
    · cases he.symm.trans h
      exact absurd rfl hr
    · exact ih (he.symm.trans h) hr
    · exact ih (he.symm.trans h) hr

theorem decodeBody_failed {u : State} {r : ResultCode} (h : decodeBody s = .done u r) (hr : r ≠ .ok) :
    (s.root = Config.nil ∧ r = .noTree) ∨ (s.root ≠ Config.nil ∧ r = .corruptStream) := by
  by_cases hroot : s.root = Config.nil
  · cases (decodeBody_of_nil hroot).symm.trans h
    exact .inl ⟨hroot, rfl⟩
  · exact .inr ⟨hroot, decodeLoop_failed _ ((decodeBody_of_root hroot).symm.trans h) hr⟩

/-! ### A composite that fails -/

/-- COMPRESS whose counts fit does not fail, whatever bits were pending: the table of `IN` has a tree, and every symbol to
be encoded a leaf in it (45_composite_and_control.md R210, R219). -/
theorem exec_compress_ok (hfits : countsFit s.input) : ∃ u, exec .compress s = .next u ∧ u.err = .ok := by
  obtain ⟨ft, htable, -, -, hfreq⟩ := freqCountsUnreadBytes
    { s with inPos := 0, inBit := 0#3, err := .ok, issued := none } (Nat.zero_le _) hfits
  obtain ⟨nodes, root, cs, hbuild, hcodes⟩ := tableOfBytes_tree htable
  have hroot := (buildTree_ok (ftEntries_length_le ft) hbuild).root_ne_nil
  obtain ⟨v, hclean, hinput, hcs⟩ : ∃ v, runClean [.rewind, .freq, .build, .codes, .serial] s = some v ∧
      v.input = s.input ∧ v.codes = cs := by
    rw [runClean_cons_of_exec (rewindResult s) rfl, runClean_cons_of_exec hfreq rfl,
      runClean_cons_of_exec (exec_build_of_some hbuild) rfl, runClean_cons_of_exec (exec_codes_of_ok hroot hcodes) rfl,
      runClean_cons_of_exec (exec_serial _) rfl]
    exact ⟨_, rfl, by simp, by simp⟩
  subst hcs
  obtain ⟨u, hencode, hok⟩ := exec_encode_ok (s := v)
    (fun b hb => length_ne_zero_of_leafFrom hbuild (leafFrom_codeword_of_mem hbuild hcodes htable (hinput ▸ hb)))
    (length_ne_zero_of_leafFrom hbuild (leafFrom_codeword_sentinel hbuild hcodes htable))
  exact ⟨_, (exec_compress s).trans (finish_releasing_of_last hclean hencode), hok⟩

theorem exec_compress_failed (he : exec .compress s = .next t) (herr : t.err ≠ .ok) :
    ∃ p, t = { s with ft := [], nodes := [], root := Config.nil, codes := [], inPos := p, inBit := 0#3,
                      err := .countOverflow, issued := none } := by
  by_cases hfits : countsFit s.input
  · obtain ⟨u, hu, hok⟩ := exec_compress_ok hfits
    cases he.symm.trans hu
    exact absurd hok herr
  · obtain ⟨k, b, -, -, -, hoverflow⟩ := compressCountOverflow s (by simpa [countsFit] using hfits)
    exact ⟨k + 1, Host.Outcome.next.inj (he.symm.trans hoverflow)⟩

theorem root_ne_nil_of_buildBody {u : State} (h : buildBody s = .done u .ok) : u.root ≠ Config.nil := by
  cases hb : buildTree (ftEntries s.ft) with
  | none => cases (buildBody_of_none hb).symm.trans h
  | some tree =>
    cases (buildBody_of_some hb).symm.trans h
    exact (buildTree_ok (ftEntries_length_le s.ft) hb).root_ne_nil

/-- DECOMPRESS has the errors of its stages but `NoTree`: BUILD without an error leaves a tree for DECODE
(45_composite_and_control.md R213). -/
theorem decompressStages_failed {u : State} {r : ResultCode} (h : decompressStages s = .done u r) (hr : r ≠ .ok) :
    r = .malformedHeader ∨ r = .emptyAlphabet ∨ r = .corruptStream := by
  rcases andThen_done h with ⟨v, hbuilt, hdecode⟩ | ⟨hbuilt, -⟩
  · have hroot : v.root ≠ Config.nil := by
      rcases andThen_done hbuilt with ⟨w, -, hbuild⟩ | ⟨-, hne⟩
      · exact root_ne_nil_of_buildBody hbuild
      · exact absurd rfl hne
    rcases decodeBody_failed hdecode hr with ⟨hnil, -⟩ | ⟨-, hcorrupt⟩
    · exact absurd hnil hroot
    · exact .inr (.inr hcorrupt)
  · rcases andThen_done hbuilt with ⟨w, -, hbuild⟩ | ⟨hparse, -⟩
    · exact .inr (.inl (congrArg State.err (exec_build_failed (congrArg finish hbuild) hr)))
    · obtain ⟨p, hp⟩ := exec_parse_failed (congrArg finish hparse) hr
      exact .inl (congrArg State.err hp)

theorem exec_decompress_stages (he : exec .decompress s = .next t) :
    ∃ u r, decompressStages s = .done u r ∧ t = complete (release u) r := by
  obtain ⟨v, r, hbody, rfl⟩ := exec_next he
  obtain ⟨u, hu, rfl⟩ := releasing_eq_done hbody
  exact ⟨u, r, hu, rfl⟩

end

/-! ### The results of each command -/

/-- Only the reserved opcodes never complete with `OK`. -/
theorem mayEndWith_of_ok {i : Instr} {s t : State} (he : exec i s = .next t) (hok : t.err = .ok) :
    mayEndWith i t.err = true := by
  cases i with
  | reserved0 | reservedC | reservedD | reservedE | reservedF =>
    cases he
    rfl
  | freq | build | codes | serial | parse | encode | decode | compress | decompress | rewind | release =>
    simp [mayEndWith, hok]

theorem mayEndWith_of_failed {i : Instr} {s t : State} (he : exec i s = .next t) (herr : t.err ≠ .ok) :
    mayEndWith i t.err = true := by
  cases i with
  | freq =>
    obtain ⟨p, rfl⟩ := exec_freq_failed he herr
    rfl
  | build =>
    obtain rfl := exec_build_failed he herr
    rfl
  | codes =>
    obtain rfl := exec_codes_failed he herr
    rfl
  | parse =>
    obtain ⟨p, rfl⟩ := exec_parse_failed he herr
    rfl
  | encode => simp [mayEndWith, exec_encode_failed he herr]
  | decode =>
    obtain ⟨u, r, hbody, rfl⟩ := exec_next he
    rcases decodeBody_failed hbody herr with ⟨-, rfl⟩ | ⟨-, rfl⟩ <;> rfl
  | compress =>
    obtain ⟨p, rfl⟩ := exec_compress_failed he herr
    rfl
  | decompress =>
    obtain ⟨u, r, hstages, rfl⟩ := exec_decompress_stages he
    rcases decompressStages_failed hstages herr with rfl | rfl | rfl <;> rfl
  | serial | rewind | release | reserved0 | reservedC | reservedD | reservedE | reservedF =>
    cases he
    rfl

/-- Settles O51: `OK`, or the error the command fails with; every completion ends `busy`. -/
theorem resultsOfEachCommand : Obligations.ResultsOfEachCommand := by
  refine ⟨fun i s t he => ⟨?_, exec_issued he⟩, rfl⟩
  by_cases hok : t.err = .ok
  · exact mayEndWith_of_ok he hok
  · exact mayEndWith_of_failed he hok

/-! ### What a failed command leaves -/

section
variable {i : Instr} {s t : State} (he : exec i s = .next t) (herr : t.err ≠ .ok)
include he herr

theorem tables_cleared_of_failed (hi : i ∈ [Instr.freq, .parse, .compress, .decompress]) :
    t.ft = [] ∧ t.nodes = [] ∧ t.root = 1023#10 ∧ t.codes = [] := by
  cases i with
  | freq =>
    obtain ⟨p, rfl⟩ := exec_freq_failed he herr
    exact ⟨rfl, rfl, rfl, rfl⟩
  | parse =>
    obtain ⟨p, rfl⟩ := exec_parse_failed he herr
    exact ⟨rfl, rfl, rfl, rfl⟩
  | compress =>
    obtain ⟨p, rfl⟩ := exec_compress_failed he herr
    exact ⟨rfl, rfl, rfl, rfl⟩
  | decompress =>
    obtain ⟨u, r, -, rfl⟩ := exec_decompress_stages he
    exact ⟨rfl, rfl, rfl, rfl⟩
  | build | codes | serial | encode | decode | rewind | release | reserved0 | reservedC | reservedD | reservedE
  | reservedF => simp at hi

theorem out_same_of_failed (hi : i ∈ [Instr.freq, .build, .codes, .parse, .compress]) : t.out = s.out := by
  cases i with
  | freq | parse =>
    obtain ⟨-, hout, -⟩ := streamCommandsLeaveTables.2 _ s t (by simp) he
    exact hout
  | build | codes =>
    obtain ⟨-, -, -, hout, -⟩ := tableCommandsLeaveStreams _ s t (by simp) he
    exact hout
  | compress =>
    obtain ⟨p, rfl⟩ := exec_compress_failed he herr
    rfl
  | serial | encode | decode | decompress | rewind | release | reserved0 | reservedC | reservedD | reservedE
  | reservedF => simp at hi

end

/-- Settles O52: the registers of the streams are those of a safe state; the rest is read off the failed command's next
state, or is the frame of the command, failed or not. -/
theorem failedCommandsLeave : Obligations.FailedCommandsLeave := by
  intro i s t h he herr
  have ht := exec_keeps_inv h he
  refine ⟨ht.aligned, ht.flushed, ht.accumulator, tables_cleared_of_failed he herr, ?build, ?codes, fun hi => ?stream,
    out_same_of_failed he herr, fun hi => ?cursor⟩
  case build =>
    rintro rfl
    obtain rfl := exec_build_failed he herr
    exact ⟨rfl, rfl, rfl, rfl⟩
  case codes =>
    rintro rfl
    obtain rfl := exec_codes_failed he herr
    exact ⟨rfl, rfl, rfl, rfl⟩
  case stream =>
    have hstream : i ∈ [Instr.serial, .encode, .decode, .rewind] :=
      List.mem_cons_of_mem _ (List.mem_append_left [Instr.rewind] hi)
    obtain ⟨hft, hnodes, hroot, hcodes⟩ := exec_sameTables hstream he
    exact ⟨hft, hnodes, hroot, hcodes⟩
  case cursor =>
    obtain ⟨-, hcursor, -⟩ := tableCommandsLeaveStreams i s t (List.mem_append_left _ hi) he
    exact hcursor

/-! ### The reserved opcodes -/

/-- Settles O47: the result and the end of `busy` are all a reserved opcode writes. -/
theorem reservedOpcodesAreIllegal : Obligations.ReservedOpcodesAreIllegal := by
  intro s i hi
  cases i with
  | reserved0 | reservedC | reservedD | reservedE | reservedF => rfl
  | freq | build | codes | serial | parse | encode | decode | compress | decompress | rewind | release => simp at hi

end Sys2Proof.Machine

/-!
PROOFS. Reset and hazards (70_reset_and_hazards.md): the completion of every command from a safe state and of every run
from one (R268), and the host's reset of an idle and of a busy block (R260).
-/

namespace Sys2Proof.Machine

/-! ### Completion, and runs -/

/-- Settles O53: the body of each command ends, and writing its result is all that follows. -/
theorem everyCommandCompletes : Obligations.EveryCommandCompletes := by
  intro i s h
  obtain ⟨t, r, hbody, -⟩ := bodyOf_endsSafe i h
  exact ⟨complete t r, by rw [exec_eq_finish, hbody, finish_done]⟩

/-- A step faults only where the issued command does, and from a safe state that command completes. -/
theorem State.Inv.step_ne_fault {s : State} (h : s.Inv) (f : Fault) : step s ≠ .fault f := by
  intro hstep
  obtain ⟨op, host', -, hfault⟩ := step_fault hstep
  obtain ⟨t, hnext⟩ := everyCommandCompletes (decodeWord op) _ (h.withHost host')
  simp [hnext] at hfault

/-- A run is safe when its first step meets no fault and every run that goes on from there is safe. -/
theorem safeRun_succ_iff {k : Nat} {s : State} :
    safeRun (k + 1) s ↔ (∀ f, step s ≠ .fault f) ∧ ∀ t, step s = .next t → safeRun k t := by
  rw [safeRun]
  cases step s with
  | next t => simp
  | fault f => simp
  | refused r => simp

/-- Settles O56, by induction on the number of steps: none meets a fault, and each ends in a safe state again. -/
theorem runsFromSafeStatesAreSafe : Obligations.RunsFromSafeStatesAreSafe := by
  intro s k h
  induction k generalizing s with
  | zero => trivial
  | succ k ih => exact safeRun_succ_iff.2 ⟨h.step_ne_fault, fun t hstep => ih t (stepKeepsSafeState s t h hstep)⟩

/-! ### Reset -/

/-- Settles O10: the host's reset is taken from its list and is the reset of the block. -/
theorem resetWhileIdle : Obligations.ResetWhileIdle := fun _ _ => step_idle_of_host

/-- An abandoned command leaves the reset state, with the `OUT` of the moment and one more free value drawn. -/
theorem abandonCommand_of_next {s t : State} {op : Opcode} (h : exec (decodeWord op) s = .next t) :
    abandonCommand op s = .next (resetBlock { s with out := outWhenAbandoned s t, draws := s.draws + 1 }) := by
  simp [abandonCommand, runIssued, h]

/-- Settles O11: the bytes that stay are the first ones of those the command appends, as many as the free value says. -/
theorem resetAbandonsCommand : Obligations.ResetAbandonsCommand := by
  intro s t op rest hop hhost hnext
  refine ⟨(t.out.drop s.out.length).take (Config.abandonedBytes s.draws), List.take_prefix _ _, ?_⟩
  calc step s = hostWhileBusy .reset op { s with host := rest } :=
        (step_issued hop).trans (busyStep_of_host hhost (by simp))
    _ = abandonCommand op { s with host := rest } := rfl
    _ = _ := abandonCommand_of_next hnext

end Sys2Proof.Machine
